-- ==== Sys2Proof/Word.lean ====
section
/-! DEFINITION. The 64-bit word of ECC-CORE (00_scope.md R8, R10). Every register, context register and command word is
one `Word`; its signed reading `sint` is `BitVec.toInt`, its unsigned reading `uint` is `BitVec.toNat`. -/

namespace Sys2Proof

/-- A register's 64 bits (00_scope.md R8, XLEN = 64). -/
abbrev Word := BitVec 64

/-- One byte lane of a register (20_memory.md R67). -/
abbrev Byte := BitVec 8

end Sys2Proof
end

