-- ==== Sys2Proof/Syntax.lean ====
section
/-! DEFINITION. The commands of ECC-CORE as syntax: one constructor per row of spec/opcode_table.json
(30_encoding.md R94). A field of kind `0` (R93) has no place in the syntax: it is 0 in every legal word. -/

namespace Sys2Proof

/-- A 5-bit register number: field value i names Di (30_encoding.md R91, R92). -/
abbrev Reg := Fin 32

/-- The operand kinds of a command field (30_encoding.md R93): `R` a register, `T` a triple base, `0` unused. -/
inductive FieldKind where
  | reg
  | triple
  | unused
deriving DecidableEq, Repr

/-- The 23 commands (30_encoding.md R94). `rd` is the destination, `rs1` and `rs2` the sources. -/
inductive Instr where
  /-- R122 modular product -/
  | mulmod (rd rs1 rs2 : Reg)
  /-- R123 modular exponentiation -/
  | expmod (rd rs1 rs2 : Reg)
  /-- R124 modular inverse -/
  | invmod (rd rs1 : Reg)
  /-- R125 Jacobi symbol -/
  | jacobi (rd rs1 : Reg)
  /-- R126 modular square root -/
  | sqrtmod (rd rs1 : Reg)
  /-- R132 Miller-Rabin primality test -/
  | isprime (rd rs1 : Reg)
  /-- R135 prime-curve validity -/
  | cvalid (rd : Reg)
  /-- R161 normalize a prime-field point; both fields are triple bases -/
  | pnorm (rd rs1 : Reg)
  /-- R164 prime-field point addition; all fields are triple bases -/
  | padd (rd rs1 rs2 : Reg)
  /-- R166 prime-field scalar multiplication; `rd`, `rs1` triple bases, `rs2` the scalar's register -/
  | psmul (rd rs1 rs2 : Reg)
  /-- R168 raw triple equality; `rs1`, `rs2` triple bases -/
  | peq (rd rs1 rs2 : Reg)
  /-- R192 polynomial addition -/
  | gadd (rd rs1 rs2 : Reg)
  /-- R193 multiply by z^s -/
  | gshl (rd rs1 rs2 : Reg)
  /-- R194 polynomial multiplication -/
  | gmul (rd rs1 rs2 : Reg)
  /-- R196 polynomial remainder -/
  | gmod (rd rs1 rs2 : Reg)
  /-- R197 polynomial degree -/
  | gdeg (rd rs1 : Reg)
  /-- R198 field multiplication -/
  | gmulm (rd rs1 rs2 : Reg)
  /-- R199 field exponentiation -/
  | gexp (rd rs1 rs2 : Reg)
  /-- R200 field inverse -/
  | ginv (rd rs1 : Reg)
  /-- R201 field square root -/
  | gsqrt (rd rs1 : Reg)
  /-- R231 normalize a binary-field point; both fields are triple bases -/
  | bnorm (rd rs1 : Reg)
  /-- R234 binary-field point addition; all fields are triple bases -/
  | badd (rd rs1 rs2 : Reg)
  /-- R236 binary-field scalar multiplication; `rd`, `rs1` triple bases, `rs2` the scalar's register -/
  | bsmul (rd rs1 rs2 : Reg)
deriving DecidableEq, Repr

end Sys2Proof
end

