-- ==== Sys2Proof/WellFormed.lean ====
section
/-! DEFINITION. When a command is well formed: its triple bases are at most 29 (30_encoding.md R96, R111). The range of
a register number (0 to 31) is in the type `Reg`. -/

namespace Sys2Proof

/-- Dk, Dk+1 and Dk+2 all exist: k is at most 29 (30_encoding.md R96). -/
def isTripleBase (k : Reg) : Bool := k.val ≤ 29

/-- The triple fields of a command (30_encoding.md R94, the columns of kind T). -/
def Instr.tripleFields : Instr → List Reg
  | .mulmod _ _ _ => []
  | .expmod _ _ _ => []
  | .invmod _ _ => []
  | .jacobi _ _ => []
  | .sqrtmod _ _ => []
  | .isprime _ _ => []
  | .cvalid _ => []
  | .pnorm rd rs1 => [rd, rs1]
  | .padd rd rs1 rs2 => [rd, rs1, rs2]
  | .psmul rd rs1 _ => [rd, rs1]
  | .peq _ rs1 rs2 => [rs1, rs2]
  | .gadd _ _ _ => []
  | .gshl _ _ _ => []
  | .gmul _ _ _ => []
  | .gmod _ _ _ => []
  | .gdeg _ _ => []
  | .gmulm _ _ _ => []
  | .gexp _ _ _ => []
  | .ginv _ _ => []
  | .gsqrt _ _ => []
  | .bnorm rd rs1 => [rd, rs1]
  | .badd rd rs1 rs2 => [rd, rs1, rs2]
  | .bsmul rd rs1 _ => [rd, rs1]

/-- A command whose triple fields are all triple bases (30_encoding.md R95 (d), R111). -/
def Instr.wf (i : Instr) : Bool := i.tripleFields.all isTripleBase

end Sys2Proof
end

