-- ==== Sys2Proof/Decode.lean ====
section
/-! DEFINITION. The command word (30_encoding.md R90 to R99): the opcode map, the decoder, the encoder. The decoder is
total on every 64-bit word and names the condition of R95 that makes a word illegal. -/

namespace Sys2Proof

/-- Why a command word is illegal, the conditions (a) to (d) of 30_encoding.md R95. All give ERR = ILLEGAL. -/
inductive IllegalWord where
  /-- (a) bits [63:23] are not 0 -/
  | reservedBits
  /-- (b) OP is not in the opcode map -/
  | unassignedOpcode
  /-- (c) a field of kind `0` is not 0 -/
  | unusedFieldSet
  /-- (d) a triple base above 29 -/
  | tripleBaseAbove29
deriving DecidableEq, Repr

/-- One row of the opcode map (30_encoding.md R94). -/
structure OpcodeRow where
  op : BitVec 8
  mnemonic : String
  rd : FieldKind
  rs1 : FieldKind
  rs2 : FieldKind
  build : Reg → Reg → Reg → Instr

/-- Rows 0x01 to 0x07: modular integer commands (30_encoding.md R94). -/
def opcodeMapModular : List OpcodeRow := [
  ⟨0x01, "MULMOD", .reg, .reg, .reg, .mulmod⟩,
  ⟨0x02, "EXPMOD", .reg, .reg, .reg, .expmod⟩,
  ⟨0x03, "INVMOD", .reg, .reg, .unused, fun rd rs1 _ => .invmod rd rs1⟩,
  ⟨0x04, "JACOBI", .reg, .reg, .unused, fun rd rs1 _ => .jacobi rd rs1⟩,
  ⟨0x05, "SQRTMOD", .reg, .reg, .unused, fun rd rs1 _ => .sqrtmod rd rs1⟩,
  ⟨0x06, "ISPRIME", .reg, .reg, .unused, fun rd rs1 _ => .isprime rd rs1⟩,
  ⟨0x07, "CVALID", .reg, .unused, .unused, fun rd _ _ => .cvalid rd⟩]

/-- Rows 0x10 to 0x13: prime-field point commands (30_encoding.md R94). -/
def opcodeMapPrimePoints : List OpcodeRow := [
  ⟨0x10, "PNORM", .triple, .triple, .unused, fun rd rs1 _ => .pnorm rd rs1⟩,
  ⟨0x11, "PADD", .triple, .triple, .triple, .padd⟩,
  ⟨0x12, "PSMUL", .triple, .triple, .reg, .psmul⟩,
  ⟨0x13, "PEQ", .reg, .triple, .triple, .peq⟩]

/-- Rows 0x20 to 0x28: GF(2) polynomial commands (30_encoding.md R94). -/
def opcodeMapPolynomials : List OpcodeRow := [
  ⟨0x20, "GADD", .reg, .reg, .reg, .gadd⟩,
  ⟨0x21, "GSHL", .reg, .reg, .reg, .gshl⟩,
  ⟨0x22, "GMUL", .reg, .reg, .reg, .gmul⟩,
  ⟨0x23, "GMOD", .reg, .reg, .reg, .gmod⟩,
  ⟨0x24, "GDEG", .reg, .reg, .unused, fun rd rs1 _ => .gdeg rd rs1⟩,
  ⟨0x25, "GMULM", .reg, .reg, .reg, .gmulm⟩,
  ⟨0x26, "GEXP", .reg, .reg, .reg, .gexp⟩,
  ⟨0x27, "GINV", .reg, .reg, .unused, fun rd rs1 _ => .ginv rd rs1⟩,
  ⟨0x28, "GSQRT", .reg, .reg, .unused, fun rd rs1 _ => .gsqrt rd rs1⟩]

/-- Rows 0x30 to 0x32: binary-field point commands (30_encoding.md R94). -/
def opcodeMapBinaryPoints : List OpcodeRow := [
  ⟨0x30, "BNORM", .triple, .triple, .unused, fun rd rs1 _ => .bnorm rd rs1⟩,
  ⟨0x31, "BADD", .triple, .triple, .triple, .badd⟩,
  ⟨0x32, "BSMUL", .triple, .triple, .reg, .bsmul⟩]

/-- The complete opcode map (30_encoding.md R94). -/
def opcodeMap : List OpcodeRow :=
  opcodeMapModular ++ opcodeMapPrimePoints ++ opcodeMapPolynomials ++ opcodeMapBinaryPoints

/-- OP, bits 7:0 (30_encoding.md R91). -/
def fieldOp (w : Word) : BitVec 8 := w.extractLsb' 0 8

/-- RD, bits 12:8 (30_encoding.md R91). -/
def fieldRd (w : Word) : Reg := (w.extractLsb' 8 5).toFin

/-- RS1, bits 17:13 (30_encoding.md R91). -/
def fieldRs1 (w : Word) : Reg := (w.extractLsb' 13 5).toFin

/-- RS2, bits 22:18 (30_encoding.md R91). -/
def fieldRs2 (w : Word) : Reg := (w.extractLsb' 18 5).toFin

/-- Bits 63:23, which must be 0 (30_encoding.md R90). -/
def fieldReserved (w : Word) : BitVec 41 := w.extractLsb' 23 41

/-- What is wrong with one field of the given kind, if anything (30_encoding.md R95 (c), (d)). -/
def fieldFault : FieldKind → Reg → Option IllegalWord
  | .reg, _ => none
  | .triple, k => if isTripleBase k then none else some .tripleBaseAbove29
  | .unused, k => if k = 0 then none else some .unusedFieldSet

/-- The row of an opcode (30_encoding.md R94); none for a reserved OP (R97). -/
def findRow (op : BitVec 8) : Option OpcodeRow := opcodeMap.find? (fun r => r.op == op)

/-- The three fields of a word against its row's kinds (30_encoding.md R95, the loop of `decode`). -/
def buildFields (row : OpcodeRow) (rd rs1 rs2 : Reg) : Except IllegalWord Instr :=
  match fieldFault row.rd rd, fieldFault row.rs1 rs1, fieldFault row.rs2 rs2 with
  | some e, _, _ => .error e
  | none, some e, _ => .error e
  | none, none, some e => .error e
  | none, none, none => .ok (row.build rd rs1 rs2)

/-- `decode(w)` of 30_encoding.md R95: the command of a 64-bit command word, or why the word is illegal. -/
def decode (w : Word) : Except IllegalWord Instr :=
  if fieldReserved w ≠ 0 then .error .reservedBits
  else
    match findRow (fieldOp w) with
    | none => .error .unassignedOpcode
    | some row => buildFields row (fieldRd w) (fieldRs1 w) (fieldRs2 w)

/-- The encoding function of 30_encoding.md R99: `op | (rd << 8) | (rs1 << 13) | (rs2 << 18)`. -/
def packWord (op : Nat) (rd rs1 rs2 : Reg) : Word :=
  BitVec.ofNat 64 (op ||| (rd.val <<< 8) ||| (rs1.val <<< 13) ||| (rs2.val <<< 18))

/-- The command word of a command (30_encoding.md R94, R99). -/
def encode : Instr → Word
  | .mulmod rd rs1 rs2 => packWord 0x01 rd rs1 rs2
  | .expmod rd rs1 rs2 => packWord 0x02 rd rs1 rs2
  | .invmod rd rs1 => packWord 0x03 rd rs1 0
  | .jacobi rd rs1 => packWord 0x04 rd rs1 0
  | .sqrtmod rd rs1 => packWord 0x05 rd rs1 0
  | .isprime rd rs1 => packWord 0x06 rd rs1 0
  | .cvalid rd => packWord 0x07 rd 0 0
  | .pnorm rd rs1 => packWord 0x10 rd rs1 0
  | .padd rd rs1 rs2 => packWord 0x11 rd rs1 rs2
  | .psmul rd rs1 rs2 => packWord 0x12 rd rs1 rs2
  | .peq rd rs1 rs2 => packWord 0x13 rd rs1 rs2
  | .gadd rd rs1 rs2 => packWord 0x20 rd rs1 rs2
  | .gshl rd rs1 rs2 => packWord 0x21 rd rs1 rs2
  | .gmul rd rs1 rs2 => packWord 0x22 rd rs1 rs2
  | .gmod rd rs1 rs2 => packWord 0x23 rd rs1 rs2
  | .gdeg rd rs1 => packWord 0x24 rd rs1 0
  | .gmulm rd rs1 rs2 => packWord 0x25 rd rs1 rs2
  | .gexp rd rs1 rs2 => packWord 0x26 rd rs1 rs2
  | .ginv rd rs1 => packWord 0x27 rd rs1 0
  | .gsqrt rd rs1 => packWord 0x28 rd rs1 0
  | .bnorm rd rs1 => packWord 0x30 rd rs1 0
  | .badd rd rs1 rs2 => packWord 0x31 rd rs1 rs2
  | .bsmul rd rs1 rs2 => packWord 0x32 rd rs1 rs2

/-- The command word held by the low `nbits` bits of `w`, numbered as spec/opcode_table.json numbers them; the bits
above are 0. A command word is one 64-bit value (30_encoding.md R90), so there are no further words to lay out. -/
def tableWord (nbits w : Nat) : Word := BitVec.ofNat 64 (w % 2 ^ nbits)

/-- The command the decoder reads from the table's numbering of a word; none where it is illegal. -/
def decodeTableWord (nbits w : Nat) : Option Instr :=
  match decode (tableWord nbits w) with
  | .ok i => some i
  | .error _ => none

end Sys2Proof
end

