-- ==== Sys2Proof/Config.lean ====
section
/-! DEFINITION. What the platform or an implementation fixes (00_scope.md R8, the OPEN parameters) and the free values
of the random source (00_scope.md R13). An `opaque` constant has no body: no proof can see its value, so a claim that
holds of it holds of every value. -/

namespace Sys2Proof

/-- OPEN parameter BASE_ADDR divided by 4096 (20_memory.md R61: BASE_ADDR is a multiple of 4096). Log 8. -/
opaque Config.basePage : Nat

/-- BASE_ADDR (20_memory.md R61). -/
def Config.baseAddr : Nat := Config.basePage * 4096

/-- OPEN parameter IRQ_LINE: the host interrupt line the IRQ output is wired to (60_exceptions.md R270). Log 8. -/
opaque Config.irqLine : Nat

/-- The random source (10_state.md R50): the `n`-th raw draw, a free value without any law (00_scope.md R13). Log 2. -/
opaque Config.draw : Nat → Nat

/-- The constant read from ID: block code 0xECC0, interface revision 1 (10_state.md R22). -/
def Config.idValue : Word := 0x00000000ECC00001#64

/-- MR_ROUNDS, the Miller-Rabin witnesses of one ISPRIME (00_scope.md R8). No command takes more draws. -/
def Config.mrRounds : Nat := 50

end Sys2Proof
end

