-- ==== Sys2Proof/Machine/Arith.lean ====
section
/-! DEFINITION. The integer functions of the pseudocode (00_scope.md R12) and of 40_modular.md, on unbounded integers:
every value is exact (40_modular.md R120, R136). Where the spec defines a function mathematically and a definition here
computes it by steps, log 14 says so and names the lemma or the obligation that says the two agree. -/

namespace Sys2Proof.Machine

/-- `fmod(a, p)` for p > 0: the residue in [0, p) (00_scope.md R12). -/
def fmod (a : Int) (p : Nat) : Nat := (a % (p : Int)).toNat

/-- The residue of a register read as an Int64 (40_modular.md R120, 10_state.md R26). -/
def residue (v : Word) (p : Nat) : Nat := fmod v.toInt p

/-- The loop of 41_prime_points.md R166 over any operation: accumulate, then double, least significant bit first. The
first argument bounds the number of bits of `k`. -/
def binaryLoop {α : Type} (op : α → α → α) : Nat → α → α → Nat → α
  | 0, acc, _, _ => acc
  | fuel + 1, acc, q, k =>
    if k = 0 then acc
    else binaryLoop op fuel (if k % 2 = 1 then op acc q else acc) (op q q) (k / 2)

/-- Double-and-add (or square-and-multiply) of `base` by `k`, from `unit` (41_prime_points.md R166). -/
def binaryPower {α : Type} (op : α → α → α) (unit base : α) (k : Nat) : α :=
  binaryLoop op (k.log2 + 1) unit base k

/-- `powmod(a, e, p)` = fmod(a^e, p), by square-and-multiply (00_scope.md R12, 40_modular.md R123). Log 14. -/
def powMod (a e p : Nat) : Nat := binaryPower (fun u v => u * v % p) (1 % p) (a % p) e

/-- `inv(v)` = powmod(fmod(v, p), p - 2, p) (41_prime_points.md R162). -/
def invMod (v : Int) (p : Nat) : Nat := powMod (fmod v p) (p - 2) p

/-- No divisor of `n` from `d` up to the square root of `n`; the first argument bounds the search. -/
def noDivisorFrom (n : Nat) : Nat → Nat → Bool
  | 0, _ => true
  | fuel + 1, d => if n < d * d then true else if n % d = 0 then false else noDivisorFrom n fuel (d + 1)

/-- `isprime(n)`: n ≥ 2 with no divisor d, 1 < d < n (00_scope.md R12), by trial division. Log 14. -/
def isPrime (n : Nat) : Bool := decide (2 ≤ n) && noDivisorFrom n n 2

/-- The integer square root of `p`, bit by bit from bit `i - 1` down. -/
def isqrtFrom (p : Nat) : Nat → Nat → Nat
  | 0, r => r
  | i + 1, r => isqrtFrom p i (if (r + 2 ^ i) * (r + 2 ^ i) ≤ p then r + 2 ^ i else r)

/-- The largest r with r * r ≤ p. -/
def isqrt (p : Nat) : Nat := isqrtFrom p (p.log2 / 2 + 1) 0

/-- `exists s: s * s = p` (40_modular.md R126). Log 14. -/
def isPerfectSquare (p : Nat) : Bool := isqrt p * isqrt p == p

/-- The loop of the algorithm of 40_modular.md R121, with sign `t`; the first argument bounds its steps. -/
def jacLoop : Nat → Nat → Nat → Int → Int
  | 0, _, _, _ => 0
  | fuel + 1, a, n, t =>
    if a = 0 then (if n = 1 then t else 0)
    else if a % 2 = 0 then jacLoop fuel (a / 2) n (if n % 8 = 3 ∨ n % 8 = 5 then -t else t)
    else jacLoop fuel (n % a) a (if a % 4 = 3 ∧ n % 4 = 3 then -t else t)

/-- The Jacobi symbol `jac(a, n)` for odd n ≥ 1 (40_modular.md R121). Log 14. -/
def jac (a : Int) (n : Nat) : Int := jacLoop (fmod a n + n + 1) (fmod a n) n 1

/-- The least root from `r` on, within the given number of candidates; 0 if there is none. -/
def findRootFrom (a p : Nat) : Nat → Nat → Nat
  | 0, _ => 0
  | fuel + 1, r => if r * r % p = a then r else findRootFrom a p fuel (r + 1)

/-- `rootmin(a, p)`: the smaller square root of a mod p in [1, p - 1] (40_modular.md R127), by search. Log 14. -/
def rootMin (a p : Nat) : Nat := findRootFrom a p (p - 1) 1

/-- The pair (s, d) with n = 2^s * d and d odd, for n > 0 (40_modular.md R132); `s` counts the factors already taken. -/
def splitTwosFrom : Nat → Nat → Nat → Nat × Nat
  | 0, s, d => (s, d)
  | fuel + 1, s, d => if d % 2 = 0 then splitTwosFrom fuel (s + 1) (d / 2) else (s, d)

/-- The s and odd d with n = 2^s * d (40_modular.md R132). -/
def splitTwos (n : Nat) : Nat × Nat := splitTwosFrom (n.log2 + 1) 0 n

/-- The squarings of a Miller-Rabin round: does one of the next `k` squares of `y` equal n - 1 (40_modular.md R133). -/
def mrSquares (n : Nat) : Nat → Nat → Bool
  | 0, _ => false
  | k + 1, y => y * y % n == n - 1 || mrSquares n k (y * y % n)

/-- One Miller-Rabin round `mr_pass(n, d, s, w)` (40_modular.md R133). -/
def mrPass (n d s w : Nat) : Bool :=
  powMod w d n == 1 || powMod w d n == n - 1 || mrSquares n (s - 1) (powMod w d n)

end Sys2Proof.Machine
end

