-- ==== Sys2Proof/Machine/State.lean ====
section
/-! DEFINITION. The state of ECC-CORE as plain data (10_state.md R20, R46 to R52), the stops of the model, and the state
after reset. -/

namespace Sys2Proof.Machine

/-- The registers a command may read: the data register file D0 to D31 and the context registers (10_state.md R23,
R27 to R30). A launch snapshot is a copy of exactly these (R48). -/
structure Regs where
  d : Vector Word 32
  modp : Word
  ca : Word
  cb : Word
  fpoly : Word
deriving DecidableEq, Repr

/-- The error codes of STATUS.ERR (60_exceptions.md R265). Codes 0x07 to 0xFF are never produced, so none stands here.
Log 16. -/
inductive ErrCode where
  | none
  | illegal
  | domain
  | overflow
  | nonresidue
  | noroot
  | aborted
deriving DecidableEq, Repr

/-- The stored bits of STATUS (10_state.md R38). BUSY is the engine phase (`Engine`), log 13. -/
structure Status where
  done : Bool
  flag : Bool
  sent : Bool
  ovr : Bool
  err : ErrCode
deriving DecidableEq, Repr

/-- The engine phase (10_state.md R49): idle, or busy with the latched command and its launch snapshot (R48). -/
inductive Engine where
  | idle
  | busy (snapshot : Regs)
deriving DecidableEq, Repr

/-- One atomic step of an agent as it reaches the block (20_memory.md R72, 60_exceptions.md R267): a host read or write
of `width` bytes at a window offset (bits [11:0] of the address, R61), the engine's completion, the hardware reset. -/
inductive Event where
  | hostRead (off : BitVec 12) (width : Nat)
  | hostWrite (off : BitVec 12) (width : Nat) (v : Word)
  | completion
  | hardReset
deriving DecidableEq, Repr

/-- The bus's answer to a host access (20_memory.md R63 to R65). Log 7. -/
inductive BusReply where
  /-- an accepted read and its data -/
  | readData (v : Word)
  /-- an accepted write -/
  | writeAccepted
  /-- a rejected read: error response, with its data -/
  | readRejected (v : Word)
  /-- a rejected write: error response -/
  | writeRejected
deriving DecidableEq, Repr

/-- The machine. `drawCount`, `inputs` and `reply` are the model's own fields (logs 2, 1 and 7); the rest is the spec's
state (10_state.md R20). -/
structure State where
  /-- D0 to D31, MODP, CA, CB, FPOLY -/
  regs : Regs
  /-- CTRL.IRQEN (10_state.md R35) -/
  irqen : Bool
  /-- the stored bits of STATUS (10_state.md R38) -/
  status : Status
  /-- CMD, which is the command latch (10_state.md R33, R47) -/
  cmd : Word
  /-- the engine phase and the launch snapshot (10_state.md R48, R49); STATUS.BUSY is read from it -/
  engine : Engine
  /-- how many draws of the random source have been passed over (log 2) -/
  drawCount : Nat
  /-- the events still to come, in the order they reach the block (log 1) -/
  inputs : List Event
  /-- the answer to the last host access (log 7) -/
  reply : Option BusReply
deriving DecidableEq, Repr

/-- The model's named faults. -/
inductive Fault where
  /-- A command's meaning run by itself while no command is in flight: the completion is not enabled (10_state.md R49,
  60_exceptions.md R267). Raised by every meaning on an idle engine; `step` never runs one there. Safe (log 9). -/
  | noCommandInFlight
deriving DecidableEq, Repr

/-- The model's named refusals. -/
inductive Refusal where
  /-- An instruction that has no meaning yet. Raised only by an arm of `exec` (none is left). Safe. -/
  | notModelled (mnemonic : String)
deriving DecidableEq, Repr

/-- The register values after reset: all 0 (10_state.md R52). -/
def Regs.reset : Regs := ⟨Vector.replicate 32 0, 0, 0, 0, 0⟩

/-- STATUS after reset: all 0 (10_state.md R52). -/
def Status.reset : Status := ⟨false, false, false, false, .none⟩

/-- The machine right after reset (10_state.md R52, 70_reset_and_hazards.md R300, R301). The model's own fields: no draw
passed over (log 2), nothing scheduled (log 1), no access answered (log 7). -/
def State.reset : State where
  regs := Regs.reset
  irqen := false
  status := Status.reset
  cmd := 0
  engine := .idle
  drawCount := 0
  inputs := []
  reply := none

end Sys2Proof.Machine
end

