-- ==== Sys2Proof/Machine/Operands.lean ====
section
/-! DEFINITION. Operand forms: reading and writing data registers, triples, and the checks every rule runs on its
operands before it computes (30_encoding.md R92, 60_exceptions.md R266). A check takes the rest of the rule as its last
argument, so that the order of the checks in a rule is the order in which they are written. -/

namespace Sys2Proof.Machine

/-- `x[i]`: data register Di (00_scope.md R11). No register is hard-wired (10_state.md R24). -/
def Regs.read (x : Regs) (i : Reg) : Word := x.d[i.val]

/-- `x[i] <- v` (00_scope.md R11). -/
def Regs.write (x : Regs) (i : Reg) (v : Word) : Regs := { x with d := x.d.set i.val v }

/-- Dk+j for a register number k (00_scope.md R14). For a triple base k ≤ 29 and j ≤ 2 the sum stays in range. -/
def regPlus (k : Reg) (j : Nat) : Reg := Fin.ofNat 32 (k.val + j)

/-- A point's three coordinates x, y and z (00_scope.md R14): words in registers, or exact values. -/
structure Triple (α : Type) where
  x : α
  y : α
  z : α
deriving DecidableEq, Repr

/-- `T(k)` = (x[k], x[k+1], x[k+2]) (00_scope.md R14). -/
def Regs.triple (x : Regs) (k : Reg) : Triple Word :=
  ⟨x.read k, x.read (regPlus k 1), x.read (regPlus k 2)⟩

/-- The three writes of `T(k) <- (X, Y, Z)` (00_scope.md R14), each value written in 64 bits (R12). -/
def tripleWrites (k : Reg) (t : Triple Nat) : List (Reg × Word) :=
  [(k, BitVec.ofNat 64 t.x), (regPlus k 1, BitVec.ofNat 64 t.y), (regPlus k 2, BitVec.ofNat 64 t.z)]

/-- All writes of one completion (60_exceptions.md R262); their destinations are distinct, so the order does not show. -/
def Regs.writeAll (x : Regs) (ws : List (Reg × Word)) : Regs := ws.foldl (fun r w => r.write w.1 w.2) x

/-- ILLEGAL unless every listed field is a triple base (30_encoding.md R95 (d)); the decoder has checked it already for
every command in flight (log 10). -/
def withTripleBases {α : Type} (ks : List Reg) (rest : Except ErrCode α) : Except ErrCode α :=
  if ks.all isTripleBase then rest else .error .illegal

/-- `p <- sint(MODP); if p < 2 then raise Error(DOMAIN)` (40_modular.md R122). -/
def withModulus {α : Type} (x : Regs) (rest : Nat → Except ErrCode α) : Except ErrCode α :=
  if x.modp.toInt < 2 then .error .domain else rest x.modp.toInt.toNat

/-- The field modulus check of 42_gf2_poly.md R191: DOMAIN if uint(FPOLY) < 2, else f = poly(FPOLY). -/
def withFieldModulus {α : Type} (x : Regs) (rest : Nat → Except ErrCode α) : Except ErrCode α :=
  if x.fpoly.toNat < 2 then .error .domain else rest x.fpoly.toNat

/-- A nonnegative Int64 operand (exponent, scalar or shift): DOMAIN if it is negative (40_modular.md R123,
41_prime_points.md R166, 42_gf2_poly.md R193). -/
def withNonneg {α : Type} (v : Word) (rest : Nat → Except ErrCode α) : Except ErrCode α :=
  if v.toInt < 0 then .error .domain else rest v.toInt.toNat

end Sys2Proof.Machine
end

