-- ==== Sys2Proof/Machine/Flags.lean ====
section
/-! DEFINITION. What a command's rule hands to its completion, with FLAG and SENT computed as 10_state.md R53 says; the
STATUS and CTRL words a host reads; the interrupt output. -/

namespace Sys2Proof.Machine

/-- What a rule that raises no error leaves: its register writes, FLAG and SENT (00_scope.md R11). -/
structure Result where
  writes : List (Reg × Word)
  flag : Bool
  sent : Bool
deriving DecidableEq, Repr

/-- The outcome of a command's rule: `raise Error(code)`, or a result (00_scope.md R11). -/
abbrev RuleOutcome := Except ErrCode Result

/-- One register written, FLAG = 0, SENT = 0 (10_state.md R53). -/
def plainResult (rd : Reg) (v : Word) : RuleOutcome := .ok ⟨[(rd, v)], false, false⟩

/-- A Boolean result: rd = 1 or 0, FLAG = the result (10_state.md R41, R53). -/
def boolResult (rd : Reg) (b : Bool) : RuleOutcome := .ok ⟨[(rd, if b then 1 else 0)], b, false⟩

/-- The integer sentinel: rd = -1, SENT = 1 (10_state.md R42). -/
def minusOneResult (rd : Reg) : RuleOutcome := .ok ⟨[(rd, -1)], false, true⟩

/-- The "no value" sentinel: nothing written, SENT = 1 (10_state.md R42, 42_gf2_poly.md R200). -/
def noValueResult : RuleOutcome := .ok ⟨[], false, true⟩

/-- A point result: the triple at rd, FLAG = 1 iff it is the canonical infinity `o` (10_state.md R41, R53). -/
def pointResult (o : Triple Nat) (rd : Reg) (t : Triple Nat) : RuleOutcome :=
  .ok ⟨tripleWrites rd t, decide (t = o), false⟩

/-- The number of an error code (60_exceptions.md R265). -/
def ErrCode.code : ErrCode → BitVec 8
  | .none => 0x00
  | .illegal => 0x01
  | .domain => 0x02
  | .overflow => 0x03
  | .nonresidue => 0x04
  | .noroot => 0x05
  | .aborted => 0x06

/-- STATUS.BUSY: 1 from launch to completion, which is the busy phase (10_state.md R39, R49). -/
def State.isBusy (s : State) : Bool :=
  match s.engine with
  | .idle => false
  | .busy _ => true

/-- The STATUS word (10_state.md R38): ERR in bits 15:8, then OVR, SENT, FLAG, DONE, BUSY in bits 4 to 0; the rest 0. -/
def State.statusWord (s : State) : Word :=
  0#48 ++ s.status.err.code ++ 0#3 ++ BitVec.ofBool s.status.ovr ++ BitVec.ofBool s.status.sent
    ++ BitVec.ofBool s.status.flag ++ BitVec.ofBool s.status.done ++ BitVec.ofBool s.isBusy

/-- The CTRL word as read: IRQEN in bit 0, everything else 0 (10_state.md R34). -/
def State.ctrlWord (s : State) : Word := 0#63 ++ BitVec.ofBool s.irqen

/-- The interrupt output, a level: DONE and IRQEN (60_exceptions.md R270). -/
def State.irq (s : State) : Bool := s.status.done && s.irqen

/-- Is the host interrupt line `n` driven by this block (60_exceptions.md R270, parameter IRQ_LINE)? -/
def State.drivesLine (s : State) (n : Nat) : Bool := s.irq && n == Config.irqLine

end Sys2Proof.Machine
end

