-- ==== Sys2Proof/Machine/Ops.lean ====
section
/-! DEFINITION. The atomic operations of the block (60_exceptions.md R261 to R264, 70_reset_and_hazards.md R300): launch,
completion, error completion, abort, reset; and the register window a host reads and writes (20_memory.md). The error
completion is the block's one exception entry: it saves nothing and transfers control nowhere (R272), and there is no
return from it (R273). -/

namespace Sys2Proof.Machine

/-- The draws of the completion taken in `s`: its i-th draw (00_scope.md R13). Log 2. -/
def State.draws (s : State) (i : Nat) : Nat := Config.draw (s.drawCount + i)

/-- `launch(v)` (60_exceptions.md R261): OVR and CTRL are unchanged. -/
def State.launch (v : Word) (s : State) : State :=
  { s with
    cmd := v
    engine := .busy s.regs
    status := { done := false, flag := false, sent := false, ovr := s.status.ovr, err := .none } }

/-- What every completion does besides its register writes (60_exceptions.md R262, R263): the STATUS bits, BUSY <- 0,
DONE <- 1; OVR is unchanged (10_state.md R43). The draws a command may have taken are passed over (log 3). -/
def State.finish (flag sent : Bool) (err : ErrCode) (s : State) : State :=
  { s with
    engine := .idle
    status := { done := true, flag := flag, sent := sent, ovr := s.status.ovr, err := err }
    drawCount := s.drawCount + Config.mrRounds }

/-- `error_complete(code)` (60_exceptions.md R263): no data or context register is written. -/
def State.errorComplete (code : ErrCode) (s : State) : State := s.finish false false code

/-- The completion of a rule that raised no error (60_exceptions.md R262). -/
def State.resultComplete (r : Result) (s : State) : State :=
  { s.finish r.flag r.sent .none with regs := s.regs.writeAll r.writes }

/-- The completion with a rule's outcome (60_exceptions.md R262). -/
def State.completeWith (o : RuleOutcome) (s : State) : State :=
  match o with
  | .error code => s.errorComplete code
  | .ok r => s.resultComplete r

/-- Run a command's rule on the launch snapshot and its draws, and complete (60_exceptions.md R262). The completion is
enabled only while a command is in flight (log 9). -/
def runRule (rule : Regs → (Nat → Nat) → RuleOutcome) (s : State) : Host.Outcome State Fault Refusal :=
  match s.engine with
  | .idle => .fault .noCommandInFlight
  | .busy snapshot => .next (s.completeWith (rule snapshot s.draws))

/-- `abort()` (60_exceptions.md R264), taken while BUSY = 1; `irqen` is bit 0 of the written value. -/
def State.abort (irqen : Bool) (s : State) : State :=
  { s with
    engine := .idle
    irqen := irqen
    status := { done := true, flag := false, sent := false, ovr := s.status.ovr, err := .aborted } }

/-- `reset()` (70_reset_and_hazards.md R300): every register and the engine take their reset values, and a command in
flight is discarded. The random source's state is unspecified after it, so the draws go on (log 3); the events still to
come and the bus's last answer are not the block's state. -/
def State.resetBlock (s : State) : State :=
  { State.reset with drawCount := s.drawCount, inputs := s.inputs, reply := s.reply }

/-- A register of the window (10_state.md R21). -/
inductive WindowReg where
  | id
  | ctrl
  | status
  | cmd
  | modp
  | ca
  | cb
  | fpoly
  | data (i : Reg)
  | reserved
deriving DecidableEq, Repr

/-- The register at an 8-byte aligned window offset (10_state.md R21). -/
def windowReg (off : Nat) : WindowReg :=
  if off = 0x000 then .id
  else if off = 0x008 then .ctrl
  else if off = 0x010 then .status
  else if off = 0x018 then .cmd
  else if off = 0x020 then .modp
  else if off = 0x028 then .ca
  else if off = 0x030 then .cb
  else if off = 0x038 then .fpoly
  else if 0x100 ≤ off ∧ off < 0x200 then .data (Fin.ofNat 32 ((off - 0x100) / 8))
  else .reserved

/-- The offset of a register (10_state.md R21); a reserved place has no single offset, and 0x040 stands for it. -/
def WindowReg.offset : WindowReg → BitVec 12
  | .id => 0x000
  | .ctrl => 0x008
  | .status => 0x010
  | .cmd => 0x018
  | .modp => 0x020
  | .ca => 0x028
  | .cb => 0x030
  | .fpoly => 0x038
  | .data i => BitVec.ofNat 12 (0x100 + 8 * i.val)
  | .reserved => 0x040

/-- An access the block accepts: 8 bytes wide and 8-byte aligned (20_memory.md R62). -/
def acceptsAccess (off : BitVec 12) (width : Nat) : Bool := width == 8 && off.toNat % 8 == 0

/-- The value of a register as a host reads it (20_memory.md R63, R66). -/
def State.readReg (s : State) : WindowReg → Word
  | .id => Config.idValue
  | .ctrl => s.ctrlWord
  | .status => s.statusWord
  | .cmd => s.cmd
  | .modp => s.regs.modp
  | .ca => s.regs.ca
  | .cb => s.regs.cb
  | .fpoly => s.regs.fpoly
  | .data i => s.regs.read i
  | .reserved => 0

/-- Byte k of a 64-bit value: bits [8k+7 : 8k] (20_memory.md R67, little-endian). -/
def byteLane (v : Word) (k : Nat) : Byte := v.extractLsb' (8 * k) 8

/-- The byte the register window carries at an offset (20_memory.md R67). No access sees it alone (R65). -/
def State.windowByte (s : State) (off : BitVec 12) : Byte :=
  byteLane (s.readReg (windowReg (off.toNat - off.toNat % 8))) (off.toNat % 8)

/-- The window offset of a host address; none for an address that is not the block's (20_memory.md R61). -/
def windowOffset (addr : Nat) : Option (BitVec 12) :=
  if Config.baseAddr ≤ addr ∧ addr < Config.baseAddr + 4096 then some (BitVec.ofNat 12 (addr - Config.baseAddr))
  else none

/-- A CTRL write (10_state.md R34 to R37): bit 2 resets and the other bits are then ignored; else bit 0 sets IRQEN, and
bit 1 aborts a command in flight. It is taken whether or not the engine is busy. -/
def State.writeCtrl (v : Word) (s : State) : State :=
  if v.getLsbD 2 then s.resetBlock
  else if v.getLsbD 1 && s.isBusy then s.abort (v.getLsbD 0)
  else { s with irqen := v.getLsbD 0 }

/-- A STATUS write (10_state.md R45): bit 1 clears DONE, bit 4 clears OVR, every other bit is ignored. -/
def State.writeStatus (v : Word) (s : State) : State :=
  { s with
    status := { s.status with done := s.status.done && !v.getLsbD 1, ovr := s.status.ovr && !v.getLsbD 4 } }

/-- A write that the block drops because it is busy (20_memory.md R68): only OVR changes. -/
def State.dropWrite (s : State) : State := { s with status := { s.status with ovr := true } }

/-- A write taken only while the engine is idle (20_memory.md R64, R68). -/
def State.writeWhenIdle (s taken : State) : State := if s.isBusy then s.dropWrite else taken

/-- `MemWrite(off, 8, v)` to a register (20_memory.md R64). -/
def State.writeReg (v : Word) (s : State) : WindowReg → State
  | .id => s
  | .ctrl => s.writeCtrl v
  | .status => s.writeStatus v
  | .cmd => s.writeWhenIdle (s.launch v)
  | .modp => s.writeWhenIdle { s with regs := { s.regs with modp := v } }
  | .ca => s.writeWhenIdle { s with regs := { s.regs with ca := v } }
  | .cb => s.writeWhenIdle { s with regs := { s.regs with cb := v } }
  | .fpoly => s.writeWhenIdle { s with regs := { s.regs with fpoly := v } }
  | .data i => s.writeWhenIdle { s with regs := s.regs.write i v }
  | .reserved => s

/-- A host read (20_memory.md R63, R65): it changes no state of the block; a rejected one returns 0 as data. -/
def State.hostRead (off : BitVec 12) (width : Nat) (s : State) : State :=
  if acceptsAccess off width then { s with reply := some (.readData (s.readReg (windowReg off.toNat))) }
  else { s with reply := some (.readRejected 0) }

/-- A host write (20_memory.md R64, R65): a rejected one has no effect. -/
def State.hostWrite (off : BitVec 12) (width : Nat) (v : Word) (s : State) : State :=
  if acceptsAccess off width then { s.writeReg v (windowReg off.toNat) with reply := some .writeAccepted }
  else { s with reply := some .writeRejected }

end Sys2Proof.Machine
end

