-- ==== Sys2Proof/Machine/Poly.lean ====
section
/-! DEFINITION. GF(2) polynomials of any degree (00_scope.md R12, 42_gf2_poly.md R190). A polynomial is the natural
number whose bit i is the coefficient of z^i, so `poly(v)` is `BitVec.toNat`, `bits(P)` is `BitVec.ofNat 64`, addition is
bitwise exclusive or, and no degree bound is built in (R195: intermediate products are exact at any degree). -/

namespace Sys2Proof.Machine

/-- `deg(P)`: the largest exponent with coefficient 1, and -1 for the zero polynomial (00_scope.md R12). -/
def deg (P : Nat) : Int := if P = 0 then -1 else (P.log2 : Int)

/-- The sum of `Q` shifted by each exponent below `n` present in `P` (42_gf2_poly.md R194). -/
def clmulBelow (P Q : Nat) : Nat → Nat
  | 0 => 0
  | i + 1 => (if P.testBit i then Q <<< i else 0) ^^^ clmulBelow P Q i

/-- `clmul(P, Q)`: the product in GF(2)[z] (00_scope.md R12). -/
def clmul (P Q : Nat) : Nat := clmulBelow P Q (P.log2 + 1)

/-- The reduction loop of 42_gf2_poly.md R196; the first argument bounds its steps. -/
def premLoop (M : Nat) : Nat → Nat → Nat
  | 0, R => R
  | fuel + 1, R => if deg R < deg M then R else premLoop M fuel (R ^^^ (M <<< (R.log2 - M.log2)))

/-- `prem(P, M)` for M ≠ 0: the remainder of degree below deg(M) (00_scope.md R12, 42_gf2_poly.md R196). Log 14. -/
def prem (P M : Nat) : Nat := premLoop M (P.log2 + 2) P

/-- `mul(u, v)` = prem(clmul(u, v), f) (43_binary_points.md, 42_gf2_poly.md R198). -/
def fieldMul (f u v : Nat) : Nat := prem (clmul u v) f

/-- `sq(u)` = mul(u, u) (43_binary_points.md). -/
def fieldSq (f u : Nat) : Nat := fieldMul f u u

/-- `pmodexp(P, k, f)` = prem(P^k, f), by square-and-multiply (00_scope.md R12, 42_gf2_poly.md R199). Log 14. -/
def polyPowMod (P k f : Nat) : Nat := binaryPower (fieldMul f) (prem 1 f) (prem P f) k

/-- m = deg(f) of an accepted field modulus (42_gf2_poly.md R191). -/
def fieldDegree (f : Nat) : Nat := f.log2

/-- `inv(u)` = pmodexp(u, 2^m - 2, f) (43_binary_points.md, 42_gf2_poly.md R200). -/
def fieldInv (f u : Nat) : Nat := polyPowMod u (2 ^ fieldDegree f - 2) f

/-- No polynomial among the `n` from `d` on divides `f`. -/
def noFactorFrom (f : Nat) : Nat → Nat → Bool
  | 0, _ => true
  | n + 1, d => prem f d != 0 && noFactorFrom f n (d + 1)

/-- `irreducible(f)`: deg(f) ≥ 1 and no factor of degree 1 to deg(f) - 1 (00_scope.md R12). A proper factor has a
cofactor, so the search stops at half the degree. Log 14. -/
def irreducible (f : Nat) : Bool := decide (2 ≤ f) && noFactorFrom f (2 ^ (fieldDegree f / 2 + 1) - 2) 2

end Sys2Proof.Machine
end

