-- ==== Sys2Proof/Machine/BinaryPoints.lean ====
section
/-! DEFINITION. The binary-field point commands (43_binary_points.md). Between field elements the sum is exclusive or. -/

namespace Sys2Proof.Machine

/-- The canonical infinity of a binary field, (1, 0, 0) (43_binary_points.md R230). -/
def binaryInfinity : Triple Nat := ⟨1, 0, 0⟩

/-- `normB` on coordinates already reduced mod f (43_binary_points.md R231): (x/z, y/z²), z set to 1. -/
def normBReduced (f : Nat) (x y z : Nat) : Triple Nat :=
  if z = 0 then binaryInfinity
  else ⟨fieldMul f x (fieldInv f z), fieldMul f y (fieldSq f (fieldInv f z)), 1⟩

/-- `normB((x, y, z), f)` (43_binary_points.md R231). -/
def normB (t : Triple Word) (f : Nat) : Triple Nat :=
  normBReduced f (prem t.x.toNat f) (prem t.y.toNat f) (prem t.z.toNat f)

/-- The x of the doubling of `addB`, x3 = x1² + b·w with w = 1/x1² (43_binary_points.md R232). -/
def doubleBX (f b x1 : Nat) : Nat :=
  fieldSq f x1 ^^^ fieldMul f b (fieldInv f (fieldSq f x1))

/-- The y of the doubling of `addB`, y3 = b·w + x3·(a + (y1² + b)·w) (43_binary_points.md R232). -/
def doubleBY (f a b x1 y1 x3 : Nat) : Nat :=
  fieldMul f b (fieldInv f (fieldSq f x1))
    ^^^ fieldMul f x3 (a ^^^ fieldMul f (fieldSq f y1 ^^^ b) (fieldInv f (fieldSq f x1)))

/-- The doubling of `addB`, the b-form of Lopez-Dahab, for x1 ≠ 0 (43_binary_points.md R232). -/
def doubleB (f a b x1 y1 : Nat) : Triple Nat :=
  ⟨doubleBX f b x1, doubleBY f a b x1 y1 (doubleBX f b x1), 1⟩

/-- The chord slope of `addB` (43_binary_points.md R232). -/
def chordB (f x1 y1 x2 y2 : Nat) : Nat := fieldMul f (y1 ^^^ y2) (fieldInv f (x1 ^^^ x2))

/-- The x of the chord sum of `addB`, x3 = λ² + λ + x1 + x2 + a (43_binary_points.md R232). -/
def chordBX (f a lam x1 x2 : Nat) : Nat := fieldSq f lam ^^^ lam ^^^ x1 ^^^ x2 ^^^ a

/-- The chord sum of `addB` with slope `lam` (43_binary_points.md R232). -/
def lineSumB (f a lam x1 y1 x2 : Nat) : Triple Nat :=
  ⟨chordBX f a lam x1 x2,
   fieldMul f lam (x1 ^^^ chordBX f a lam x1 x2) ^^^ chordBX f a lam x1 x2 ^^^ y1, 1⟩

/-- `addB(P1, P2)` for an irreducible f, reduced coefficients a, b and normalized points (43_binary_points.md R232). -/
def addB (f a b : Nat) (p1 p2 : Triple Nat) : Triple Nat :=
  if p1 = binaryInfinity then p2
  else if p2 = binaryInfinity then p1
  else if p1.x = p2.x then
    if p1.y = p2.y ∧ p1.x ≠ 0 then doubleB f a b p1.x p1.y else binaryInfinity
  else lineSumB f a (chordB f p1.x p1.y p2.x p2.y) p1.x p1.y p2.x

/-- A draw from NORMB(f) (43_binary_points.md R235): the infinity, or any (x, y, 1) of degrees below m. Log 4. -/
def drawNormB (draw : Nat → Nat) (f : Nat) : Triple Nat :=
  if draw 0 % 2 = 0 then binaryInfinity
  else ⟨draw 1 % 2 ^ fieldDegree f, draw 2 % 2 ^ fieldDegree f, 1⟩

/-- The point sum of BADD (43_binary_points.md R234): addB for an irreducible f, a draw otherwise (R235). -/
def baddPoint (draw : Nat → Nat) (f a b : Nat) (p1 p2 : Triple Nat) : Triple Nat :=
  if irreducible f then addB f a b p1 p2 else drawNormB draw f

/-- The scalar multiple of BSMUL (43_binary_points.md R236): double-and-add for an irreducible f, a draw otherwise. -/
def bsmulPoint (draw : Nat → Nat) (f a b k : Nat) (q : Triple Nat) : Triple Nat :=
  if irreducible f then binaryPower (addB f a b) binaryInfinity q k else drawNormB draw f

/-- BNORM (43_binary_points.md R231). -/
def bnormRule (x : Regs) (rd rs1 : Reg) : RuleOutcome :=
  withTripleBases [rd, rs1] <|
    withFieldModulus x fun f => pointResult binaryInfinity rd (normB (x.triple rs1) f)

/-- BADD (43_binary_points.md R234). -/
def baddRule (x : Regs) (draw : Nat → Nat) (rd rs1 rs2 : Reg) : RuleOutcome :=
  withTripleBases [rd, rs1, rs2] <|
    withFieldModulus x fun f =>
      pointResult binaryInfinity rd
        (baddPoint draw f (prem x.ca.toNat f) (prem x.cb.toNat f) (normB (x.triple rs1) f) (normB (x.triple rs2) f))

/-- BSMUL (43_binary_points.md R236). -/
def bsmulRule (x : Regs) (draw : Nat → Nat) (rd rs1 rs2 : Reg) : RuleOutcome :=
  withTripleBases [rd, rs1] <|
    withFieldModulus x fun f =>
      withNonneg (x.read rs2) fun k =>
        pointResult binaryInfinity rd
          (bsmulPoint draw f (prem x.ca.toNat f) (prem x.cb.toNat f) k (normB (x.triple rs1) f))

/-- BNORM (43_binary_points.md R231) as a completion. -/
def execBnorm (rd rs1 : Reg) (s : State) : Host.Outcome State Fault Refusal :=
  runRule (fun x _ => bnormRule x rd rs1) s

/-- BADD (43_binary_points.md R234) as a completion. -/
def execBadd (rd rs1 rs2 : Reg) (s : State) : Host.Outcome State Fault Refusal :=
  runRule (fun x draw => baddRule x draw rd rs1 rs2) s

/-- BSMUL (43_binary_points.md R236) as a completion. -/
def execBsmul (rd rs1 rs2 : Reg) (s : State) : Host.Outcome State Fault Refusal :=
  runRule (fun x draw => bsmulRule x draw rd rs1 rs2) s

end Sys2Proof.Machine
end

