-- ==== Sys2Proof/Machine/Modular.lean ====
section
/-! DEFINITION. The modular integer commands (40_modular.md). A command has a rule, on the launch snapshot `x` and its
draws, and a meaning, which runs the rule as the command's completion. -/

namespace Sys2Proof.Machine

/-- MULMOD (40_modular.md R122): the exact product mod p. -/
def mulmodRule (x : Regs) (rd rs1 rs2 : Reg) : RuleOutcome :=
  withModulus x fun p =>
    plainResult rd (BitVec.ofNat 64 (residue (x.read rs1) p * residue (x.read rs2) p % p))

/-- EXPMOD (40_modular.md R123): a^e mod p, a^0 = 1. -/
def expmodRule (x : Regs) (rd rs1 rs2 : Reg) : RuleOutcome :=
  withModulus x fun p =>
    withNonneg (x.read rs2) fun e =>
      plainResult rd (BitVec.ofNat 64 (powMod (residue (x.read rs1) p) e p))

/-- INVMOD (40_modular.md R124): a^(p-2) mod p, or the sentinel -1 for a zero residue. -/
def invmodRule (x : Regs) (rd rs1 : Reg) : RuleOutcome :=
  withModulus x fun p =>
    if residue (x.read rs1) p = 0 then minusOneResult rd
    else plainResult rd (BitVec.ofNat 64 (powMod (residue (x.read rs1) p) (p - 2) p))

/-- JACOBI (40_modular.md R125): the Jacobi symbol for an odd modulus n ≥ 1. -/
def jacobiRule (x : Regs) (rd rs1 : Reg) : RuleOutcome :=
  if x.modp.toInt < 1 ∨ x.modp.toInt % 2 = 0 then .error .domain
  else plainResult rd (BitVec.ofInt 64 (jac (x.read rs1).toInt x.modp.toInt.toNat))

/-- The drawn outcome of SQRTMOD for a composite modulus (40_modular.md R128): a root, as min(s, p - s), or none for
NOROOT. The draw is a candidate, which is checked before it is used (R131). Log 4. -/
def drawRoot (draw : Nat → Nat) (a p : Nat) : Option Nat :=
  if (draw 0 % p) * (draw 0 % p) % p = a then some (min (draw 0 % p) (p - draw 0 % p)) else none

/-- The value or the error of SQRTMOD for a residue a mod p ≥ 2 (40_modular.md R126). -/
def sqrtOutcome (draw : Nat → Nat) (p a : Nat) : Except ErrCode Nat :=
  if p = 2 then .ok a
  else if p % 2 = 0 then .error .domain
  else if isPerfectSquare p then .error .domain
  else if a = 0 then .ok 0
  else if jac a p ≠ 1 then .error .nonresidue
  else if isPrime p then .ok (rootMin a p)
  else
    match drawRoot draw a p with
    | some r => .ok r
    | none => .error .noroot

/-- SQRTMOD (40_modular.md R126). -/
def sqrtmodRule (x : Regs) (draw : Nat → Nat) (rd rs1 : Reg) : RuleOutcome :=
  withModulus x fun p =>
    match sqrtOutcome draw p (residue (x.read rs1) p) with
    | .ok r => plainResult rd (BitVec.ofNat 64 r)
    | .error code => .error code

/-- The i-th witness of ISPRIME, a draw from [2, n - 2] (40_modular.md R132). Log 4. -/
def witness (draw : Nat → Nat) (n i : Nat) : Nat := 2 + draw i % (n - 3)

/-- Do the 50 drawn witnesses all pass for an odd n ≥ 5 (40_modular.md R132)? -/
def allRoundsPass (draw : Nat → Nat) (n : Nat) : Bool :=
  (List.range Config.mrRounds).all fun i =>
    mrPass n (splitTwos (n - 1)).2 (splitTwos (n - 1)).1 (witness draw n i)

/-- The result of ISPRIME for the integer n (40_modular.md R132). -/
def primeVerdict (draw : Nat → Nat) (n : Int) : Bool :=
  if n < 2 then false
  else if n = 2 ∨ n = 3 then true
  else if n % 2 = 0 then false
  else allRoundsPass draw n.toNat

/-- ISPRIME (40_modular.md R132): reads no context register and raises no error. -/
def isprimeRule (x : Regs) (draw : Nat → Nat) (rd rs1 : Reg) : RuleOutcome :=
  boolResult rd (primeVerdict draw (x.read rs1).toInt)

/-- The condition 4a³ + 27b² mod p ≠ 0 of CVALID, evaluated exactly (40_modular.md R135). -/
def curveIsValid (a b p : Nat) : Bool := (4 * a * a * a + 27 * b * b) % p != 0

/-- CVALID (40_modular.md R135). -/
def cvalidRule (x : Regs) (rd : Reg) : RuleOutcome :=
  withModulus x fun p => boolResult rd (curveIsValid (residue x.ca p) (residue x.cb p) p)

/-- MULMOD (40_modular.md R122) as a completion. -/
def execMulmod (rd rs1 rs2 : Reg) (s : State) : Host.Outcome State Fault Refusal :=
  runRule (fun x _ => mulmodRule x rd rs1 rs2) s

/-- EXPMOD (40_modular.md R123) as a completion. -/
def execExpmod (rd rs1 rs2 : Reg) (s : State) : Host.Outcome State Fault Refusal :=
  runRule (fun x _ => expmodRule x rd rs1 rs2) s

/-- INVMOD (40_modular.md R124) as a completion. -/
def execInvmod (rd rs1 : Reg) (s : State) : Host.Outcome State Fault Refusal :=
  runRule (fun x _ => invmodRule x rd rs1) s

/-- JACOBI (40_modular.md R125) as a completion. -/
def execJacobi (rd rs1 : Reg) (s : State) : Host.Outcome State Fault Refusal :=
  runRule (fun x _ => jacobiRule x rd rs1) s

/-- SQRTMOD (40_modular.md R126) as a completion. -/
def execSqrtmod (rd rs1 : Reg) (s : State) : Host.Outcome State Fault Refusal :=
  runRule (fun x draw => sqrtmodRule x draw rd rs1) s

/-- ISPRIME (40_modular.md R132) as a completion. -/
def execIsprime (rd rs1 : Reg) (s : State) : Host.Outcome State Fault Refusal :=
  runRule (fun x draw => isprimeRule x draw rd rs1) s

/-- CVALID (40_modular.md R135) as a completion. -/
def execCvalid (rd : Reg) (s : State) : Host.Outcome State Fault Refusal :=
  runRule (fun x _ => cvalidRule x rd) s

end Sys2Proof.Machine
end

