-- ==== Sys2Proof/Machine/Polynomials.lean ====
section
/-! DEFINITION. The GF(2) polynomial commands (42_gf2_poly.md). -/

namespace Sys2Proof.Machine

/-- GADD (42_gf2_poly.md R192): exclusive or. -/
def gaddRule (x : Regs) (rd rs1 rs2 : Reg) : RuleOutcome := plainResult rd (x.read rs1 ^^^ x.read rs2)

/-- The polynomial `a` shifted by z^s in 64 bits, or OVERFLOW (42_gf2_poly.md R193, R195). -/
def shiftPoly (a s : Nat) : Except ErrCode Nat :=
  if a = 0 then .ok 0 else if 63 < deg a + s then .error .overflow else .ok (a <<< s)

/-- GSHL (42_gf2_poly.md R193): DOMAIN for a negative shift, then OVERFLOW. -/
def gshlRule (x : Regs) (rd rs1 rs2 : Reg) : RuleOutcome :=
  withNonneg (x.read rs2) fun s =>
    match shiftPoly (x.read rs1).toNat s with
    | .ok r => plainResult rd (BitVec.ofNat 64 r)
    | .error code => .error code

/-- GMUL (42_gf2_poly.md R194): the exact product, or OVERFLOW above degree 63 (R195). -/
def gmulRule (x : Regs) (rd rs1 rs2 : Reg) : RuleOutcome :=
  if 63 < deg (clmul (x.read rs1).toNat (x.read rs2).toNat) then .error .overflow
  else plainResult rd (BitVec.ofNat 64 (clmul (x.read rs1).toNat (x.read rs2).toNat))

/-- GMOD (42_gf2_poly.md R196): the remainder by any nonzero polynomial. -/
def gmodRule (x : Regs) (rd rs1 rs2 : Reg) : RuleOutcome :=
  if x.read rs2 = 0 then .error .domain
  else plainResult rd (BitVec.ofNat 64 (prem (x.read rs1).toNat (x.read rs2).toNat))

/-- GDEG (42_gf2_poly.md R197): the degree, or the sentinel -1 for the zero polynomial. -/
def gdegRule (x : Regs) (rd rs1 : Reg) : RuleOutcome :=
  if x.read rs1 = 0 then minusOneResult rd
  else plainResult rd (BitVec.ofInt 64 (deg (x.read rs1).toNat))

/-- GMULM (42_gf2_poly.md R198): the product reduced mod f. -/
def gmulmRule (x : Regs) (rd rs1 rs2 : Reg) : RuleOutcome :=
  withFieldModulus x fun f =>
    plainResult rd (BitVec.ofNat 64 (fieldMul f (x.read rs1).toNat (x.read rs2).toNat))

/-- GEXP (42_gf2_poly.md R199): A^k mod f, A^0 = 1. -/
def gexpRule (x : Regs) (rd rs1 rs2 : Reg) : RuleOutcome :=
  withFieldModulus x fun f =>
    withNonneg (x.read rs2) fun k =>
      plainResult rd (BitVec.ofNat 64 (polyPowMod (prem (x.read rs1).toNat f) k f))

/-- GINV (42_gf2_poly.md R200): A^(2^m - 2) mod f; "no value" for a zero element, which writes nothing. -/
def ginvRule (x : Regs) (rd rs1 : Reg) : RuleOutcome :=
  withFieldModulus x fun f =>
    if prem (x.read rs1).toNat f = 0 then noValueResult
    else plainResult rd (BitVec.ofNat 64 (fieldInv f (prem (x.read rs1).toNat f)))

/-- GSQRT (42_gf2_poly.md R201): A^(2^(m-1)) mod f. -/
def gsqrtRule (x : Regs) (rd rs1 : Reg) : RuleOutcome :=
  withFieldModulus x fun f =>
    plainResult rd (BitVec.ofNat 64 (polyPowMod (prem (x.read rs1).toNat f) (2 ^ (fieldDegree f - 1)) f))

/-- GADD (42_gf2_poly.md R192) as a completion. -/
def execGadd (rd rs1 rs2 : Reg) (s : State) : Host.Outcome State Fault Refusal :=
  runRule (fun x _ => gaddRule x rd rs1 rs2) s

/-- GSHL (42_gf2_poly.md R193) as a completion. -/
def execGshl (rd rs1 rs2 : Reg) (s : State) : Host.Outcome State Fault Refusal :=
  runRule (fun x _ => gshlRule x rd rs1 rs2) s

/-- GMUL (42_gf2_poly.md R194) as a completion. -/
def execGmul (rd rs1 rs2 : Reg) (s : State) : Host.Outcome State Fault Refusal :=
  runRule (fun x _ => gmulRule x rd rs1 rs2) s

/-- GMOD (42_gf2_poly.md R196) as a completion. -/
def execGmod (rd rs1 rs2 : Reg) (s : State) : Host.Outcome State Fault Refusal :=
  runRule (fun x _ => gmodRule x rd rs1 rs2) s

/-- GDEG (42_gf2_poly.md R197) as a completion. -/
def execGdeg (rd rs1 : Reg) (s : State) : Host.Outcome State Fault Refusal :=
  runRule (fun x _ => gdegRule x rd rs1) s

/-- GMULM (42_gf2_poly.md R198) as a completion. -/
def execGmulm (rd rs1 rs2 : Reg) (s : State) : Host.Outcome State Fault Refusal :=
  runRule (fun x _ => gmulmRule x rd rs1 rs2) s

/-- GEXP (42_gf2_poly.md R199) as a completion. -/
def execGexp (rd rs1 rs2 : Reg) (s : State) : Host.Outcome State Fault Refusal :=
  runRule (fun x _ => gexpRule x rd rs1 rs2) s

/-- GINV (42_gf2_poly.md R200) as a completion. -/
def execGinv (rd rs1 : Reg) (s : State) : Host.Outcome State Fault Refusal :=
  runRule (fun x _ => ginvRule x rd rs1) s

/-- GSQRT (42_gf2_poly.md R201) as a completion. -/
def execGsqrt (rd rs1 : Reg) (s : State) : Host.Outcome State Fault Refusal :=
  runRule (fun x _ => gsqrtRule x rd rs1) s

end Sys2Proof.Machine
end

