-- ==== Sys2Proof/Machine/PrimePoints.lean ====
section
/-! DEFINITION. The prime-field point commands (41_prime_points.md). -/

namespace Sys2Proof.Machine

/-- The canonical infinity of a prime field, (0, 1, 0) (10_state.md R32). -/
def primeInfinity : Triple Nat := ⟨0, 1, 0⟩

/-- `normP` on coordinates already reduced mod p (41_prime_points.md R160): z is set to 1 explicitly. -/
def normPReduced (p : Nat) (x y z : Nat) : Triple Nat :=
  if z = 0 then primeInfinity else ⟨x * powMod z (p - 2) p % p, y * powMod z (p - 2) p % p, 1⟩

/-- `normP(T, p)` (41_prime_points.md R160). -/
def normP (t : Triple Word) (p : Nat) : Triple Nat :=
  normPReduced p (residue t.x p) (residue t.y p) (residue t.z p)

/-- The third point on the line of slope `lam` through (x1, y1) and a point with abscissa x2, negated: the last three
lines of `addP` (41_prime_points.md R162). -/
def lineSumP (p lam x1 y1 x2 : Nat) : Triple Nat :=
  ⟨fmod ((lam : Int) * lam - x1 - x2) p,
   fmod ((lam : Int) * ((x1 : Int) - fmod ((lam : Int) * lam - x1 - x2) p) - y1) p, 1⟩

/-- The tangent slope of `addP` (41_prime_points.md R162). -/
def tangentP (p a x1 y1 : Nat) : Nat := fmod ((3 * x1 * x1 + a : Int) * invMod (2 * y1) p) p

/-- The chord slope of `addP` (41_prime_points.md R162). -/
def chordP (p x1 y1 x2 y2 : Nat) : Nat := fmod (((y2 : Int) - y1) * invMod ((x2 : Int) - x1) p) p

/-- `addP(P1, P2)` for a prime p, a reduced coefficient a and normalized points (41_prime_points.md R162). -/
def addP (p a : Nat) (p1 p2 : Triple Nat) : Triple Nat :=
  if p1 = primeInfinity then p2
  else if p2 = primeInfinity then p1
  else if p1.x = p2.x then
    if p1.y = p2.y ∧ 2 * p1.y % p ≠ 0 then lineSumP p (tangentP p a p1.x p1.y) p1.x p1.y p2.x
    else primeInfinity
  else lineSumP p (chordP p p1.x p1.y p2.x p2.y) p1.x p1.y p2.x

/-- A draw from NORMP(p) (41_prime_points.md R165): the infinity, or any (x, y, 1) with x, y < p. Log 4. -/
def drawNormP (draw : Nat → Nat) (p : Nat) : Triple Nat :=
  if draw 0 % 2 = 0 then primeInfinity else ⟨draw 1 % p, draw 2 % p, 1⟩

/-- The point sum of PADD (41_prime_points.md R164): addP for a prime p, a draw otherwise (R165). -/
def paddPoint (draw : Nat → Nat) (p a : Nat) (p1 p2 : Triple Nat) : Triple Nat :=
  if isPrime p then addP p a p1 p2 else drawNormP draw p

/-- The scalar multiple of PSMUL (41_prime_points.md R166): double-and-add for a prime p, a draw otherwise (R165). -/
def psmulPoint (draw : Nat → Nat) (p a k : Nat) (q : Triple Nat) : Triple Nat :=
  if isPrime p then binaryPower (addP p a) primeInfinity q k else drawNormP draw p

/-- PNORM (41_prime_points.md R161). -/
def pnormRule (x : Regs) (rd rs1 : Reg) : RuleOutcome :=
  withTripleBases [rd, rs1] <|
    withModulus x fun p => pointResult primeInfinity rd (normP (x.triple rs1) p)

/-- PADD (41_prime_points.md R164); CB is not read (R163). -/
def paddRule (x : Regs) (draw : Nat → Nat) (rd rs1 rs2 : Reg) : RuleOutcome :=
  withTripleBases [rd, rs1, rs2] <|
    withModulus x fun p =>
      pointResult primeInfinity rd
        (paddPoint draw p (residue x.ca p) (normP (x.triple rs1) p) (normP (x.triple rs2) p))

/-- PSMUL (41_prime_points.md R166). -/
def psmulRule (x : Regs) (draw : Nat → Nat) (rd rs1 rs2 : Reg) : RuleOutcome :=
  withTripleBases [rd, rs1] <|
    withModulus x fun p =>
      withNonneg (x.read rs2) fun k =>
        pointResult primeInfinity rd (psmulPoint draw p (residue x.ca p) k (normP (x.triple rs1) p))

/-- PEQ (41_prime_points.md R168): a bitwise compare of two triples; no context register is read. -/
def peqRule (x : Regs) (rd rs1 rs2 : Reg) : RuleOutcome :=
  withTripleBases [rs1, rs2] <| boolResult rd (decide (x.triple rs1 = x.triple rs2))

/-- PNORM (41_prime_points.md R161) as a completion. -/
def execPnorm (rd rs1 : Reg) (s : State) : Host.Outcome State Fault Refusal :=
  runRule (fun x _ => pnormRule x rd rs1) s

/-- PADD (41_prime_points.md R164) as a completion. -/
def execPadd (rd rs1 rs2 : Reg) (s : State) : Host.Outcome State Fault Refusal :=
  runRule (fun x draw => paddRule x draw rd rs1 rs2) s

/-- PSMUL (41_prime_points.md R166) as a completion. -/
def execPsmul (rd rs1 rs2 : Reg) (s : State) : Host.Outcome State Fault Refusal :=
  runRule (fun x draw => psmulRule x draw rd rs1 rs2) s

/-- PEQ (41_prime_points.md R168) as a completion. -/
def execPeq (rd rs1 rs2 : Reg) (s : State) : Host.Outcome State Fault Refusal :=
  runRule (fun x _ => peqRule x rd rs1 rs2) s

end Sys2Proof.Machine
end

