-- ==== Sys2Proof/Machine/Dispatch.lean ====
section
/-! DEFINITION. exec: one arm per command (30_encoding.md R94). Running a command is its completion
(60_exceptions.md R262). -/

namespace Sys2Proof.Machine

def exec (i : Instr) (s : State) : Host.Outcome State Fault Refusal :=
  match i with
  | .mulmod rd rs1 rs2 => Sys2Proof.Machine.execMulmod rd rs1 rs2 s
  | .expmod rd rs1 rs2 => Sys2Proof.Machine.execExpmod rd rs1 rs2 s
  | .invmod rd rs1 => Sys2Proof.Machine.execInvmod rd rs1 s
  | .jacobi rd rs1 => Sys2Proof.Machine.execJacobi rd rs1 s
  | .sqrtmod rd rs1 => Sys2Proof.Machine.execSqrtmod rd rs1 s
  | .isprime rd rs1 => Sys2Proof.Machine.execIsprime rd rs1 s
  | .cvalid rd => Sys2Proof.Machine.execCvalid rd s
  | .pnorm rd rs1 => Sys2Proof.Machine.execPnorm rd rs1 s
  | .padd rd rs1 rs2 => Sys2Proof.Machine.execPadd rd rs1 rs2 s
  | .psmul rd rs1 rs2 => Sys2Proof.Machine.execPsmul rd rs1 rs2 s
  | .peq rd rs1 rs2 => Sys2Proof.Machine.execPeq rd rs1 rs2 s
  | .gadd rd rs1 rs2 => Sys2Proof.Machine.execGadd rd rs1 rs2 s
  | .gshl rd rs1 rs2 => Sys2Proof.Machine.execGshl rd rs1 rs2 s
  | .gmul rd rs1 rs2 => Sys2Proof.Machine.execGmul rd rs1 rs2 s
  | .gmod rd rs1 rs2 => Sys2Proof.Machine.execGmod rd rs1 rs2 s
  | .gdeg rd rs1 => Sys2Proof.Machine.execGdeg rd rs1 s
  | .gmulm rd rs1 rs2 => Sys2Proof.Machine.execGmulm rd rs1 rs2 s
  | .gexp rd rs1 rs2 => Sys2Proof.Machine.execGexp rd rs1 rs2 s
  | .ginv rd rs1 => Sys2Proof.Machine.execGinv rd rs1 s
  | .gsqrt rd rs1 => Sys2Proof.Machine.execGsqrt rd rs1 s
  | .bnorm rd rs1 => Sys2Proof.Machine.execBnorm rd rs1 s
  | .badd rd rs1 rs2 => Sys2Proof.Machine.execBadd rd rs1 rs2 s
  | .bsmul rd rs1 rs2 => Sys2Proof.Machine.execBsmul rd rs1 rs2 s

end Sys2Proof.Machine
end

