-- ==== Sys2Proof/Machine/Step.lean ====
section
/-! DEFINITION. One step of the block: the next event that reaches it (20_memory.md R72, 60_exceptions.md R267). -/

namespace Sys2Proof.Machine

/-- The engine's completion of the latched word (60_exceptions.md R262): ILLEGAL if it does not decode (R263). -/
def completeLatched (s : State) : Host.Outcome State Fault Refusal :=
  match decode s.cmd with
  | .ok i => exec i s
  | .error _ => .next (s.errorComplete .illegal)

/-- The completion as a scheduled event: not enabled while the engine is idle, and then nothing happens
(60_exceptions.md R262, R267). -/
def engineStep (s : State) : Host.Outcome State Fault Refusal :=
  if s.isBusy then completeLatched s else .next s

/-- The atomic step of one event (60_exceptions.md R267). -/
def takeEvent (e : Event) (s : State) : Host.Outcome State Fault Refusal :=
  match e with
  | .hostRead off width => .next (s.hostRead off width)
  | .hostWrite off width v => .next (s.hostWrite off width v)
  | .completion => engineStep s
  | .hardReset => .next s.resetBlock

/-- One step: the first event of `inputs`; with none left, the engine completes a command in flight, and an idle block
stays as it is (20_memory.md R72, 70_reset_and_hazards.md R331). Log 1. -/
def step (s : State) : Host.Outcome State Fault Refusal :=
  match s.inputs with
  | [] => engineStep s
  | e :: rest => takeEvent e { s with inputs := rest }

/-- The state right after the launch of the table word `w`, with the engine's completion as the very next event: the
next step runs exactly that command (log 11). -/
def State.withFetchWord (s : State) (nbits w : Nat) : State :=
  { s.launch (tableWord nbits w) with inputs := .completion :: s.inputs }

end Sys2Proof.Machine
end

