-- ==== Sys2Proof/Machine/Assembler.lean ====
section
/-! DEFINITION. The assembler's notation (30_encoding.md R110 to R112) and the host lines of a program (R113). Text is a
list of characters; what R110 leaves open about it is DESIGN CHOICE, log 17. None of it is part of a step: an assembled word reaches the block by a CMD write. -/

namespace Sys2Proof.Machine

/-- The pseudo-instructions and their expansions (30_encoding.md R112). -/
def expandPseudo (mnemonic : String) (operands : List Nat) : String × List Nat :=
  match mnemonic, operands with
  | "SQRMOD", [rd, rs] => ("MULMOD", [rd, rs, rs])
  | "PDBL", [rd, rs] => ("PADD", [rd, rs, rs])
  | "BDBL", [rd, rs] => ("BADD", [rd, rs, rs])
  | "GSQR", [rd, rs] => ("GMULM", [rd, rs, rs])
  | "BEQ", ops => ("PEQ", ops)
  | m, ops => (m, ops)

/-- The three field values of written operands: one operand per field that is not of kind `0`, a register number at
most 31, a triple base at most 29, none missing and none extra (30_encoding.md R110, R111). -/
def placeOperands : List FieldKind → List Nat → Option (List Reg)
  | [], [] => some []
  | [], _ :: _ => none
  | .unused :: kinds, ops => (placeOperands kinds ops).map (fun rs => (0 : Reg) :: rs)
  | .reg :: kinds, n :: ops =>
    if n ≤ 31 then (placeOperands kinds ops).map (fun rs => Fin.ofNat 32 n :: rs) else none
  | .triple :: kinds, n :: ops =>
    if n ≤ 29 then (placeOperands kinds ops).map (fun rs => Fin.ofNat 32 n :: rs) else none
  | _ :: _, [] => none

/-- The command of a row and its written operands. -/
def buildFromRow (row : OpcodeRow) (operands : List Nat) : Option Instr :=
  match placeOperands [row.rd, row.rs1, row.rs2] operands with
  | some [rd, rs1, rs2] => some (row.build rd rs1 rs2)
  | _ => none

/-- The word of a command written as a mnemonic and its register numbers, or a refusal (30_encoding.md R110, R111). -/
def assemble (mnemonic : String) (operands : List Nat) : Option Word :=
  match opcodeMap.find? (fun row => row.mnemonic == (expandPseudo mnemonic operands).1) with
  | none => none
  | some row => (buildFromRow row (expandPseudo mnemonic operands).2).map encode

/-- The characters before a comment (30_encoding.md R110: a comment starts with `;`). -/
def dropComment : List Char → List Char
  | [] => []
  | c :: cs => if c = ';' then [] else c :: dropComment cs

/-- The words of a line: maximal runs of characters that are neither a space nor a comma (30_encoding.md R110).
DESIGN CHOICE (log 17): a comma and a space separate alike, in any number, and no other character does, a tab neither. -/
def splitWords : List Char → List Char → List (List Char)
  | cur, [] => if cur = [] then [] else [cur.reverse]
  | cur, c :: cs =>
    if c = ' ' ∨ c = ',' then (if cur = [] then splitWords [] cs else cur.reverse :: splitWords [] cs)
    else splitWords (c :: cur) cs

/-- A decimal number, from the value read so far. DESIGN CHOICE (log 17): leading zeros are accepted. -/
def readNumber : Nat → List Char → Option Nat
  | n, [] => some n
  | n, c :: cs => if '0' ≤ c ∧ c ≤ '9' then readNumber (10 * n + (c.toNat - '0'.toNat)) cs else none

/-- A register `dN`, in either case of the letter (30_encoding.md R110). DESIGN CHOICE (log 17): N may be written with
leading zeros, so `d07` spells D7 (10_state.md R24 names d0 to d31 and does not give the digits' form). -/
def readRegister : List Char → Option Nat
  | [] => none
  | [_] => none
  | d :: digit :: digits => if d = 'd' ∨ d = 'D' then readNumber 0 (digit :: digits) else none

/-- The word of one assembler line `MNEMONIC dN, dN, dN` (30_encoding.md R110, R111). DESIGN CHOICE (log 17): the mnemonic
is taken in capitals only, as R94 and R112 write it. -/
def assembleLine (line : List Char) : Option Word :=
  match splitWords [] (dropComment line) with
  | [] => none
  | mnemonic :: operands =>
    match operands.mapM readRegister with
    | none => none
    | some ops => assemble (String.ofList mnemonic) ops

/-- A line of a host sequence (30_encoding.md R113). -/
inductive HostLine where
  | wr (r : WindowReg) (v : Word)
  | rd (r : WindowReg)
  | wait
  | exec (word : Word)
  | clrdone
deriving DecidableEq, Repr

/-- The events a host line stands for (30_encoding.md R113). WAIT polls STATUS until BUSY = 0: in a finite sequence of
events, the completion comes and then the poll that sees it (log 1). -/
def HostLine.events : HostLine → List Event
  | .wr r v => [.hostWrite r.offset 8 v]
  | .rd r => [.hostRead r.offset 8]
  | .wait => [.completion, .hostRead (WindowReg.offset .status) 8]
  | .exec word => [.hostWrite (WindowReg.offset .cmd) 8 word, .completion, .hostRead (WindowReg.offset .status) 8]
  | .clrdone => [.hostWrite (WindowReg.offset .status) 8 2]

end Sys2Proof.Machine
end

