-- ==== Sys2Proof/Safety.lean ====
section
/-! DEFINITION. The terms in which claims about the machine are made: what a completion leaves (10_state.md R53,
60_exceptions.md R262, R263), the destinations of a command, the sets a draw is taken from, and the invariant. -/

namespace Sys2Proof.Machine

/-- What every completion leaves besides the data registers, from `s` to `t` (60_exceptions.md R262, R263): BUSY = 0,
DONE = 1, the given ERR, FLAG and SENT; OVR, CTRL, CMD and the context registers as they were; and the model's own
inputs and reply as they were. -/
structure Completed (s t : State) (err : ErrCode) (flag sent : Bool) : Prop where
  engine : t.engine = .idle
  done : t.status.done = true
  err : t.status.err = err
  flag : t.status.flag = flag
  sent : t.status.sent = sent
  ovr : t.status.ovr = s.status.ovr
  irqen : t.irqen = s.irqen
  cmd : t.cmd = s.cmd
  modp : t.regs.modp = s.regs.modp
  ca : t.regs.ca = s.regs.ca
  cb : t.regs.cb = s.regs.cb
  fpoly : t.regs.fpoly = s.regs.fpoly
  inputs : t.inputs = s.inputs
  reply : t.reply = s.reply

/-- From `s` to `t` exactly the data register `rd` is written, with `v`. -/
def WritesOne (s t : State) (rd : Reg) (v : Word) : Prop :=
  t.regs.read rd = v ∧ ∀ j : Reg, j ≠ rd → t.regs.read j = s.regs.read j

/-- From `s` to `t` exactly the data registers Dk, Dk+1 and Dk+2 are written, with the given exact values. -/
def WritesTriple (s t : State) (k : Reg) (v : Triple Nat) : Prop :=
  t.regs.read k = BitVec.ofNat 64 v.x ∧ t.regs.read (regPlus k 1) = BitVec.ofNat 64 v.y ∧
  t.regs.read (regPlus k 2) = BitVec.ofNat 64 v.z ∧
  ∀ j : Reg, j ≠ k → j ≠ regPlus k 1 → j ≠ regPlus k 2 → t.regs.read j = s.regs.read j

/-- From `s` to `t` no data register is written. -/
def WritesNone (s t : State) : Prop := ∀ j : Reg, t.regs.read j = s.regs.read j

/-- The data registers a command may write (10_state.md R53, last column). -/
def destinations : Instr → List Reg
  | .mulmod rd _ _ => [rd]
  | .expmod rd _ _ => [rd]
  | .invmod rd _ => [rd]
  | .jacobi rd _ => [rd]
  | .sqrtmod rd _ => [rd]
  | .isprime rd _ => [rd]
  | .cvalid rd => [rd]
  | .pnorm rd _ => [rd, regPlus rd 1, regPlus rd 2]
  | .padd rd _ _ => [rd, regPlus rd 1, regPlus rd 2]
  | .psmul rd _ _ => [rd, regPlus rd 1, regPlus rd 2]
  | .peq rd _ _ => [rd]
  | .gadd rd _ _ => [rd]
  | .gshl rd _ _ => [rd]
  | .gmul rd _ _ => [rd]
  | .gmod rd _ _ => [rd]
  | .gdeg rd _ => [rd]
  | .gmulm rd _ _ => [rd]
  | .gexp rd _ _ => [rd]
  | .ginv rd _ => [rd]
  | .gsqrt rd _ => [rd]
  | .bnorm rd _ => [rd, regPlus rd 1, regPlus rd 2]
  | .badd rd _ _ => [rd, regPlus rd 1, regPlus rd 2]
  | .bsmul rd _ _ => [rd, regPlus rd 1, regPlus rd 2]

/-- The errors a command in flight may raise, beside ILLEGAL for a word that does not decode (60_exceptions.md R265). -/
def mayRaise : Instr → List ErrCode
  | .mulmod _ _ _ => [.domain]
  | .expmod _ _ _ => [.domain]
  | .invmod _ _ => [.domain]
  | .jacobi _ _ => [.domain]
  | .sqrtmod _ _ => [.domain, .nonresidue, .noroot]
  | .isprime _ _ => []
  | .cvalid _ => [.domain]
  | .pnorm _ _ => [.domain]
  | .padd _ _ _ => [.domain]
  | .psmul _ _ _ => [.domain]
  | .peq _ _ _ => []
  | .gadd _ _ _ => []
  | .gshl _ _ _ => [.domain, .overflow]
  | .gmul _ _ _ => [.overflow]
  | .gmod _ _ _ => [.domain]
  | .gdeg _ _ => []
  | .gmulm _ _ _ => [.domain]
  | .gexp _ _ _ => [.domain]
  | .ginv _ _ => [.domain]
  | .gsqrt _ _ => [.domain]
  | .bnorm _ _ => [.domain]
  | .badd _ _ _ => [.domain]
  | .bsmul _ _ _ => [.domain]

/-- The conditions (a) to (d) of 30_encoding.md R95, read off a word as a number: bits 63:23, OP = bits 7:0, RD = bits
12:8, RS1 = bits 17:13, RS2 = bits 22:18, against the opcode map of R94. -/
def IsIllegalWord (w : Word) : Prop :=
  w.toNat / 2 ^ 23 ≠ 0 ∨
  w.toNat % 256 ∉ [0x01, 0x02, 0x03, 0x04, 0x05, 0x06, 0x07, 0x10, 0x11, 0x12, 0x13, 0x20, 0x21, 0x22, 0x23, 0x24,
    0x25, 0x26, 0x27, 0x28, 0x30, 0x31, 0x32] ∨
  (w.toNat % 256 ∈ [0x03, 0x04, 0x05, 0x06, 0x07, 0x10, 0x24, 0x27, 0x28, 0x30] ∧ w.toNat / 2 ^ 18 % 32 ≠ 0) ∨
  (w.toNat % 256 = 0x07 ∧ w.toNat / 2 ^ 13 % 32 ≠ 0) ∨
  (w.toNat % 256 ∈ [0x10, 0x11, 0x12, 0x30, 0x31, 0x32] ∧ 29 < w.toNat / 2 ^ 8 % 32) ∨
  (w.toNat % 256 ∈ [0x10, 0x11, 0x12, 0x13, 0x30, 0x31, 0x32] ∧ 29 < w.toNat / 2 ^ 13 % 32) ∨
  (w.toNat % 256 ∈ [0x11, 0x13, 0x31] ∧ 29 < w.toNat / 2 ^ 18 % 32)

/-- A normalized prime-field triple, the set NORMP(p) (41_prime_points.md R165). -/
def NormalizedP (p : Nat) (t : Triple Nat) : Prop := t = ⟨0, 1, 0⟩ ∨ (t.x < p ∧ t.y < p ∧ t.z = 1)

/-- A normalized binary-field triple, the set NORMB(f) (43_binary_points.md R235). -/
def NormalizedB (f : Nat) (t : Triple Nat) : Prop :=
  t = ⟨1, 0, 0⟩ ∨ (deg t.x < deg f ∧ deg t.y < deg f ∧ t.z = 1)

/-- The set ROOTS(a, p) (40_modular.md R128). -/
def IsRootChoice (a p r : Nat) : Prop := ∃ s, 0 < s ∧ s < p ∧ s * s % p = a ∧ r = min s (p - s)

/-- R is the remainder of P by M: of smaller degree, and P is a multiple of M plus R (00_scope.md R12, `prem`). -/
def IsRemainder (P M R : Nat) : Prop := deg R < deg M ∧ ∃ Q, P = clmul Q M ^^^ R

/-- The unreduced power of a polynomial, P^0 = 1 (00_scope.md R12). -/
def polyPow (P : Nat) : Nat → Nat
  | 0 => 1
  | k + 1 => clmul (polyPow P k) P

/-- (x3, y3, 1) is the sum on the line of slope `lam` through (x1, y1) and a point of abscissa x2, mod p: the last
three lines of `addP` (41_prime_points.md R162). -/
def OnLineP (p : Nat) (lam : Int) (x1 y1 x2 : Nat) (r : Triple Nat) : Prop :=
  (r.x : Int) = (lam * lam - x1 - x2) % p ∧ (r.y : Int) = (lam * (x1 - r.x) - y1) % p ∧ r.z = 1

/-- The prime-field point law as a relation between the operands and the sum (41_prime_points.md R162), with a division
`u / v` mod p read as "the slope lam with lam * v = u mod p". -/
def PointLawP (p a : Nat) (p1 p2 r : Triple Nat) : Prop :=
  (p1 = ⟨0, 1, 0⟩ → r = p2) ∧
  (p1 ≠ ⟨0, 1, 0⟩ → p2 = ⟨0, 1, 0⟩ → r = p1) ∧
  (p1 ≠ ⟨0, 1, 0⟩ → p2 ≠ ⟨0, 1, 0⟩ → p1.x = p2.x → (p1.y ≠ p2.y ∨ 2 * p1.y % p = 0) → r = ⟨0, 1, 0⟩) ∧
  (p1 ≠ ⟨0, 1, 0⟩ → p2 ≠ ⟨0, 1, 0⟩ → p1.x = p2.x → p1.y = p2.y → 2 * p1.y % p ≠ 0 →
    ∃ lam : Int, lam * (2 * p1.y) % p = (3 * p1.x * p1.x + a) % p ∧ OnLineP p lam p1.x p1.y p2.x r) ∧
  (p1 ≠ ⟨0, 1, 0⟩ → p2 ≠ ⟨0, 1, 0⟩ → p1.x ≠ p2.x →
    ∃ lam : Int, lam * ((p2.x : Int) - p1.x) % p = ((p2.y : Int) - p1.y) % p ∧ OnLineP p lam p1.x p1.y p2.x r)

/-- The binary-field point law as a relation between the operands and the sum (43_binary_points.md R232), with a division
`u / v` mod f read as "the reduced element w with w * v = u mod f". -/
def PointLawB (f a b : Nat) (p1 p2 r : Triple Nat) : Prop :=
  (p1 = ⟨1, 0, 0⟩ → r = p2) ∧
  (p1 ≠ ⟨1, 0, 0⟩ → p2 = ⟨1, 0, 0⟩ → r = p1) ∧
  (p1 ≠ ⟨1, 0, 0⟩ → p2 ≠ ⟨1, 0, 0⟩ → p1.x = p2.x → (p1.y ≠ p2.y ∨ p1.x = 0) → r = ⟨1, 0, 0⟩) ∧
  (p1 ≠ ⟨1, 0, 0⟩ → p2 ≠ ⟨1, 0, 0⟩ → p1.x = p2.x → p1.y = p2.y → p1.x ≠ 0 →
    ∃ w, deg w < deg f ∧ fieldMul f w (fieldMul f p1.x p1.x) = 1 ∧
      r.x = fieldMul f p1.x p1.x ^^^ fieldMul f b w ∧
      r.y = fieldMul f b w ^^^ fieldMul f r.x (a ^^^ fieldMul f (fieldMul f p1.y p1.y ^^^ b) w) ∧ r.z = 1) ∧
  (p1 ≠ ⟨1, 0, 0⟩ → p2 ≠ ⟨1, 0, 0⟩ → p1.x ≠ p2.x →
    ∃ lam, deg lam < deg f ∧ fieldMul f lam (p1.x ^^^ p2.x) = p1.y ^^^ p2.y ∧
      r.x = fieldMul f lam lam ^^^ lam ^^^ p1.x ^^^ p2.x ^^^ a ∧
      r.y = fieldMul f lam (p1.x ^^^ r.x) ^^^ r.x ^^^ p1.y ∧ r.z = 1)

/-- The infinity, or a solution of y² = x³ + ax + b mod p (41_prime_points.md R163). -/
def OnCurveP (p a : Nat) (b : Int) (t : Triple Nat) : Prop :=
  t = ⟨0, 1, 0⟩ ∨ ((t.y : Int) * t.y % p = ((t.x : Int) * t.x * t.x + a * t.x + b) % p ∧ t.z = 1)

/-- Double-and-add of a point by k < 2^64, least significant bit first, over an addition `add` (41_prime_points.md R166):
for each bit of k that is set, the so often doubled base is added to what has been accumulated, starting from `o`. -/
def doubleAndAdd (add : Triple Nat → Triple Nat → Triple Nat) (o q : Triple Nat) (k : Nat) : Triple Nat :=
  (List.range 64).foldl (fun r i => if k.testBit i then add r ((fun u => add u u)^[i] q) else r) o

/-- The invariant of the block, kept by every step from every state that has it. -/
structure Inv (s : State) : Prop where
  /-- while a command is in flight its snapshot equals the live registers (10_state.md R48) -/
  snapshot_live : ∀ x, s.engine = .busy x → x = s.regs
  /-- while a command is in flight DONE, FLAG, SENT and ERR are 0 (60_exceptions.md R261) -/
  busy_clear : s.isBusy = true →
    s.status.done = false ∧ s.status.flag = false ∧ s.status.sent = false ∧ s.status.err = .none
  /-- an error or an abort leaves FLAG = 0 and SENT = 0 (10_state.md R53) -/
  error_clear : s.status.err ≠ .none → s.status.flag = false ∧ s.status.sent = false
  /-- no command sets both FLAG and SENT (10_state.md R53) -/
  flag_or_sent : ¬ (s.status.flag = true ∧ s.status.sent = true)

end Sys2Proof.Machine
end

