-- ==== Sys2Proof/Certificates/Slice0/Obligations.lean ====
section
/-! DEFINITION. The statements about the model, for the provers. `s.engine = .busy x` says that a command is in flight
with launch snapshot `x` (10_state.md R48, R49); it is asked for nothing else, so `x` and the live registers are any. -/

open Sys2Proof Sys2Proof.Machine

/-! ## The command word -/

/-- Decoding the word of a well-formed command gives the command back, with every field at every value
(30_encoding.md R95, R99). -/
def Obligations.DecodeOfEncodeIsTheCommand : Prop :=
  ∀ i : Instr, i.wf = true → decode (encode i) = .ok i

/-- A word that decodes is the encoding of the command it decodes to, and that command is well formed: every legal word
has exactly one meaning (30_encoding.md R95, R99). -/
def Obligations.EncodeOfDecodeIsTheWord : Prop :=
  ∀ (w : Word) (i : Instr), decode w = .ok i → encode i = w ∧ i.wf = true

/-- The words that do not decode are exactly those of the four conditions (a) to (d) of 30_encoding.md R95; and such a word
still launches, and then completes with ERR = ILLEGAL and writes no register. -/
def Obligations.IllegalWordsLaunchAndCompleteWithIllegal : Prop :=
  ∀ w : Word, ((∃ e, decode w = .error e) ↔ IsIllegalWord w) ∧
    (IsIllegalWord w → ∀ (s : State) (rest : List Event), s.engine = .idle →
      s.inputs = .hostWrite 0x018 8 w :: .completion :: rest →
      ∃ t u, step s = .next t ∧ t.isBusy = true ∧ t.inputs = .completion :: rest ∧ step t = .next u ∧
        Completed { t with inputs := rest } u .illegal false false ∧ u.regs = s.regs ∧ u.cmd = w)

/-- Words written out from 30_encoding.md R91, R94 decode to the commands they stand for (a sanity statement). -/
def Obligations.SampleWordsDecode : Prop :=
  decode 0b00000000000000000000000000000000000000000_00001_00000_00010_00000001#64 = .ok (.mulmod 2 0 1) ∧
  decode 0b00000000000000000000000000000000000000000_00011_00000_00110_00010001#64 = .ok (.padd 6 0 3) ∧
  decode 0b00000000000000000000000000000000000000000_00000_00000_00001_00100111#64 = .ok (.ginv 1 0) ∧
  decode 0b00000000000000000000000000000000000000000_01001_00000_00011_00110010#64 = .ok (.bsmul 3 0 9)

/-- Every word the assembler emits is legal (30_encoding.md R111). -/
def Obligations.AssembledWordsAreLegal : Prop :=
  ∀ (mnemonic : String) (operands : List Nat) (w : Word), assemble mnemonic operands = some w →
    ∃ i, decode w = .ok i ∧ i.wf = true ∧ encode i = w

/-! ## Steps -/

/-- A step runs the decoded command: with a command in flight whose latched word decodes to `i`, and the completion next
(or nothing left to come), the step is the completion of `i`; the scheduled event is used up and nothing else is added
(60_exceptions.md R262). On an idle engine the completion is not enabled: the event is used up and nothing else happens
(R267). That an empty schedule lets the engine complete is the model's choice (log 1). -/
def Obligations.StepRunsTheDecodedCommand : Prop :=
  ∀ (s : State) (rest : List Event),
    (∀ (x : Regs) (i : Instr), s.engine = .busy x → decode s.cmd = .ok i →
      (s.inputs = .completion :: rest → step s = exec i { s with inputs := rest }) ∧
      (s.inputs = [] → step s = exec i s)) ∧
    (s.engine = .idle →
      (s.inputs = .completion :: rest → step s = .next { s with inputs := rest }) ∧
      (s.inputs = [] → step s = .next s))

/-- A latched word that does not decode completes with ERR = ILLEGAL and writes nothing (30_encoding.md R95,
60_exceptions.md R262, R263). -/
def Obligations.IllegalWordCompletesWithIllegal : Prop :=
  ∀ (s : State) (x : Regs) (e : IllegalWord) (rest : List Event), s.engine = .busy x → decode s.cmd = .error e →
    s.inputs = .completion :: rest →
    ∃ t, step s = .next t ∧ Completed { s with inputs := rest } t .illegal false false ∧ t.regs = s.regs

/-- No step ever stops: from every state the block goes on to a next state ("Nothing in the core is fatal",
60_exceptions.md R260). Two choices of the model bear on it: what happens with no event left is its schedule (log 1), and
that a step with SQRTMOD in flight answers builds in the fairness of the draws (70_reset_and_hazards.md R331 (b), log 5). -/
def Obligations.StepAlwaysAnswersNext : Prop :=
  ∀ s : State, ∃ t, step s = .next t

/-- Every step keeps the invariant: the snapshot of a command in flight equals the live registers (10_state.md R48), DONE,
FLAG, SENT and ERR are clear while busy (60_exceptions.md R261), an error leaves FLAG and SENT clear, and FLAG and SENT
are never both set (10_state.md R53). -/
def Obligations.StepKeepsTheInvariant : Prop :=
  ∀ s t : State, Inv s → step s = .next t → Inv t

/-- The invariant holds after reset. -/
def Obligations.ResetHasTheInvariant : Prop := Inv State.reset

/-! ## What every completion does -/

/-- The frame of all 23 commands: with a command in flight `exec` answers next, for every form; the engine is idle and
DONE is set; OVR, CTRL, CMD and the context registers keep their values; every data register that is no destination of the
command keeps its value; and if ERR is not 0, no data register is written and FLAG = SENT = 0 (60_exceptions.md R262,
R263, 10_state.md R25). Choices of the model: that SQRTMOD answers next builds in the fairness of 70_reset_and_hazards.md
R331 (b) (log 5), an ill-formed triple term completes with ILLEGAL as its word does (log 10), and the fields `inputs` and
`reply`, which `Completed` says are kept, are the model's own (logs 1 and 7). -/
def Obligations.CompletionFrameOfEveryCommand : Prop :=
  ∀ (i : Instr) (s : State) (x : Regs), s.engine = .busy x →
    ∃ t, exec i s = .next t ∧ Completed s t t.status.err t.status.flag t.status.sent ∧
      (∀ j : Reg, j ∉ destinations i → t.regs.read j = s.regs.read j) ∧
      (t.status.err ≠ .none → WritesNone s t ∧ t.status.flag = false ∧ t.status.sent = false)

/-- Every byte of the register window outside the command's destination registers and STATUS is unchanged by a
completion (20_memory.md R67, 60_exceptions.md R262). -/
def Obligations.CompletionKeepsTheOtherWindowBytes : Prop :=
  ∀ (i : Instr) (s t : State) (off : BitVec 12), exec i s = .next t →
    (∀ j ∈ destinations i, ¬ (0x100 + 8 * j.val ≤ off.toNat ∧ off.toNat < 0x100 + 8 * j.val + 8)) →
    ¬ (0x010 ≤ off.toNat ∧ off.toNat < 0x018) →
    t.windowByte off = s.windowByte off

/-- A well-formed command raises only the errors of its row in the table of codes (60_exceptions.md R265). -/
def Obligations.CommandsRaiseOnlyTheirErrors : Prop :=
  ∀ (i : Instr) (s t : State), i.wf = true → exec i s = .next t →
    t.status.err = .none ∨ t.status.err ∈ mayRaise i

/-- FLAG is set only by ISPRIME, CVALID, PEQ and the point commands, SENT only by INVMOD, GDEG and GINV (10_state.md R41,
R42, R53). -/
def Obligations.OnlyTheListedCommandsSetFlagOrSent : Prop :=
  ∀ (i : Instr) (s t : State), exec i s = .next t →
    (t.status.flag = true → (∃ rd rs1, i = .isprime rd rs1) ∨ (∃ rd, i = .cvalid rd) ∨
      (∃ rd rs1 rs2, i = .peq rd rs1 rs2) ∨ (∃ rd rs1, i = .pnorm rd rs1) ∨ (∃ rd rs1 rs2, i = .padd rd rs1 rs2) ∨
      (∃ rd rs1 rs2, i = .psmul rd rs1 rs2) ∨ (∃ rd rs1, i = .bnorm rd rs1) ∨
      (∃ rd rs1 rs2, i = .badd rd rs1 rs2) ∨ (∃ rd rs1 rs2, i = .bsmul rd rs1 rs2)) ∧
    (t.status.sent = true → (∃ rd rs1, i = .invmod rd rs1) ∨ (∃ rd rs1, i = .gdeg rd rs1) ∨
      (∃ rd rs1, i = .ginv rd rs1))

/-- Writers of Di: a step changes a data register only if it takes a host write to that register while BUSY = 0, or is the
completion of a command that names the register as a destination and raises no error, or is a reset (10_state.md R25).
That the completion may come with no event left (`s.inputs = []`) is the model's schedule (log 1). -/
def Obligations.OnlyTheListedEventsWriteADataRegister : Prop :=
  ∀ (s t : State) (j : Reg), step s = .next t → t.regs.read j ≠ s.regs.read j →
    (∃ v rest, s.engine = .idle ∧ s.inputs = .hostWrite (WindowReg.data j).offset 8 v :: rest) ∨
    (∃ x i, s.engine = .busy x ∧ decode s.cmd = .ok i ∧ j ∈ destinations i ∧ t.status.err = .none ∧
      (s.inputs = [] ∨ ∃ rest, s.inputs = .completion :: rest)) ∨
    (∃ rest, s.inputs = .hardReset :: rest) ∨
    (∃ v rest, v.getLsbD 2 = true ∧ s.inputs = .hostWrite 0x008 8 v :: rest)

/-! ## The register interface -/

/-- A CMD write while idle launches, whatever the word is: the word is latched, the snapshot is taken, BUSY is set, DONE,
ERR, FLAG and SENT are cleared, OVR, CTRL and the registers are unchanged, and the interrupt output is low. A CMD write
while busy is no launch (60_exceptions.md R261). -/
def Obligations.CommandWriteLaunches : Prop :=
  ∀ (s : State) (v : Word) (rest : List Event), s.inputs = .hostWrite 0x018 8 v :: rest →
    (s.engine = .idle → ∃ t, step s = .next t ∧ t.cmd = v ∧ t.engine = .busy s.regs ∧ t.isBusy = true ∧
      t.status.done = false ∧ t.status.err = .none ∧ t.status.flag = false ∧ t.status.sent = false ∧
      t.status.ovr = s.status.ovr ∧ t.irqen = s.irqen ∧ t.regs = s.regs ∧ t.inputs = rest ∧ t.irq = false) ∧
    (∀ x, s.engine = .busy x → ∃ t, step s = .next t ∧ t.engine = .busy x ∧ t.cmd = s.cmd ∧ t.regs = s.regs ∧
      t.irqen = s.irqen ∧ t.status = { s.status with ovr := true })

/-- While BUSY = 1 a write to CMD, MODP, CA, CB, FPOLY or any Di changes nothing but OVR, which is set, so the snapshot is
kept; writes to CTRL and STATUS are always taken (20_memory.md R68). The `reply` is the model's own field (log 7). -/
def Obligations.BusyWritesAreDropped : Prop :=
  ∀ (s : State) (x : Regs) (v : Word) (rest : List Event), s.engine = .busy x →
    (∀ r : WindowReg, (r = .cmd ∨ r = .modp ∨ r = .ca ∨ r = .cb ∨ r = .fpoly ∨ ∃ i, r = .data i) →
      s.inputs = .hostWrite r.offset 8 v :: rest →
      step s = .next { s with inputs := rest, reply := some .writeAccepted,
                              status := { s.status with ovr := true } }) ∧
    (s.inputs = .hostWrite 0x008 8 v :: rest → ∃ t, step s = .next t ∧
      t.irqen = (v.getLsbD 0 && !v.getLsbD 2) ∧ (t.engine = .idle ↔ (v.getLsbD 1 = true ∨ v.getLsbD 2 = true))) ∧
    (s.inputs = .hostWrite 0x010 8 v :: rest →
      step s = .next { s with inputs := rest, reply := some .writeAccepted,
                              status := { s.status with done := s.status.done && !v.getLsbD 1,
                                                        ovr := s.status.ovr && !v.getLsbD 4 } })

/-- While idle, a write to MODP, CA, CB, FPOLY or Di stores all 64 bits in that register and changes no other register of
the window (20_memory.md R64, 10_state.md R24). -/
def Obligations.IdleWritesStoreTheWholeRegister : Prop :=
  ∀ (s : State) (v : Word) (rest : List Event) (r : WindowReg), s.engine = .idle →
    (r = .modp ∨ r = .ca ∨ r = .cb ∨ r = .fpoly ∨ ∃ i, r = .data i) →
    s.inputs = .hostWrite r.offset 8 v :: rest →
    ∃ t, step s = .next t ∧ t.readReg r = v ∧ (∀ r', r' ≠ r → t.readReg r' = s.readReg r') ∧
      t.engine = .idle ∧ t.inputs = rest

/-- A CTRL write with bit 1 = 1 and bit 2 = 0 while busy aborts: the command is discarded, ERR = ABORTED, FLAG and SENT
are 0, DONE is set, IRQEN takes bit 0, no register is written and no draw is taken; while idle it only sets IRQEN
(60_exceptions.md R264, 10_state.md R36). "No draw" is said of the model's own counter `drawCount` (logs 2 and 3), and
`inputs` and the `reply` of the idle clause are the model's own fields (logs 1 and 7). -/
def Obligations.AbortEndsTheCommandInFlight : Prop :=
  ∀ (s : State) (v : Word) (rest : List Event), v.getLsbD 1 = true → v.getLsbD 2 = false →
    s.inputs = .hostWrite 0x008 8 v :: rest →
    ((∃ x, s.engine = .busy x) → ∃ t, step s = .next t ∧ t.engine = .idle ∧ t.status.err = .aborted ∧
      t.status.flag = false ∧ t.status.sent = false ∧ t.status.done = true ∧ t.status.ovr = s.status.ovr ∧
      t.irqen = v.getLsbD 0 ∧ t.regs = s.regs ∧ t.cmd = s.cmd ∧ t.drawCount = s.drawCount ∧ t.inputs = rest) ∧
    (s.engine = .idle →
      step s = .next { s with inputs := rest, reply := some .writeAccepted, irqen := v.getLsbD 0 })

/-- A CTRL write with bit 2 = 1 and the hardware reset have the same effect, whether or not a command is in flight and
whatever bits 0 and 1 are: every register of the window but ID reads 0, ID reads its constant, the engine is idle, DONE
is clear and the interrupt output is low (10_state.md R37, R52, 70_reset_and_hazards.md R300). State.reset is that state. -/
def Obligations.BothResetsRestoreTheResetValues : Prop :=
  (∀ (s : State) (rest : List Event),
    (s.inputs = .hardReset :: rest ∨ ∃ v : Word, v.getLsbD 2 = true ∧ s.inputs = .hostWrite 0x008 8 v :: rest) →
    ∃ t, step s = .next t ∧ (∀ r, r ≠ .id → t.readReg r = 0) ∧ t.readReg .id = 0x00000000ECC00001#64 ∧
      t.engine = .idle ∧ t.status.done = false ∧ t.irq = false ∧ t.inputs = rest) ∧
  (∀ r, r ≠ .id → State.reset.readReg r = 0) ∧ State.reset.readReg .id = 0x00000000ECC00001#64 ∧
  State.reset.engine = .idle ∧ State.reset.irq = false

/-- A STATUS write clears DONE if bit 1 is 1 and OVR if bit 4 is 1, ignores every other bit, and sets no status bit,
busy or idle (10_state.md R45). -/
def Obligations.StatusWriteClearsDoneAndOvr : Prop :=
  ∀ (s : State) (v : Word) (rest : List Event), s.inputs = .hostWrite 0x010 8 v :: rest →
    ∃ t, step s = .next t ∧
      t.status.done = (if v.getLsbD 1 then false else s.status.done) ∧
      t.status.ovr = (if v.getLsbD 4 then false else s.status.ovr) ∧
      t.status.flag = s.status.flag ∧ t.status.sent = s.status.sent ∧ t.status.err = s.status.err ∧
      t.engine = s.engine ∧ t.regs = s.regs ∧ t.irqen = s.irqen ∧ t.cmd = s.cmd ∧ t.inputs = rest

/-- A CTRL write with bit 2 = 0 sets IRQEN to bit 0, busy or idle; and CTRL reads IRQEN in bit 0 and 0 in every other bit
(10_state.md R34, R35). -/
def Obligations.ControlWriteSetsInterruptEnable : Prop :=
  ∀ (s : State), (∀ k, s.ctrlWord.getLsbD k = (decide (k = 0) && s.irqen)) ∧
    ∀ (v : Word) (rest : List Event), v.getLsbD 2 = false → s.inputs = .hostWrite 0x008 8 v :: rest →
      ∃ t, step s = .next t ∧ t.irqen = v.getLsbD 0 ∧ t.regs = s.regs ∧ t.cmd = s.cmd ∧ t.inputs = rest

/-- The STATUS word: BUSY, DONE, FLAG, SENT and OVR in bits 0 to 4, the error code in bits 15:8, 0 elsewhere
(10_state.md R38); and the number of each error code (60_exceptions.md R265). -/
def Obligations.StatusWordHasItsFields : Prop :=
  ∀ s : State, s.statusWord.getLsbD 0 = s.isBusy ∧ s.statusWord.getLsbD 1 = s.status.done ∧
    s.statusWord.getLsbD 2 = s.status.flag ∧ s.statusWord.getLsbD 3 = s.status.sent ∧
    s.statusWord.getLsbD 4 = s.status.ovr ∧ s.statusWord.extractLsb' 8 8 = s.status.err.code ∧
    s.statusWord.extractLsb' 5 3 = 0 ∧ s.statusWord.extractLsb' 16 48 = 0 ∧
    (s.isBusy = true ↔ ∃ x, s.engine = .busy x) ∧
    (s.status.err = .none → s.statusWord.extractLsb' 8 8 = 0x00) ∧
    (s.status.err = .illegal → s.statusWord.extractLsb' 8 8 = 0x01) ∧
    (s.status.err = .domain → s.statusWord.extractLsb' 8 8 = 0x02) ∧
    (s.status.err = .overflow → s.statusWord.extractLsb' 8 8 = 0x03) ∧
    (s.status.err = .nonresidue → s.statusWord.extractLsb' 8 8 = 0x04) ∧
    (s.status.err = .noroot → s.statusWord.extractLsb' 8 8 = 0x05) ∧
    (s.status.err = .aborted → s.statusWord.extractLsb' 8 8 = 0x06)

/-- ID reads its constant in every state; a write to ID or to a reserved offset is accepted and changes nothing; a reserved
offset reads 0 (10_state.md R22, 20_memory.md R66). The `reply` is the model's own field (log 7). -/
def Obligations.IdentityAndReservedOffsetsIgnoreWrites : Prop :=
  ∀ (s : State) (off : BitVec 12) (v : Word) (rest : List Event),
    (s.inputs = .hostRead 0x000 8 :: rest →
      step s = .next { s with inputs := rest, reply := some (.readData 0x00000000ECC00001#64) }) ∧
    (s.inputs = .hostWrite 0x000 8 v :: rest →
      step s = .next { s with inputs := rest, reply := some .writeAccepted }) ∧
    (off.toNat % 8 = 0 → (0x040 ≤ off.toNat ∧ off.toNat ≤ 0x0F8) ∨ 0x200 ≤ off.toNat →
      (s.inputs = .hostRead off 8 :: rest →
        step s = .next { s with inputs := rest, reply := some (.readData 0) }) ∧
      (s.inputs = .hostWrite off 8 v :: rest →
        step s = .next { s with inputs := rest, reply := some .writeAccepted }))

/-- An access that is not 8 bytes wide or not 8-byte aligned gets an error response, a read of it returns 0, and it has no
effect on any state (20_memory.md R62, R65). The `reply`, the model's own field, holds the response (log 7). -/
def Obligations.NarrowOrMisalignedAccessesAreRejected : Prop :=
  ∀ (s : State) (off : BitVec 12) (width : Nat) (v : Word) (rest : List Event),
    width ≠ 8 ∨ off.toNat % 8 ≠ 0 →
    (s.inputs = .hostRead off width :: rest →
      step s = .next { s with inputs := rest, reply := some (.readRejected 0) }) ∧
    (s.inputs = .hostWrite off width v :: rest →
      step s = .next { s with inputs := rest, reply := some .writeRejected })

/-- A read returns the register at its offset, busy or idle, and changes nothing else (20_memory.md R63, R70,
10_state.md R21, R33). The `reply` is the model's own field (log 7). -/
def Obligations.ReadsReturnTheRegisterWithoutSideEffects : Prop :=
  ∀ (s : State) (r : WindowReg) (rest : List Event), s.inputs = .hostRead r.offset 8 :: rest →
    ∃ v, step s = .next { s with inputs := rest, reply := some (.readData v) } ∧
      (r = .ctrl → v = s.ctrlWord) ∧ (r = .status → v = s.statusWord) ∧ (r = .cmd → v = s.cmd) ∧
      (r = .modp → v = s.regs.modp) ∧ (r = .ca → v = s.regs.ca) ∧ (r = .cb → v = s.regs.cb) ∧
      (r = .fpoly → v = s.regs.fpoly) ∧ (∀ i, r = .data i → v = s.regs.read i)

/-- The window is little-endian: byte k of the register at an offset sits k bytes above it and holds register bits
8k+7 to 8k (20_memory.md R67). -/
def Obligations.WindowBytesAreLittleEndian : Prop :=
  ∀ (s : State) (r : WindowReg) (k : Nat), k < 8 →
    s.windowByte (r.offset + BitVec.ofNat 12 k) = (s.readReg r).extractLsb' (8 * k) 8

/-- A host address reaches the block exactly when it lies in the 4096 bytes from BASE_ADDR, at the offset above it; and
BASE_ADDR is a multiple of 4096 (20_memory.md R61). -/
def Obligations.WindowDecodesAddressesFromTheBase : Prop :=
  Config.baseAddr % 4096 = 0 ∧
  ∀ (addr : Nat) (off : BitVec 12), windowOffset addr = some off ↔
    (Config.baseAddr ≤ addr ∧ addr < Config.baseAddr + 4096 ∧ off.toNat = addr - Config.baseAddr)

/-- The interrupt output is DONE and IRQEN: every completion, with or without an error, leaves it equal to IRQEN, and it
is low while a reachable command is in flight (60_exceptions.md R270). -/
def Obligations.InterruptFollowsDoneAndEnable : Prop :=
  (∀ s : State, s.irq = (s.status.done && s.irqen)) ∧
  (∀ (i : Instr) (s t : State), exec i s = .next t → t.irq = s.irqen) ∧
  (∀ s : State, Inv s → s.isBusy = true → s.irq = false)

/-- No host access changes a command in flight, except a CTRL write with ABORT or SRST set: the latched word, the
snapshot and the registers stay as they are (10_state.md R47, R48, 20_memory.md R76). -/
def Obligations.HostAccessesDoNotChangeTheCommandInFlight : Prop :=
  ∀ (s t : State) (x : Regs) (e : Event) (rest : List Event), s.engine = .busy x → s.inputs = e :: rest →
    ((∃ off width, e = .hostRead off width) ∨
     (∃ off width v, e = .hostWrite off width v ∧
       (off = 0x008 → v.getLsbD 1 = false ∧ v.getLsbD 2 = false))) →
    step s = .next t → t.engine = .busy x ∧ t.cmd = s.cmd ∧ t.regs = s.regs

/-! ## The mathematical functions -/

/-- `isPrime` is the mathematical predicate: n ≥ 2 with no divisor strictly between 1 and n (00_scope.md R12). -/
def Obligations.IsPrimeIsThePredicate : Prop :=
  ∀ n : Nat, isPrime n = true ↔ (2 ≤ n ∧ ∀ d, 1 < d → d < n → ¬ d ∣ n)

/-- `jac` is the Jacobi symbol, the product of Legendre symbols over the prime factorization, for every odd n ≥ 1
(40_modular.md R121). -/
def Obligations.JacIsTheJacobiSymbol : Prop :=
  ∀ (a : Int) (n : Nat), n % 2 = 1 → jac a n = jacobiSym a n

/-- `clmul` is the product in GF(2)[z]: coefficient k is the parity of the pairs of coefficients i and k - i
(00_scope.md R12). -/
def Obligations.ClmulCoefficientsAreConvolutions : Prop :=
  ∀ P Q k : Nat, (clmul P Q).testBit k =
    decide ((List.range (k + 1)).countP (fun i => P.testBit i && Q.testBit (k - i)) % 2 = 1)

/-- `prem(P, M)`, for M ≠ 0, is the unique R of degree below deg(M) with P - R a multiple of M (00_scope.md R12). -/
def Obligations.PremIsTheUniqueRemainder : Prop :=
  ∀ P M : Nat, M ≠ 0 → IsRemainder P M (prem P M) ∧ ∀ R, IsRemainder P M R → R = prem P M

/-- `irreducible(f)` is true iff deg(f) ≥ 1 and no polynomial of degree 1 to deg(f) - 1 is a factor (00_scope.md R12). -/
def Obligations.IrreducibleMeansNoProperFactor : Prop :=
  ∀ f : Nat, irreducible f = true ↔
    (1 ≤ deg f ∧ ∀ g h : Nat, 1 ≤ deg g → deg g < deg f → clmul g h ≠ f)

/-! ## Modular integer commands -/

/-- MULMOD: DOMAIN for p < 2, else the exact residue of the product (40_modular.md R122). -/
def Obligations.MulmodWritesTheExactProduct : Prop :=
  ∀ (s : State) (x : Regs) (rd rs1 rs2 : Reg), s.engine = .busy x →
    encode (.mulmod rd rs1 rs2) = packWord 0x01 rd rs1 rs2 ∧
    (x.modp.toInt < 2 → ∃ t, exec (.mulmod rd rs1 rs2) s = .next t ∧
      Completed s t .domain false false ∧ WritesNone s t) ∧
    (2 ≤ x.modp.toInt → ∃ t, exec (.mulmod rd rs1 rs2) s = .next t ∧ Completed s t .none false false ∧
      WritesOne s t rd (BitVec.ofInt 64 ((x.read rs1).toInt * (x.read rs2).toInt % x.modp.toInt)))

/-- EXPMOD: DOMAIN for p < 2, then DOMAIN for a negative exponent, else the exact residue of the power, a^0 = 1
(40_modular.md R123). -/
def Obligations.ExpmodWritesTheExactPower : Prop :=
  ∀ (s : State) (x : Regs) (rd rs1 rs2 : Reg), s.engine = .busy x →
    encode (.expmod rd rs1 rs2) = packWord 0x02 rd rs1 rs2 ∧
    (x.modp.toInt < 2 ∨ (x.read rs2).toInt < 0 → ∃ t, exec (.expmod rd rs1 rs2) s = .next t ∧
      Completed s t .domain false false ∧ WritesNone s t) ∧
    (∀ e : Nat, 2 ≤ x.modp.toInt → (x.read rs2).toInt = e → ∃ t, exec (.expmod rd rs1 rs2) s = .next t ∧
      Completed s t .none false false ∧
      WritesOne s t rd (BitVec.ofInt 64 ((x.read rs1).toInt ^ e % x.modp.toInt)))

/-- INVMOD: DOMAIN for p < 2; -1 with SENT = 1 for a zero residue; else the residue of a^(p-2), for every p, which for a
prime p is an inverse (40_modular.md R124). -/
def Obligations.InvmodWritesThePowerOrTheSentinel : Prop :=
  ∀ (s : State) (x : Regs) (rd rs1 : Reg), s.engine = .busy x →
    encode (.invmod rd rs1) = packWord 0x03 rd rs1 0 ∧
    (x.modp.toInt < 2 → ∃ t, exec (.invmod rd rs1) s = .next t ∧
      Completed s t .domain false false ∧ WritesNone s t) ∧
    (2 ≤ x.modp.toInt → (x.read rs1).toInt % x.modp.toInt = 0 → ∃ t, exec (.invmod rd rs1) s = .next t ∧
      Completed s t .none false true ∧ WritesOne s t rd (BitVec.ofInt 64 (-1))) ∧
    (∀ p : Nat, x.modp.toInt = p → 2 ≤ p → (x.read rs1).toInt % p ≠ 0 → ∃ t, exec (.invmod rd rs1) s = .next t ∧
      Completed s t .none false false ∧ WritesOne s t rd (BitVec.ofInt 64 ((x.read rs1).toInt ^ (p - 2) % p)) ∧
      (p.Prime → (x.read rs1).toInt * (t.regs.read rd).toInt % p = 1))

/-- JACOBI: DOMAIN for n < 1 or an even n, else the Jacobi symbol as -1, 0 or 1 (40_modular.md R125). -/
def Obligations.JacobiWritesTheSymbol : Prop :=
  ∀ (s : State) (x : Regs) (rd rs1 : Reg), s.engine = .busy x →
    encode (.jacobi rd rs1) = packWord 0x04 rd rs1 0 ∧
    (x.modp.toInt < 1 ∨ x.modp.toInt % 2 = 0 → ∃ t, exec (.jacobi rd rs1) s = .next t ∧
      Completed s t .domain false false ∧ WritesNone s t) ∧
    (∀ n : Nat, x.modp.toInt = n → n % 2 = 1 → ∃ t, exec (.jacobi rd rs1) s = .next t ∧
      Completed s t .none false false ∧ WritesOne s t rd (BitVec.ofInt 64 (jacobiSym (x.read rs1).toInt n)))

/-- SQRTMOD for an odd prime p: 0 for a zero residue, NONRESIDUE if a has no square root, else the smaller of its two
roots (40_modular.md R126, R127). That it completes builds in the fairness of the draws (70_reset_and_hazards.md R331 (b),
log 5). -/
def Obligations.SqrtmodWritesTheSmallerRootModuloAPrime : Prop :=
  ∀ (s : State) (x : Regs) (rd rs1 : Reg) (p : Nat), s.engine = .busy x → x.modp.toInt = p → p.Prime → p ≠ 2 →
    ((x.read rs1).toInt % p = 0 → ∃ t, exec (.sqrtmod rd rs1) s = .next t ∧
      Completed s t .none false false ∧ WritesOne s t rd 0) ∧
    ((∀ r : Int, r * r % p ≠ (x.read rs1).toInt % p) → ∃ t, exec (.sqrtmod rd rs1) s = .next t ∧
      Completed s t .nonresidue false false ∧ WritesNone s t) ∧
    ((x.read rs1).toInt % p ≠ 0 → (∃ r : Int, r * r % p = (x.read rs1).toInt % p) →
      ∃ t r, exec (.sqrtmod rd rs1) s = .next t ∧ Completed s t .none false false ∧
        WritesOne s t rd (BitVec.ofNat 64 r) ∧ 1 ≤ r ∧ 2 * r < p ∧ (r : Int) * r % p = (x.read rs1).toInt % p)

/-- SQRTMOD otherwise, in the order of its checks: DOMAIN for p < 2; a mod 2 for p = 2; DOMAIN for an even p > 2 and for
an odd perfect square; 0 for a zero residue; NONRESIDUE if jac(a, p) ≠ 1; and for a composite p a root from ROOTS(a, p)
or NOROOT, whatever the draw is (40_modular.md R126, R128). That it completes for every draw builds in the fairness of
70_reset_and_hazards.md R331 (b) (log 5). -/
def Obligations.SqrtmodChecksItsModulusAndResidue : Prop :=
  ∀ (s : State) (x : Regs) (rd rs1 : Reg), s.engine = .busy x →
    encode (.sqrtmod rd rs1) = packWord 0x05 rd rs1 0 ∧
    (x.modp.toInt < 2 → ∃ t, exec (.sqrtmod rd rs1) s = .next t ∧
      Completed s t .domain false false ∧ WritesNone s t) ∧
    (x.modp.toInt = 2 → ∃ t, exec (.sqrtmod rd rs1) s = .next t ∧ Completed s t .none false false ∧
      WritesOne s t rd (BitVec.ofInt 64 ((x.read rs1).toInt % 2))) ∧
    (∀ p : Nat, x.modp.toInt = p → 2 < p →
      (p % 2 = 0 ∨ (∃ r, r * r = p) → ∃ t, exec (.sqrtmod rd rs1) s = .next t ∧
        Completed s t .domain false false ∧ WritesNone s t) ∧
      (p % 2 = 1 → (¬ ∃ r, r * r = p) →
        ((x.read rs1).toInt % p = 0 → ∃ t, exec (.sqrtmod rd rs1) s = .next t ∧
          Completed s t .none false false ∧ WritesOne s t rd 0) ∧
        ((x.read rs1).toInt % p ≠ 0 → jacobiSym (x.read rs1).toInt p ≠ 1 →
          ∃ t, exec (.sqrtmod rd rs1) s = .next t ∧ Completed s t .nonresidue false false ∧ WritesNone s t) ∧
        ((x.read rs1).toInt % p ≠ 0 → jacobiSym (x.read rs1).toInt p = 1 → ¬ p.Prime →
          ∃ t, exec (.sqrtmod rd rs1) s = .next t ∧
            ((∃ r, IsRootChoice ((x.read rs1).toInt % p).toNat p r ∧ Completed s t .none false false ∧
                WritesOne s t rd (BitVec.ofNat 64 r)) ∨
             (Completed s t .noroot false false ∧ WritesNone s t)))))

/-- ISPRIME: 0 below 2, 1 for 2 and 3, 0 for other even numbers; for an odd n ≥ 5 with n - 1 = 2^k * d, d odd, the result
is 1 exactly when all 50 witnesses of the completion, drawn from [2, n - 2], are strong liars: w^d = 1, or
w^(2^j * d) = n - 1 for a j < k (40_modular.md R132, R133). The i-th witness is the model's `witness s.draws n i`, a free
value (logs 2 and 4). FLAG is the result, and there is no error, whatever MODP is. -/
def Obligations.IsprimeRunsFiftyStrongTests : Prop :=
  ∀ (s : State) (x : Regs) (rd rs1 : Reg), s.engine = .busy x →
    encode (.isprime rd rs1) = packWord 0x06 rd rs1 0 ∧
    ∃ (t : State) (b : Bool), exec (.isprime rd rs1) s = .next t ∧ Completed s t .none b false ∧
      WritesOne s t rd (if b then 1 else 0) ∧
      ((x.read rs1).toInt < 2 → b = false) ∧
      ((x.read rs1).toInt = 2 ∨ (x.read rs1).toInt = 3 → b = true) ∧
      (∀ n : Nat, (x.read rs1).toInt = n → 4 ≤ n → n % 2 = 0 → b = false) ∧
      (∀ n k d : Nat, (x.read rs1).toInt = n → 5 ≤ n → n % 2 = 1 → n - 1 = 2 ^ k * d → d % 2 = 1 →
        (∀ i < 50, 2 ≤ witness s.draws n i ∧ witness s.draws n i ≤ n - 2) ∧
        (b = true ↔ ∀ i < 50, witness s.draws n i ^ d % n = 1 ∨
          ∃ j < k, witness s.draws n i ^ (2 ^ j * d) % n = n - 1))

/-- ISPRIME is never wrong for a prime: the result is 1 for every draw (40_modular.md R134 (a)). -/
def Obligations.IsprimeIsOneForEveryPrime : Prop :=
  ∀ (s : State) (x : Regs) (rd rs1 : Reg) (n : Nat), s.engine = .busy x → (x.read rs1).toInt = n → n.Prime →
    ∃ t, exec (.isprime rd rs1) s = .next t ∧ Completed s t .none true false ∧ WritesOne s t rd 1

/-- CVALID: DOMAIN for p < 2, else whether 4a³ + 27b² mod p ≠ 0, also in FLAG (40_modular.md R135). -/
def Obligations.CvalidTestsTheDiscriminant : Prop :=
  ∀ (s : State) (x : Regs) (rd : Reg), s.engine = .busy x →
    encode (.cvalid rd) = packWord 0x07 rd 0 0 ∧
    (x.modp.toInt < 2 → ∃ t, exec (.cvalid rd) s = .next t ∧ Completed s t .domain false false ∧ WritesNone s t) ∧
    (2 ≤ x.modp.toInt → ∃ t b, exec (.cvalid rd) s = .next t ∧ Completed s t .none b false ∧
      WritesOne s t rd (if b then 1 else 0) ∧
      (b = true ↔ (4 * x.ca.toInt ^ 3 + 27 * x.cb.toInt ^ 2) % x.modp.toInt ≠ 0))

/-! ## Prime-field point commands -/

/-- PNORM: DOMAIN for p < 2; (0, 1, 0) with FLAG = 1 if z is 0 mod p; else (x·w, y·w, 1) mod p with w the residue of
z^(p-2), for every p; a normalized triple is returned unchanged (41_prime_points.md R160, R161). -/
def Obligations.PnormWritesTheNormalizedTriple : Prop :=
  ∀ (s : State) (x : Regs) (rd rs1 : Reg), s.engine = .busy x → (Instr.pnorm rd rs1).wf = true →
    encode (.pnorm rd rs1) = packWord 0x10 rd rs1 0 ∧
    (x.modp.toInt < 2 → ∃ t, exec (.pnorm rd rs1) s = .next t ∧
      Completed s t .domain false false ∧ WritesNone s t) ∧
    (∀ p : Nat, x.modp.toInt = p → 2 ≤ p →
      ((x.triple rs1).z.toInt % p = 0 → ∃ t, exec (.pnorm rd rs1) s = .next t ∧
        Completed s t .none true false ∧ WritesTriple s t rd ⟨0, 1, 0⟩) ∧
      ((x.triple rs1).z.toInt % p ≠ 0 → ∃ t X Y, exec (.pnorm rd rs1) s = .next t ∧
        Completed s t .none false false ∧ WritesTriple s t rd ⟨X, Y, 1⟩ ∧
        (X : Int) = (x.triple rs1).x.toInt * (x.triple rs1).z.toInt ^ (p - 2) % p ∧
        (Y : Int) = (x.triple rs1).y.toInt * (x.triple rs1).z.toInt ^ (p - 2) % p) ∧
      (NormalizedP p ⟨(x.triple rs1).x.toNat, (x.triple rs1).y.toNat, (x.triple rs1).z.toNat⟩ →
        ∃ t, exec (.pnorm rd rs1) s = .next t ∧ t.regs.triple rd = x.triple rs1))

/-- PADD: DOMAIN for p < 2; for a prime p the sum by the chord and tangent law of the two normalized operands, which does
not read CB; for a composite p some normalized triple; FLAG tells the infinity (41_prime_points.md R162, R164, R165). -/
def Obligations.PaddFollowsThePointLaw : Prop :=
  ∀ (s : State) (x : Regs) (rd rs1 rs2 : Reg), s.engine = .busy x → (Instr.padd rd rs1 rs2).wf = true →
    encode (.padd rd rs1 rs2) = packWord 0x11 rd rs1 rs2 ∧
    (x.modp.toInt < 2 → ∃ t, exec (.padd rd rs1 rs2) s = .next t ∧
      Completed s t .domain false false ∧ WritesNone s t) ∧
    (∀ p : Nat, x.modp.toInt = p → 2 ≤ p → ∃ t r, exec (.padd rd rs1 rs2) s = .next t ∧
      Completed s t .none (decide (r = ⟨0, 1, 0⟩)) false ∧ WritesTriple s t rd r ∧ NormalizedP p r ∧
      (p.Prime → PointLawP p (x.ca.toInt % p).toNat (normP (x.triple rs1) p) (normP (x.triple rs2) p) r))

/-- PSMUL: DOMAIN for p < 2, then DOMAIN for a negative k; for a prime p double-and-add of the normalized operand, least
significant bit first; for a composite p some normalized triple (41_prime_points.md R165, R166). -/
def Obligations.PsmulIsDoubleAndAdd : Prop :=
  ∀ (s : State) (x : Regs) (rd rs1 rs2 : Reg), s.engine = .busy x → (Instr.psmul rd rs1 rs2).wf = true →
    encode (.psmul rd rs1 rs2) = packWord 0x12 rd rs1 rs2 ∧
    (x.modp.toInt < 2 ∨ (x.read rs2).toInt < 0 → ∃ t, exec (.psmul rd rs1 rs2) s = .next t ∧
      Completed s t .domain false false ∧ WritesNone s t) ∧
    (∀ p k : Nat, x.modp.toInt = p → 2 ≤ p → (x.read rs2).toInt = k → ∃ t r, exec (.psmul rd rs1 rs2) s = .next t ∧
      Completed s t .none (decide (r = ⟨0, 1, 0⟩)) false ∧ WritesTriple s t rd r ∧ NormalizedP p r ∧
      (p.Prime → r = doubleAndAdd (addP p (x.ca.toInt % p).toNat) ⟨0, 1, 0⟩ (normP (x.triple rs1) p) k))

/-- PEQ: 1 iff the three registers of the two triples are equal bit for bit, also in FLAG; no error
(41_prime_points.md R168). -/
def Obligations.PeqComparesRawTriples : Prop :=
  ∀ (s : State) (x : Regs) (rd rs1 rs2 : Reg), s.engine = .busy x → (Instr.peq rd rs1 rs2).wf = true →
    encode (.peq rd rs1 rs2) = packWord 0x13 rd rs1 rs2 ∧
    ∃ t b, exec (.peq rd rs1 rs2) s = .next t ∧ Completed s t .none b false ∧ WritesOne s t rd (if b then 1 else 0) ∧
      (b = true ↔ ∀ j < 3, ∀ m n : Reg, m.val = rs1.val + j → n.val = rs2.val + j → x.read m = x.read n)

/-! ## GF(2) polynomial commands -/

/-- GADD is bitwise exclusive or, on all 64 bits, with no error (42_gf2_poly.md R192). -/
def Obligations.GaddIsExclusiveOr : Prop :=
  ∀ (s : State) (x : Regs) (rd rs1 rs2 : Reg), s.engine = .busy x →
    encode (.gadd rd rs1 rs2) = packWord 0x20 rd rs1 rs2 ∧
    ∃ t v, exec (.gadd rd rs1 rs2) s = .next t ∧ Completed s t .none false false ∧ WritesOne s t rd v ∧
      ∀ k, v.getLsbD k = ((x.read rs1).getLsbD k ^^ (x.read rs2).getLsbD k)

/-- GSHL: DOMAIN for a negative shift; 0 for the zero polynomial; the exact product by z^s if it fits in 64 bits, else
OVERFLOW (42_gf2_poly.md R193, R195). -/
def Obligations.GshlMultipliesByAPowerOfZ : Prop :=
  ∀ (s : State) (x : Regs) (rd rs1 rs2 : Reg), s.engine = .busy x →
    encode (.gshl rd rs1 rs2) = packWord 0x21 rd rs1 rs2 ∧
    ((x.read rs2).toInt < 0 → ∃ t, exec (.gshl rd rs1 rs2) s = .next t ∧
      Completed s t .domain false false ∧ WritesNone s t) ∧
    (∀ n : Nat, (x.read rs2).toInt = n →
      ((x.read rs1).toNat * 2 ^ n < 2 ^ 64 → ∃ t, exec (.gshl rd rs1 rs2) s = .next t ∧
        Completed s t .none false false ∧ WritesOne s t rd (BitVec.ofNat 64 ((x.read rs1).toNat * 2 ^ n))) ∧
      (2 ^ 64 ≤ (x.read rs1).toNat * 2 ^ n → ∃ t, exec (.gshl rd rs1 rs2) s = .next t ∧
        Completed s t .overflow false false ∧ WritesNone s t))

/-- GMUL: the exact product in GF(2)[z] when the degrees sum to at most 63 or an operand is 0, else OVERFLOW
(42_gf2_poly.md R194, R195). -/
def Obligations.GmulIsTheExactProductOrOverflow : Prop :=
  ∀ (s : State) (x : Regs) (rd rs1 rs2 : Reg), s.engine = .busy x →
    encode (.gmul rd rs1 rs2) = packWord 0x22 rd rs1 rs2 ∧
    (x.read rs1 ≠ 0 → x.read rs2 ≠ 0 → 63 < deg (x.read rs1).toNat + deg (x.read rs2).toNat →
      ∃ t, exec (.gmul rd rs1 rs2) s = .next t ∧ Completed s t .overflow false false ∧ WritesNone s t) ∧
    (x.read rs1 = 0 ∨ x.read rs2 = 0 ∨ deg (x.read rs1).toNat + deg (x.read rs2).toNat ≤ 63 →
      ∃ t, exec (.gmul rd rs1 rs2) s = .next t ∧ Completed s t .none false false ∧
        WritesOne s t rd (BitVec.ofNat 64 (clmul (x.read rs1).toNat (x.read rs2).toNat)) ∧
        clmul (x.read rs1).toNat (x.read rs2).toNat < 2 ^ 64)

/-- GMOD: DOMAIN for the zero modulus, else the remainder by any nonzero polynomial (42_gf2_poly.md R196). -/
def Obligations.GmodWritesTheRemainder : Prop :=
  ∀ (s : State) (x : Regs) (rd rs1 rs2 : Reg), s.engine = .busy x →
    encode (.gmod rd rs1 rs2) = packWord 0x23 rd rs1 rs2 ∧
    (x.read rs2 = 0 → ∃ t, exec (.gmod rd rs1 rs2) s = .next t ∧
      Completed s t .domain false false ∧ WritesNone s t) ∧
    (x.read rs2 ≠ 0 → ∃ t R, exec (.gmod rd rs1 rs2) s = .next t ∧ Completed s t .none false false ∧
      WritesOne s t rd (BitVec.ofNat 64 R) ∧ IsRemainder (x.read rs1).toNat (x.read rs2).toNat R)

/-- GDEG: -1 with SENT = 1 for the zero polynomial, else the number of the highest bit set (42_gf2_poly.md R197). -/
def Obligations.GdegWritesTheDegreeOrTheSentinel : Prop :=
  ∀ (s : State) (x : Regs) (rd rs1 : Reg), s.engine = .busy x →
    encode (.gdeg rd rs1) = packWord 0x24 rd rs1 0 ∧
    (x.read rs1 = 0 → ∃ t, exec (.gdeg rd rs1) s = .next t ∧ Completed s t .none false true ∧
      WritesOne s t rd (BitVec.ofInt 64 (-1))) ∧
    (∀ m : Nat, 2 ^ m ≤ (x.read rs1).toNat → (x.read rs1).toNat < 2 ^ (m + 1) →
      ∃ t, exec (.gdeg rd rs1) s = .next t ∧ Completed s t .none false false ∧
        WritesOne s t rd (BitVec.ofNat 64 m))

/-- GMULM, GEXP and GSQRT: DOMAIN for uint(FPOLY) < 2, then DOMAIN for a negative exponent of GEXP; else the remainder
by f of the exact product, of the exact k-th power, and of the 2^(m-1)-th power, m the degree of f, for every accepted f;
for an irreducible f the result of GSQRT is a square root (42_gf2_poly.md R191, R198, R199, R201). -/
def Obligations.FieldCommandsWriteRemaindersModuloF : Prop :=
  ∀ (s : State) (x : Regs) (rd rs1 rs2 : Reg), s.engine = .busy x →
    (encode (.gmulm rd rs1 rs2) = packWord 0x25 rd rs1 rs2 ∧ encode (.gexp rd rs1 rs2) = packWord 0x26 rd rs1 rs2 ∧
      encode (.gsqrt rd rs1) = packWord 0x28 rd rs1 0) ∧
    (x.fpoly.toNat < 2 → ∀ i, i ∈ [Instr.gmulm rd rs1 rs2, .gexp rd rs1 rs2, .gsqrt rd rs1] →
      ∃ t, exec i s = .next t ∧ Completed s t .domain false false ∧ WritesNone s t) ∧
    (2 ≤ x.fpoly.toNat →
      (∃ t R, exec (.gmulm rd rs1 rs2) s = .next t ∧ Completed s t .none false false ∧
        WritesOne s t rd (BitVec.ofNat 64 R) ∧
        IsRemainder (clmul (x.read rs1).toNat (x.read rs2).toNat) x.fpoly.toNat R) ∧
      ((x.read rs2).toInt < 0 → ∃ t, exec (.gexp rd rs1 rs2) s = .next t ∧
        Completed s t .domain false false ∧ WritesNone s t) ∧
      (∀ k : Nat, (x.read rs2).toInt = k → ∃ t R, exec (.gexp rd rs1 rs2) s = .next t ∧
        Completed s t .none false false ∧ WritesOne s t rd (BitVec.ofNat 64 R) ∧
        IsRemainder (polyPow (x.read rs1).toNat k) x.fpoly.toNat R) ∧
      (∀ m : Nat, deg x.fpoly.toNat = m → ∃ t R, exec (.gsqrt rd rs1) s = .next t ∧
        Completed s t .none false false ∧ WritesOne s t rd (BitVec.ofNat 64 R) ∧
        IsRemainder (polyPow (x.read rs1).toNat (2 ^ (m - 1))) x.fpoly.toNat R ∧
        (irreducible x.fpoly.toNat = true → ∃ A, IsRemainder (x.read rs1).toNat x.fpoly.toNat A ∧
          IsRemainder (clmul R R) x.fpoly.toNat A)))

/-- GINV: DOMAIN for uint(FPOLY) < 2; for an element that is 0 mod f nothing is written and SENT = 1; else the remainder
of the (2^m - 2)-th power, for every accepted f, which for an irreducible f is an inverse (42_gf2_poly.md R200). -/
def Obligations.GinvWritesThePowerOrNoValue : Prop :=
  ∀ (s : State) (x : Regs) (rd rs1 : Reg), s.engine = .busy x →
    encode (.ginv rd rs1) = packWord 0x27 rd rs1 0 ∧
    (x.fpoly.toNat < 2 → ∃ t, exec (.ginv rd rs1) s = .next t ∧
      Completed s t .domain false false ∧ WritesNone s t) ∧
    (2 ≤ x.fpoly.toNat →
      (IsRemainder (x.read rs1).toNat x.fpoly.toNat 0 → ∃ t, exec (.ginv rd rs1) s = .next t ∧
        Completed s t .none false true ∧ WritesNone s t) ∧
      (∀ m : Nat, deg x.fpoly.toNat = m → ¬ IsRemainder (x.read rs1).toNat x.fpoly.toNat 0 →
        ∃ t R, exec (.ginv rd rs1) s = .next t ∧ Completed s t .none false false ∧
          WritesOne s t rd (BitVec.ofNat 64 R) ∧
          IsRemainder (polyPow (x.read rs1).toNat (2 ^ m - 2)) x.fpoly.toNat R ∧
          (irreducible x.fpoly.toNat = true → IsRemainder (clmul (x.read rs1).toNat R) x.fpoly.toNat 1)))

/-! ## Binary-field point commands -/

/-- BNORM: DOMAIN for uint(FPOLY) < 2; (1, 0, 0) with FLAG = 1 if z is 0 mod f; else (x·w, y·w², 1) mod f with w the
remainder of z^(2^m - 2), for every accepted f; a normalized triple is returned unchanged (43_binary_points.md R231). -/
def Obligations.BnormWritesTheNormalizedTriple : Prop :=
  ∀ (s : State) (x : Regs) (rd rs1 : Reg), s.engine = .busy x → (Instr.bnorm rd rs1).wf = true →
    encode (.bnorm rd rs1) = packWord 0x30 rd rs1 0 ∧
    (x.fpoly.toNat < 2 → ∃ t, exec (.bnorm rd rs1) s = .next t ∧
      Completed s t .domain false false ∧ WritesNone s t) ∧
    (∀ f m : Nat, x.fpoly.toNat = f → 2 ≤ f → deg f = m →
      (IsRemainder (x.triple rs1).z.toNat f 0 → ∃ t, exec (.bnorm rd rs1) s = .next t ∧
        Completed s t .none true false ∧ WritesTriple s t rd ⟨1, 0, 0⟩) ∧
      (¬ IsRemainder (x.triple rs1).z.toNat f 0 → ∃ t w X Y, exec (.bnorm rd rs1) s = .next t ∧
        Completed s t .none false false ∧ WritesTriple s t rd ⟨X, Y, 1⟩ ∧
        IsRemainder (polyPow (x.triple rs1).z.toNat (2 ^ m - 2)) f w ∧
        IsRemainder (clmul (x.triple rs1).x.toNat w) f X ∧
        IsRemainder (clmul (x.triple rs1).y.toNat (clmul w w)) f Y) ∧
      (NormalizedB f ⟨(x.triple rs1).x.toNat, (x.triple rs1).y.toNat, (x.triple rs1).z.toNat⟩ →
        ∃ t, exec (.bnorm rd rs1) s = .next t ∧ t.regs.triple rd = x.triple rs1))

/-- BADD: DOMAIN for uint(FPOLY) < 2; for an irreducible f the sum by the Lopez-Dahab law of the two normalized operands;
for a reducible f some normalized triple; FLAG tells the infinity (43_binary_points.md R232, R234, R235). -/
def Obligations.BaddFollowsThePointLaw : Prop :=
  ∀ (s : State) (x : Regs) (rd rs1 rs2 : Reg), s.engine = .busy x → (Instr.badd rd rs1 rs2).wf = true →
    encode (.badd rd rs1 rs2) = packWord 0x31 rd rs1 rs2 ∧
    (x.fpoly.toNat < 2 → ∃ t, exec (.badd rd rs1 rs2) s = .next t ∧
      Completed s t .domain false false ∧ WritesNone s t) ∧
    (∀ f : Nat, x.fpoly.toNat = f → 2 ≤ f → ∃ t r, exec (.badd rd rs1 rs2) s = .next t ∧
      Completed s t .none (decide (r = ⟨1, 0, 0⟩)) false ∧ WritesTriple s t rd r ∧ NormalizedB f r ∧
      (irreducible f = true → PointLawB f (prem x.ca.toNat f) (prem x.cb.toNat f)
        (normB (x.triple rs1) f) (normB (x.triple rs2) f) r))

/-- BSMUL: DOMAIN for uint(FPOLY) < 2, then DOMAIN for a negative k; for an irreducible f double-and-add of the normalized
operand, least significant bit first; for a reducible f some normalized triple (43_binary_points.md R235, R236). -/
def Obligations.BsmulIsDoubleAndAdd : Prop :=
  ∀ (s : State) (x : Regs) (rd rs1 rs2 : Reg), s.engine = .busy x → (Instr.bsmul rd rs1 rs2).wf = true →
    encode (.bsmul rd rs1 rs2) = packWord 0x32 rd rs1 rs2 ∧
    (x.fpoly.toNat < 2 ∨ (x.read rs2).toInt < 0 → ∃ t, exec (.bsmul rd rs1 rs2) s = .next t ∧
      Completed s t .domain false false ∧ WritesNone s t) ∧
    (∀ f k : Nat, x.fpoly.toNat = f → 2 ≤ f → (x.read rs2).toInt = k →
      ∃ t r, exec (.bsmul rd rs1 rs2) s = .next t ∧
        Completed s t .none (decide (r = ⟨1, 0, 0⟩)) false ∧ WritesTriple s t rd r ∧ NormalizedB f r ∧
        (irreducible f = true → r = doubleAndAdd (addB f (prem x.ca.toNat f) (prem x.cb.toNat f)) ⟨1, 0, 0⟩
          (normB (x.triple rs1) f) k))

/-! ## Properties of the point laws -/

/-- Point addition is commutative: for a prime p, and for an irreducible f, exchanging the operands of PADD and of BADD
gives the same state (41_prime_points.md R162, 43_binary_points.md R232). -/
def Obligations.PointAdditionIsCommutative : Prop :=
  ∀ (s : State) (x : Regs) (rd rs1 rs2 : Reg), s.engine = .busy x →
    (∀ p : Nat, x.modp.toInt = p → p.Prime → exec (.padd rd rs1 rs2) s = exec (.padd rd rs2 rs1) s) ∧
    (irreducible x.fpoly.toNat = true → exec (.badd rd rs1 rs2) s = exec (.badd rd rs2 rs1) s)

/-- On the curve: for a prime p and normalized points that are each the infinity or a solution of y² = x³ + ax + b mod p,
the sum is the infinity or a solution of the same equation, whatever b is, though the law does not read it
(41_prime_points.md R163). -/
def Obligations.PrimePointSumsStayOnTheCurve : Prop :=
  ∀ (p a : Nat) (b : Int) (p1 p2 : Triple Nat), p.Prime → NormalizedP p p1 → NormalizedP p p2 →
    OnCurveP p a b p1 → OnCurveP p a b p2 → OnCurveP p a b (addP p a p1 p2)
end

