-- ==== Sys2Proof/Laws/Arith.lean ====
section
/-! SUPPORT. The laws of the integer helpers: floor modulo, the double-and-add loop, powers, searches. -/

namespace Sys2Proof.Machine

/-- The floor residue as an integer (00_scope.md R12). -/
theorem fmod_cast (a : Int) {p : Nat} (hp : 0 < p) : ((fmod a p : Nat) : Int) = a % (p : Int) :=
  Int.toNat_of_nonneg (Int.emod_nonneg a (by omega))

/-- A residue is below the modulus (40_modular.md R120). -/
theorem fmod_lt (a : Int) {p : Nat} (hp : 0 < p) : fmod a p < p := by
  have h := fmod_cast a hp
  have h2 := Int.emod_lt_of_pos a (show (0 : Int) < p by omega)
  omega

theorem fmod_natCast (a p : Nat) : fmod (a : Int) p = a % p := by
  simp only [fmod]
  exact_mod_cast Int.toNat_natCast (a % p)

/-- The residue class of a floor residue. -/
theorem fmod_zmod (a : Int) {p : Nat} (hp : 0 < p) : ((fmod a p : Nat) : ZMod p) = (a : ZMod p) := by
  have h : (((fmod a p : Nat) : Int) : ZMod p) = ((a % (p : Int) : Int) : ZMod p) := by rw [fmod_cast a hp]
  rw [Int.cast_natCast] at h
  rw [h, ZMod.intCast_mod]

/-- The loop of 41_prime_points.md R166 under a homomorphism into a monoid: it multiplies the accumulator by the k-th
power of the base, whenever its bit bound is large enough. -/
theorem binaryLoop_hom {α M : Type} [Monoid M] (op : α → α → α) (φ : α → M)
    (hop : ∀ a b, φ (op a b) = φ a * φ b) (fuel : Nat) (acc q : α) (k : Nat) (hk : k < 2 ^ fuel) :
    φ (binaryLoop op fuel acc q k) = φ acc * φ q ^ k := by
  induction fuel generalizing acc q k with
  | zero =>
    obtain rfl : k = 0 := by omega
    simp [binaryLoop]
  | succ n ih =>
    unfold binaryLoop
    split
    · simp_all
    · rw [ih _ _ _ (by omega), hop, ← pow_two, ← pow_mul]
      split
      · rename_i h
        rw [hop, mul_assoc, ← pow_succ']
        congr 2
        omega
      · congr 2
        omega

/-- The loop keeps every property that the operation keeps. -/
theorem binaryLoop_keeps {α : Type} (op : α → α → α) (P : α → Prop) (hop : ∀ a b, P a → P b → P (op a b))
    (fuel : Nat) (acc q : α) (k : Nat) (ha : P acc) (hq : P q) : P (binaryLoop op fuel acc q k) := by
  induction fuel generalizing acc q k with
  | zero => exact ha
  | succ n ih =>
    unfold binaryLoop
    split
    · exact ha
    · refine ih _ _ _ ?_ (hop _ _ hq hq)
      split
      · exact hop _ _ ha hq
      · exact ha

/-- The number of bits is a large enough bound. -/
theorem lt_two_pow_log2_succ (k : Nat) : k < 2 ^ (k.log2 + 1) := Nat.lt_log2_self

/-- `binaryPower` under a homomorphism. -/
theorem binaryPower_hom {α M : Type} [Monoid M] (op : α → α → α) (φ : α → M)
    (hop : ∀ a b, φ (op a b) = φ a * φ b) (unit base : α) (k : Nat) :
    φ (binaryPower op unit base k) = φ unit * φ base ^ k :=
  binaryLoop_hom op φ hop _ unit base k (lt_two_pow_log2_succ k)

/-- The loop as a fold over the bits of k: for each bit that is set, the so often doubled base is added
(41_prime_points.md R166). -/
theorem binaryLoop_eq_foldl {α : Type} (op : α → α → α) (fuel n : Nat) (acc q : α) (k : Nat) (hf : k < 2 ^ fuel)
    (hn : k < 2 ^ n) : binaryLoop op fuel acc q k =
      (List.range n).foldl (fun r i => if k.testBit i then op r ((fun u => op u u)^[i] q) else r) acc := by
  induction fuel generalizing n acc q k with
  | zero =>
    obtain rfl : k = 0 := by omega
    simp [binaryLoop]
  | succ m ih =>
    unfold binaryLoop
    split
    · rename_i h
      subst h
      simp
    · cases n with
      | zero => omega
      | succ n =>
        rw [ih n _ _ _ (by omega) (by omega), List.range_succ_eq_map, List.foldl_cons, List.foldl_map]
        simp only [Nat.testBit_zero, Function.iterate_zero, id, Nat.succ_eq_add_one, Nat.testBit_succ,
          Function.iterate_succ, Function.comp, decide_eq_true_iff]

/-- Square-and-multiply mod p, from a reduced accumulator. -/
theorem binaryLoop_mulMod (p fuel acc q k : Nat) (hk : k < 2 ^ fuel) (ha : acc % p = acc) :
    binaryLoop (fun u v => u * v % p) fuel acc q k = acc * q ^ k % p := by
  induction fuel generalizing acc q k with
  | zero =>
    obtain rfl : k = 0 := by omega
    simpa [binaryLoop] using ha.symm
  | succ n ih =>
    unfold binaryLoop
    split
    · rename_i h
      subst h
      simpa using ha.symm
    · have hq : (q * q % p) ^ (k / 2) ≡ (q * q) ^ (k / 2) [MOD p] := (Nat.mod_modEq _ _).pow _
      split
      · rw [ih _ _ _ (by omega) (by simp), show acc * q ^ k = (acc * q) * (q * q) ^ (k / 2) by
          rw [← pow_two, ← pow_mul, mul_assoc, ← pow_succ']
          congr 2
          omega]
        exact (Nat.mod_modEq _ _).mul hq
      · rw [ih _ _ _ (by omega) ha, show acc * q ^ k = acc * (q * q) ^ (k / 2) by
          rw [← pow_two, ← pow_mul]
          congr 2
          omega]
        exact (Nat.ModEq.refl acc).mul hq

/-- `powMod` is the residue of the exact power (00_scope.md R12). -/
theorem powMod_eq (a e p : Nat) : powMod a e p = a ^ e % p := by
  unfold powMod binaryPower
  rw [binaryLoop_mulMod _ _ _ _ _ (lt_two_pow_log2_succ e) (by simp)]
  have h : (1 % p) * (a % p) ^ e ≡ 1 * a ^ e [MOD p] := (Nat.mod_modEq _ _).mul ((Nat.mod_modEq _ _).pow _)
  rw [one_mul] at h
  exact h

/-- The trial division, from `d` on. -/
theorem noDivisorFrom_iff (n fuel d : Nat) (hd : 2 ≤ d) (hf : n < d + fuel) :
    noDivisorFrom n fuel d = true ↔ ∀ m, d ≤ m → m * m ≤ n → ¬ m ∣ n := by
  induction fuel generalizing d with
  | zero =>
    simp only [noDivisorFrom, true_iff]
    intro m hm hmm
    nlinarith
  | succ k ih =>
    unfold noDivisorFrom
    split
    · simp only [true_iff]
      intro m hm hmm
      nlinarith
    · split
      · rename_i h2
        simp only [Bool.false_eq_true, false_iff, not_forall]
        exact ⟨d, le_refl _, by omega, fun h => h (Nat.dvd_of_mod_eq_zero h2)⟩
      · rename_i h2
        rw [ih (d + 1) (by omega) (by omega)]
        constructor
        · intro h m hm hmm
          rcases Nat.eq_or_lt_of_le hm with rfl | hlt
          · exact fun hd => h2 (Nat.mod_eq_zero_of_dvd hd)
          · exact h m hlt hmm
        · intro h m hm hmm
          exact h m (by omega) hmm

/-- The bits of the integer square root. -/
theorem isqrtFrom_spec (p i r : Nat) (h1 : r * r ≤ p) (h2 : p < (r + 2 ^ i) * (r + 2 ^ i)) :
    isqrtFrom p i r * isqrtFrom p i r ≤ p ∧ p < (isqrtFrom p i r + 1) * (isqrtFrom p i r + 1) := by
  induction i generalizing r with
  | zero => exact ⟨h1, by rw [pow_zero] at h2; exact h2⟩
  | succ n ih =>
    unfold isqrtFrom
    split
    · rename_i h
      exact ih _ h (by rw [pow_succ] at h2; convert h2 using 2 <;> ring)
    · exact ih _ h1 (by omega)

/-- The root search finds the least root, if there is one in its range. -/
theorem findRootFrom_spec (a p fuel r : Nat) (h : ∃ t, r ≤ t ∧ t < r + fuel ∧ t * t % p = a) :
    r ≤ findRootFrom a p fuel r ∧ findRootFrom a p fuel r < r + fuel ∧
    findRootFrom a p fuel r * findRootFrom a p fuel r % p = a ∧
    ∀ t, r ≤ t → t * t % p = a → findRootFrom a p fuel r ≤ t := by
  induction fuel generalizing r with
  | zero =>
    obtain ⟨t, h1, h2, _⟩ := h
    omega
  | succ n ih =>
    obtain ⟨t, h1, h2, h3⟩ := h
    unfold findRootFrom
    split
    · rename_i h
      exact ⟨le_refl _, by omega, h, fun t ht _ => ht⟩
    · rename_i h
      have hne : t ≠ r := by
        rintro rfl
        exact h h3
      obtain ⟨e1, e2, e3, e4⟩ := ih (r + 1) ⟨t, by omega, by omega, h3⟩
      refine ⟨by omega, by omega, e3, fun u hu hu2 => ?_⟩
      have : u ≠ r := by
        rintro rfl
        exact h hu2
      exact e4 u (by omega) hu2

/-- The factors of two taken out of d (40_modular.md R132). -/
theorem splitTwosFrom_spec (fuel s d : Nat) (h1 : 0 < d) (h2 : d < 2 ^ fuel) :
    (splitTwosFrom fuel s d).2 % 2 = 1 ∧ 2 ^ s * d = 2 ^ (splitTwosFrom fuel s d).1 * (splitTwosFrom fuel s d).2 := by
  induction fuel generalizing s d with
  | zero => omega
  | succ n ih =>
    unfold splitTwosFrom
    split
    · obtain ⟨e1, e2⟩ := ih (s + 1) (d / 2) (by omega) (by omega)
      refine ⟨e1, ?_⟩
      rw [← e2, pow_succ, mul_assoc]
      congr 1
      omega
    · exact ⟨by simpa using ‹¬ d % 2 = 0›, rfl⟩

/-- The squarings of a Miller-Rabin round, from the j-th square on (40_modular.md R133). -/
theorem mrSquares_iff (n w d k j : Nat) : mrSquares n k (w ^ (2 ^ j * d) % n) = true ↔
    ∃ i, j < i ∧ i ≤ j + k ∧ w ^ (2 ^ i * d) % n = n - 1 := by
  induction k generalizing j with
  | zero =>
    simp only [mrSquares, Bool.false_eq_true, false_iff, not_exists]
    intro i h
    omega
  | succ m ih =>
    have e : (w ^ (2 ^ j * d) % n) * (w ^ (2 ^ j * d) % n) % n = w ^ (2 ^ (j + 1) * d) % n := by
      rw [← Nat.mul_mod, ← pow_add]
      congr 2
      ring
    simp only [mrSquares, Bool.or_eq_true, beq_iff_eq, e, ih]
    constructor
    · rintro (h | ⟨i, h1, h2, h3⟩)
      · exact ⟨j + 1, by omega, by omega, h⟩
      · exact ⟨i, by omega, by omega, h3⟩
    · rintro ⟨i, h1, h2, h3⟩
      by_cases hi : i = j + 1
      · subst hi
        exact .inl h3
      · exact .inr ⟨i, by omega, by omega, h3⟩

end Sys2Proof.Machine
end

