-- ==== Sys2Proof/Laws/Meanings.lean ====
section
/-! SUPPORT. Each command's arm of `exec` as its rule run by `runRule`, so that no proof unfolds a meaning. -/

namespace Sys2Proof.Machine

/-- The rule of a command, on the launch snapshot and the draws (40_modular.md to 43_binary_points.md). -/
def ruleOf : Instr → Regs → (Nat → Nat) → RuleOutcome
  | .mulmod rd rs1 rs2 => fun x _ => mulmodRule x rd rs1 rs2
  | .expmod rd rs1 rs2 => fun x _ => expmodRule x rd rs1 rs2
  | .invmod rd rs1 => fun x _ => invmodRule x rd rs1
  | .jacobi rd rs1 => fun x _ => jacobiRule x rd rs1
  | .sqrtmod rd rs1 => fun x draw => sqrtmodRule x draw rd rs1
  | .isprime rd rs1 => fun x draw => isprimeRule x draw rd rs1
  | .cvalid rd => fun x _ => cvalidRule x rd
  | .pnorm rd rs1 => fun x _ => pnormRule x rd rs1
  | .padd rd rs1 rs2 => fun x draw => paddRule x draw rd rs1 rs2
  | .psmul rd rs1 rs2 => fun x draw => psmulRule x draw rd rs1 rs2
  | .peq rd rs1 rs2 => fun x _ => peqRule x rd rs1 rs2
  | .gadd rd rs1 rs2 => fun x _ => gaddRule x rd rs1 rs2
  | .gshl rd rs1 rs2 => fun x _ => gshlRule x rd rs1 rs2
  | .gmul rd rs1 rs2 => fun x _ => gmulRule x rd rs1 rs2
  | .gmod rd rs1 rs2 => fun x _ => gmodRule x rd rs1 rs2
  | .gdeg rd rs1 => fun x _ => gdegRule x rd rs1
  | .gmulm rd rs1 rs2 => fun x _ => gmulmRule x rd rs1 rs2
  | .gexp rd rs1 rs2 => fun x _ => gexpRule x rd rs1 rs2
  | .ginv rd rs1 => fun x _ => ginvRule x rd rs1
  | .gsqrt rd rs1 => fun x _ => gsqrtRule x rd rs1
  | .bnorm rd rs1 => fun x _ => bnormRule x rd rs1
  | .badd rd rs1 rs2 => fun x draw => baddRule x draw rd rs1 rs2
  | .bsmul rd rs1 rs2 => fun x draw => bsmulRule x draw rd rs1 rs2

/-- A command's meaning is its rule as a completion (60_exceptions.md R262). -/
theorem exec_eq_runRule (i : Instr) (s : State) : exec i s = runRule (ruleOf i) s := by
  cases i <;> rfl

end Sys2Proof.Machine
end

