-- ==== Sys2Proof/Laws/State.lean ====
section
/-! SUPPORT. One lemma per field of State per update of the model (launch, completion, abort, reset, dropped write, STATUS
write), and the register file's read-after-write laws. Each update's fields are read off here, so that no proof unfolds a
record update. -/

namespace Sys2Proof.Machine

@[simp] theorem State.launch_regs (v : Word) (s : State) : (s.launch v).regs = s.regs := rfl
@[simp] theorem State.launch_irqen (v : Word) (s : State) : (s.launch v).irqen = s.irqen := rfl
@[simp] theorem State.launch_status (v : Word) (s : State) : (s.launch v).status = ⟨false, false, false, s.status.ovr, .none⟩ := rfl
@[simp] theorem State.launch_cmd (v : Word) (s : State) : (s.launch v).cmd = v := rfl
@[simp] theorem State.launch_engine (v : Word) (s : State) : (s.launch v).engine = .busy s.regs := rfl
@[simp] theorem State.launch_drawCount (v : Word) (s : State) : (s.launch v).drawCount = s.drawCount := rfl
@[simp] theorem State.launch_inputs (v : Word) (s : State) : (s.launch v).inputs = s.inputs := rfl
@[simp] theorem State.launch_reply (v : Word) (s : State) : (s.launch v).reply = s.reply := rfl

@[simp] theorem State.finish_regs (flag sent : Bool) (err : ErrCode) (s : State) : (s.finish flag sent err).regs = s.regs := rfl
@[simp] theorem State.finish_irqen (flag sent : Bool) (err : ErrCode) (s : State) : (s.finish flag sent err).irqen = s.irqen := rfl
@[simp] theorem State.finish_status (flag sent : Bool) (err : ErrCode) (s : State) : (s.finish flag sent err).status = ⟨true, flag, sent, s.status.ovr, err⟩ := rfl
@[simp] theorem State.finish_cmd (flag sent : Bool) (err : ErrCode) (s : State) : (s.finish flag sent err).cmd = s.cmd := rfl
@[simp] theorem State.finish_engine (flag sent : Bool) (err : ErrCode) (s : State) : (s.finish flag sent err).engine = .idle := rfl
@[simp] theorem State.finish_drawCount (flag sent : Bool) (err : ErrCode) (s : State) : (s.finish flag sent err).drawCount = s.drawCount + Config.mrRounds := rfl
@[simp] theorem State.finish_inputs (flag sent : Bool) (err : ErrCode) (s : State) : (s.finish flag sent err).inputs = s.inputs := rfl
@[simp] theorem State.finish_reply (flag sent : Bool) (err : ErrCode) (s : State) : (s.finish flag sent err).reply = s.reply := rfl

@[simp] theorem State.errorComplete_regs (code : ErrCode) (s : State) : (s.errorComplete code).regs = s.regs := rfl
@[simp] theorem State.errorComplete_irqen (code : ErrCode) (s : State) : (s.errorComplete code).irqen = s.irqen := rfl
@[simp] theorem State.errorComplete_status (code : ErrCode) (s : State) : (s.errorComplete code).status = ⟨true, false, false, s.status.ovr, code⟩ := rfl
@[simp] theorem State.errorComplete_cmd (code : ErrCode) (s : State) : (s.errorComplete code).cmd = s.cmd := rfl
@[simp] theorem State.errorComplete_engine (code : ErrCode) (s : State) : (s.errorComplete code).engine = .idle := rfl
@[simp] theorem State.errorComplete_drawCount (code : ErrCode) (s : State) : (s.errorComplete code).drawCount = s.drawCount + Config.mrRounds := rfl
@[simp] theorem State.errorComplete_inputs (code : ErrCode) (s : State) : (s.errorComplete code).inputs = s.inputs := rfl
@[simp] theorem State.errorComplete_reply (code : ErrCode) (s : State) : (s.errorComplete code).reply = s.reply := rfl

@[simp] theorem State.resultComplete_regs (r : Result) (s : State) : (s.resultComplete r).regs = s.regs.writeAll r.writes := rfl
@[simp] theorem State.resultComplete_irqen (r : Result) (s : State) : (s.resultComplete r).irqen = s.irqen := rfl
@[simp] theorem State.resultComplete_status (r : Result) (s : State) : (s.resultComplete r).status = ⟨true, r.flag, r.sent, s.status.ovr, .none⟩ := rfl
@[simp] theorem State.resultComplete_cmd (r : Result) (s : State) : (s.resultComplete r).cmd = s.cmd := rfl
@[simp] theorem State.resultComplete_engine (r : Result) (s : State) : (s.resultComplete r).engine = .idle := rfl
@[simp] theorem State.resultComplete_drawCount (r : Result) (s : State) : (s.resultComplete r).drawCount = s.drawCount + Config.mrRounds := rfl
@[simp] theorem State.resultComplete_inputs (r : Result) (s : State) : (s.resultComplete r).inputs = s.inputs := rfl
@[simp] theorem State.resultComplete_reply (r : Result) (s : State) : (s.resultComplete r).reply = s.reply := rfl

@[simp] theorem State.abort_regs (b : Bool) (s : State) : (s.abort b).regs = s.regs := rfl
@[simp] theorem State.abort_irqen (b : Bool) (s : State) : (s.abort b).irqen = b := rfl
@[simp] theorem State.abort_status (b : Bool) (s : State) : (s.abort b).status = ⟨true, false, false, s.status.ovr, .aborted⟩ := rfl
@[simp] theorem State.abort_cmd (b : Bool) (s : State) : (s.abort b).cmd = s.cmd := rfl
@[simp] theorem State.abort_engine (b : Bool) (s : State) : (s.abort b).engine = .idle := rfl
@[simp] theorem State.abort_drawCount (b : Bool) (s : State) : (s.abort b).drawCount = s.drawCount := rfl
@[simp] theorem State.abort_inputs (b : Bool) (s : State) : (s.abort b).inputs = s.inputs := rfl
@[simp] theorem State.abort_reply (b : Bool) (s : State) : (s.abort b).reply = s.reply := rfl

@[simp] theorem State.resetBlock_regs (s : State) : (s.resetBlock).regs = Regs.reset := rfl
@[simp] theorem State.resetBlock_irqen (s : State) : (s.resetBlock).irqen = false := rfl
@[simp] theorem State.resetBlock_status (s : State) : (s.resetBlock).status = Status.reset := rfl
@[simp] theorem State.resetBlock_cmd (s : State) : (s.resetBlock).cmd = 0 := rfl
@[simp] theorem State.resetBlock_engine (s : State) : (s.resetBlock).engine = .idle := rfl
@[simp] theorem State.resetBlock_drawCount (s : State) : (s.resetBlock).drawCount = s.drawCount := rfl
@[simp] theorem State.resetBlock_inputs (s : State) : (s.resetBlock).inputs = s.inputs := rfl
@[simp] theorem State.resetBlock_reply (s : State) : (s.resetBlock).reply = s.reply := rfl

@[simp] theorem State.dropWrite_regs (s : State) : (s.dropWrite).regs = s.regs := rfl
@[simp] theorem State.dropWrite_irqen (s : State) : (s.dropWrite).irqen = s.irqen := rfl
@[simp] theorem State.dropWrite_status (s : State) : (s.dropWrite).status = ⟨s.status.done, s.status.flag, s.status.sent, true, s.status.err⟩ := rfl
@[simp] theorem State.dropWrite_cmd (s : State) : (s.dropWrite).cmd = s.cmd := rfl
@[simp] theorem State.dropWrite_engine (s : State) : (s.dropWrite).engine = s.engine := rfl
@[simp] theorem State.dropWrite_drawCount (s : State) : (s.dropWrite).drawCount = s.drawCount := rfl
@[simp] theorem State.dropWrite_inputs (s : State) : (s.dropWrite).inputs = s.inputs := rfl
@[simp] theorem State.dropWrite_reply (s : State) : (s.dropWrite).reply = s.reply := rfl

@[simp] theorem State.writeStatus_regs (v : Word) (s : State) : (s.writeStatus v).regs = s.regs := rfl
@[simp] theorem State.writeStatus_irqen (v : Word) (s : State) : (s.writeStatus v).irqen = s.irqen := rfl
@[simp] theorem State.writeStatus_status (v : Word) (s : State) : (s.writeStatus v).status = ⟨s.status.done && !v.getLsbD 1, s.status.flag, s.status.sent, s.status.ovr && !v.getLsbD 4, s.status.err⟩ := rfl
@[simp] theorem State.writeStatus_cmd (v : Word) (s : State) : (s.writeStatus v).cmd = s.cmd := rfl
@[simp] theorem State.writeStatus_engine (v : Word) (s : State) : (s.writeStatus v).engine = s.engine := rfl
@[simp] theorem State.writeStatus_drawCount (v : Word) (s : State) : (s.writeStatus v).drawCount = s.drawCount := rfl
@[simp] theorem State.writeStatus_inputs (v : Word) (s : State) : (s.writeStatus v).inputs = s.inputs := rfl
@[simp] theorem State.writeStatus_reply (v : Word) (s : State) : (s.writeStatus v).reply = s.reply := rfl

@[simp] theorem State.isBusy_idle {s : State} (h : s.engine = .idle) : s.isBusy = false := by simp [State.isBusy, h]

@[simp] theorem State.isBusy_busy {s : State} {x : Regs} (h : s.engine = .busy x) : s.isBusy = true := by
  simp [State.isBusy, h]

/-- BUSY is the busy phase (10_state.md R39, R49). -/
theorem State.isBusy_iff (s : State) : s.isBusy = true ↔ ∃ x, s.engine = .busy x := by
  unfold State.isBusy
  cases s.engine <;> simp

theorem State.not_isBusy_iff (s : State) : s.isBusy = false ↔ s.engine = .idle := by
  unfold State.isBusy
  cases s.engine <;> simp

@[simp] theorem Regs.write_modp (x : Regs) (i : Reg) (v : Word) : (x.write i v).modp = x.modp := rfl
@[simp] theorem Regs.write_ca (x : Regs) (i : Reg) (v : Word) : (x.write i v).ca = x.ca := rfl
@[simp] theorem Regs.write_cb (x : Regs) (i : Reg) (v : Word) : (x.write i v).cb = x.cb := rfl
@[simp] theorem Regs.write_fpoly (x : Regs) (i : Reg) (v : Word) : (x.write i v).fpoly = x.fpoly := rfl

/-- A read after a write of the same data register gives the value written. -/
@[simp] theorem Regs.read_write_same (x : Regs) (i : Reg) (v : Word) : (x.write i v).read i = v := by
  simp [Regs.read, Regs.write]

/-- A write leaves every other data register alone (10_state.md R24: no register aliases another). -/
theorem Regs.read_write_other (x : Regs) {i j : Reg} (v : Word) (h : j ≠ i) : (x.write i v).read j = x.read j := by
  have h' : i.val ≠ j.val := fun e => h (Fin.ext e.symm)
  simp [Regs.read, Regs.write, Vector.getElem_set_ne, h']

@[simp] theorem Regs.writeAll_nil (x : Regs) : x.writeAll [] = x := rfl

@[simp] theorem Regs.writeAll_cons (x : Regs) (w : Reg × Word) (ws : List (Reg × Word)) :
    x.writeAll (w :: ws) = (x.write w.1 w.2).writeAll ws := rfl

@[simp] theorem Regs.writeAll_modp (x : Regs) (ws : List (Reg × Word)) : (x.writeAll ws).modp = x.modp := by
  induction ws generalizing x with
  | nil => rfl
  | cons w ws ih => simp [ih]

@[simp] theorem Regs.writeAll_ca (x : Regs) (ws : List (Reg × Word)) : (x.writeAll ws).ca = x.ca := by
  induction ws generalizing x with
  | nil => rfl
  | cons w ws ih => simp [ih]

@[simp] theorem Regs.writeAll_cb (x : Regs) (ws : List (Reg × Word)) : (x.writeAll ws).cb = x.cb := by
  induction ws generalizing x with
  | nil => rfl
  | cons w ws ih => simp [ih]

@[simp] theorem Regs.writeAll_fpoly (x : Regs) (ws : List (Reg × Word)) : (x.writeAll ws).fpoly = x.fpoly := by
  induction ws generalizing x with
  | nil => rfl
  | cons w ws ih => simp [ih]

/-- A data register named by no write keeps its value. -/
theorem Regs.read_writeAll_other (x : Regs) {j : Reg} (ws : List (Reg × Word)) (h : ∀ w ∈ ws, j ≠ w.1) :
    (x.writeAll ws).read j = x.read j := by
  induction ws generalizing x with
  | nil => rfl
  | cons w ws ih =>
    rw [Regs.writeAll_cons, ih _ (fun v hv => h v (List.mem_cons_of_mem _ hv)),
      Regs.read_write_other _ _ (h w (List.mem_cons_self ..))]

/-- The three registers of a triple are distinct (30_encoding.md R96). -/
theorem regPlus_ne (k : Reg) : regPlus k 1 ≠ k ∧ regPlus k 2 ≠ k ∧ regPlus k 2 ≠ regPlus k 1 := by
  revert k
  decide

/-- For a triple base k ≤ 29, Dk+j is the register of that number (00_scope.md R14). -/
theorem regPlus_val {k : Reg} (h : isTripleBase k = true) {j : Nat} (hj : j ≤ 2) : (regPlus k j).val = k.val + j := by
  have h' : k.val ≤ 29 := by simpa [isTripleBase] using h
  simp only [regPlus, Fin.val_ofNat]
  omega

/-- The three writes of a triple land in the three registers (00_scope.md R14). -/
theorem Regs.read_writeAll_triple (x : Regs) (k : Reg) (t : Triple Nat) :
    (x.writeAll (tripleWrites k t)).read k = BitVec.ofNat 64 t.x ∧
    (x.writeAll (tripleWrites k t)).read (regPlus k 1) = BitVec.ofNat 64 t.y ∧
    (x.writeAll (tripleWrites k t)).read (regPlus k 2) = BitVec.ofNat 64 t.z := by
  obtain ⟨h1, h2, h3⟩ := regPlus_ne k
  simp only [tripleWrites, Regs.writeAll_cons, Regs.writeAll_nil, Regs.read_write_same, and_true]
  rw [Regs.read_write_other _ _ h2.symm, Regs.read_write_other _ _ h1.symm, Regs.read_write_other _ _ h3.symm]
  simp

end Sys2Proof.Machine
end

