-- ==== Sys2Proof/Laws/Completion.lean ====
section
/-! SUPPORT. What a completion does, said once: a meaning runs its rule on the launch snapshot of a busy engine; an error
completion writes nothing; a result completion writes the rule's list (60_exceptions.md R262, R263). -/

namespace Sys2Proof.Machine

/-- A meaning on a busy engine always answers next, with its rule's completion. -/
theorem runRule_busy {s : State} {x : Regs} (h : s.engine = .busy x)
    (rule : Regs → (Nat → Nat) → RuleOutcome) : runRule rule s = .next (s.completeWith (rule x s.draws)) := by
  simp [runRule, h]

/-- A meaning on an idle engine stops: the completion is not enabled (log 9). -/
theorem runRule_idle {s : State} (h : s.engine = .idle) (rule : Regs → (Nat → Nat) → RuleOutcome) :
    runRule rule s = .fault .noCommandInFlight := by
  simp [runRule, h]

/-- If a meaning answers next, a command was in flight and the answer is its completion. -/
theorem runRule_next {rule : Regs → (Nat → Nat) → RuleOutcome} {s t : State} (h : runRule rule s = .next t) :
    ∃ x, s.engine = .busy x ∧ t = s.completeWith (rule x s.draws) := by
  cases he : s.engine with
  | idle => simp [runRule, he] at h
  | busy x =>
    refine ⟨x, rfl, ?_⟩
    simpa [runRule, he] using h.symm

@[simp] theorem completeWith_error (code : ErrCode) (s : State) :
    s.completeWith (.error code) = s.errorComplete code := rfl

@[simp] theorem completeWith_ok (r : Result) (s : State) : s.completeWith (.ok r) = s.resultComplete r := rfl

/-- An error completion (60_exceptions.md R263). -/
theorem completed_errorComplete (code : ErrCode) (s : State) :
    Completed s (s.errorComplete code) code false false := by
  constructor <;> rfl

/-- An error completion writes no data register (60_exceptions.md R263). -/
theorem writesNone_errorComplete (code : ErrCode) (s : State) : WritesNone s (s.errorComplete code) := fun _ => rfl

/-- A result completion (60_exceptions.md R262). -/
theorem completed_resultComplete (r : Result) (s : State) :
    Completed s (s.resultComplete r) .none r.flag r.sent := by
  constructor <;> simp

/-- A result of one write writes that register only. -/
theorem writesOne_resultComplete (rd : Reg) (v : Word) (flag sent : Bool) (s : State) :
    WritesOne s (s.resultComplete ⟨[(rd, v)], flag, sent⟩) rd v := by
  refine ⟨by simp, fun j hj => ?_⟩
  simp [Regs.read_write_other _ _ hj]

/-- A result without writes writes nothing. -/
theorem writesNone_resultComplete (flag sent : Bool) (s : State) :
    WritesNone s (s.resultComplete ⟨[], flag, sent⟩) := fun _ => by simp

/-- A point result writes its triple only. -/
theorem writesTriple_resultComplete (k : Reg) (v : Triple Nat) (flag sent : Bool) (s : State) :
    WritesTriple s (s.resultComplete ⟨tripleWrites k v, flag, sent⟩) k v := by
  obtain ⟨h0, h1, h2⟩ := Regs.read_writeAll_triple s.regs k v
  refine ⟨h0, h1, h2, fun j j0 j1 j2 => ?_⟩
  simp only [State.resultComplete_regs]
  refine Regs.read_writeAll_other _ _ fun w hw => ?_
  simp only [tripleWrites, List.mem_cons, List.not_mem_nil, or_false] at hw
  rcases hw with rfl | rfl | rfl <;> assumption

/-- On a busy engine `exec` answers next, for every command: its rule's completion. -/
theorem exec_busy (i : Instr) {s : State} {x : Regs} (h : s.engine = .busy x) :
    exec i s = .next (s.completeWith (ruleOf i x s.draws)) :=
  (exec_eq_runRule i s).trans (runRule_busy h _)

/-- If `exec` answers next, a command was in flight and the answer is its rule's completion. -/
theorem exec_next {i : Instr} {s t : State} (h : exec i s = .next t) :
    ∃ x, s.engine = .busy x ∧ t = s.completeWith (ruleOf i x s.draws) :=
  runRule_next (exec_eq_runRule i s ▸ h)

/-- After any completion the engine is idle and DONE is set (60_exceptions.md R260). -/
theorem completeWith_idle (o : RuleOutcome) (s : State) :
    (s.completeWith o).engine = .idle ∧ (s.completeWith o).status.done = true := by
  cases o <;> exact ⟨rfl, rfl⟩

/-- The completion of the latched word, on a busy engine, is a completion with some outcome. -/
theorem completeLatched_busy {s : State} {x : Regs} (h : s.engine = .busy x) :
    ∃ o, completeLatched s = .next (s.completeWith o) := by
  unfold completeLatched
  cases decode s.cmd with
  | error e => exact ⟨.error .illegal, rfl⟩
  | ok i => exact ⟨_, exec_busy i h⟩

/-- The engine's step, said once: nothing on an idle engine, else a completion. -/
theorem engineStep_cases (s : State) :
    (s.engine = .idle ∧ engineStep s = .next s) ∨
    (∃ x o, s.engine = .busy x ∧ engineStep s = .next (s.completeWith o)) := by
  cases he : s.engine with
  | idle => exact .inl ⟨rfl, by simp [engineStep, he]⟩
  | busy x =>
    obtain ⟨o, ho⟩ := completeLatched_busy he
    exact .inr ⟨x, o, rfl, by simpa [engineStep, he] using ho⟩

/-- A host write changes nothing of the block, or is one of: a CTRL write, a STATUS write, a launch, a dropped write, a
register store (20_memory.md R64). -/
theorem writeReg_cases (v : Word) (s : State) (r : WindowReg) :
    s.writeReg v r = s ∨ s.writeReg v r = s.writeCtrl v ∨ s.writeReg v r = s.writeStatus v ∨
    (s.engine = .idle ∧ s.writeReg v r = s.launch v) ∨
    (s.isBusy = true ∧ s.writeReg v r = s.dropWrite) ∨
    (s.engine = .idle ∧ ∃ regs, s.writeReg v r = { s with regs := regs }) := by
  cases r with
  | id => exact .inl rfl
  | reserved => exact .inl rfl
  | ctrl => exact .inr (.inl rfl)
  | status => exact .inr (.inr (.inl rfl))
  | cmd =>
    cases hb : s.isBusy with
    | true => exact .inr (.inr (.inr (.inr (.inl ⟨rfl, by simp [State.writeReg, State.writeWhenIdle, hb]⟩))))
    | false =>
      exact .inr (.inr (.inr (.inl
        ⟨(State.not_isBusy_iff s).1 hb, by simp [State.writeReg, State.writeWhenIdle, hb]⟩)))
  | _ =>
    cases hb : s.isBusy with
    | true => exact .inr (.inr (.inr (.inr (.inl ⟨rfl, by simp [State.writeReg, State.writeWhenIdle, hb]⟩))))
    | false =>
      refine .inr (.inr (.inr (.inr (.inr ⟨(State.not_isBusy_iff s).1 hb, ?_⟩))))
      simp only [State.writeReg, State.writeWhenIdle, hb, Bool.false_eq_true, if_false]
      exact ⟨_, rfl⟩

/-- A CTRL write is a reset, an abort of the command in flight, or sets IRQEN only (10_state.md R35 to R37). -/
theorem writeCtrl_cases (v : Word) (s : State) :
    s.writeCtrl v = s.resetBlock ∨
    (s.isBusy = true ∧ s.writeCtrl v = s.abort (v.getLsbD 0)) ∨
    s.writeCtrl v = { s with irqen := v.getLsbD 0 } := by
  unfold State.writeCtrl
  split
  · exact .inl rfl
  · split
    · rename_i h
      exact .inr (.inl ⟨by simp_all, rfl⟩)
    · exact .inr (.inr rfl)

end Sys2Proof.Machine
end

