-- ==== Sys2Proof/Laws/Encoding.lean ====
section
/-! SUPPORT. The fields of an encoded word (30_encoding.md R91, R99), and the opcode map's rows. -/

namespace Sys2Proof

/-- The packed word as a number: the fields do not overlap (30_encoding.md R91). -/
theorem packWord_toNat {op : Nat} (hop : op < 256) (rd rs1 rs2 : Reg) :
    (packWord op rd rs1 rs2).toNat = op + rd.val * 2 ^ 8 + rs1.val * 2 ^ 13 + rs2.val * 2 ^ 18 := by
  have h1 : op ||| (rd.val <<< 8) = op + rd.val * 2 ^ 8 := by
    rw [Nat.or_comm, ← Nat.shiftLeft_add_eq_or_of_lt hop, Nat.shiftLeft_eq]
    omega
  have b1 : op + rd.val * 2 ^ 8 < 2 ^ 13 := by omega
  have h2 : (op + rd.val * 2 ^ 8) ||| (rs1.val <<< 13) = op + rd.val * 2 ^ 8 + rs1.val * 2 ^ 13 := by
    rw [Nat.or_comm, ← Nat.shiftLeft_add_eq_or_of_lt b1, Nat.shiftLeft_eq]
    omega
  have b2 : op + rd.val * 2 ^ 8 + rs1.val * 2 ^ 13 < 2 ^ 18 := by omega
  have h3 : (op + rd.val * 2 ^ 8 + rs1.val * 2 ^ 13) ||| (rs2.val <<< 18) =
      op + rd.val * 2 ^ 8 + rs1.val * 2 ^ 13 + rs2.val * 2 ^ 18 := by
    rw [Nat.or_comm, ← Nat.shiftLeft_add_eq_or_of_lt b2, Nat.shiftLeft_eq]
    omega
  rw [packWord, h1, h2, h3, BitVec.toNat_ofNat]
  exact Nat.mod_eq_of_lt (by omega)

theorem fieldOp_toNat (w : Word) : (fieldOp w).toNat = w.toNat % 256 := by
  simp [fieldOp]

theorem fieldRd_val (w : Word) : (fieldRd w).val = w.toNat / 2 ^ 8 % 32 := by
  simp [fieldRd, Nat.shiftRight_eq_div_pow]

theorem fieldRs1_val (w : Word) : (fieldRs1 w).val = w.toNat / 2 ^ 13 % 32 := by
  simp [fieldRs1, Nat.shiftRight_eq_div_pow]

theorem fieldRs2_val (w : Word) : (fieldRs2 w).val = w.toNat / 2 ^ 18 % 32 := by
  simp [fieldRs2, Nat.shiftRight_eq_div_pow]

theorem fieldReserved_toNat (w : Word) : (fieldReserved w).toNat = w.toNat / 2 ^ 23 := by
  have h : w.toNat < 2 ^ 64 := w.isLt
  simp only [fieldReserved, BitVec.extractLsb'_toNat, Nat.shiftRight_eq_div_pow]
  omega

theorem fieldOp_packWord {op : Nat} (hop : op < 256) (rd rs1 rs2 : Reg) :
    fieldOp (packWord op rd rs1 rs2) = BitVec.ofNat 8 op := by
  apply BitVec.eq_of_toNat_eq
  rw [fieldOp_toNat, packWord_toNat hop, BitVec.toNat_ofNat]
  omega

theorem fieldRd_packWord {op : Nat} (hop : op < 256) (rd rs1 rs2 : Reg) :
    fieldRd (packWord op rd rs1 rs2) = rd := by
  apply Fin.ext
  rw [fieldRd_val, packWord_toNat hop]
  omega

theorem fieldRs1_packWord {op : Nat} (hop : op < 256) (rd rs1 rs2 : Reg) :
    fieldRs1 (packWord op rd rs1 rs2) = rs1 := by
  apply Fin.ext
  rw [fieldRs1_val, packWord_toNat hop]
  omega

theorem fieldRs2_packWord {op : Nat} (hop : op < 256) (rd rs1 rs2 : Reg) :
    fieldRs2 (packWord op rd rs1 rs2) = rs2 := by
  apply Fin.ext
  rw [fieldRs2_val, packWord_toNat hop]
  omega

/-- An encoded word has bits 63:23 clear (30_encoding.md R90). -/
theorem fieldReserved_packWord {op : Nat} (hop : op < 256) (rd rs1 rs2 : Reg) :
    fieldReserved (packWord op rd rs1 rs2) = 0 := by
  apply BitVec.eq_of_toNat_eq
  rw [fieldReserved_toNat, packWord_toNat hop]
  simp only [BitVec.toNat_zero, BitVec.ofNat_eq_ofNat]
  omega

/-- Two rows of the opcode map never share an opcode (30_encoding.md R94). -/
theorem opcodeMap_distinct : (opcodeMap.map (fun r => r.op)).Nodup := by decide

/-- The opcode map has the 23 rows of 30_encoding.md R94. -/
theorem opcodeMap_length : opcodeMap.length = 23 := by decide

/-- A packed word decodes as its opcode's row says. -/
theorem decode_packWord {op : Nat} (hop : op < 256) (rd rs1 rs2 : Reg) {row : OpcodeRow}
    (h : findRow (BitVec.ofNat 8 op) = some row) : decode (packWord op rd rs1 rs2) = buildFields row rd rs1 rs2 := by
  unfold decode
  simp [fieldReserved_packWord hop, fieldOp_packWord hop, fieldRd_packWord hop, fieldRs1_packWord hop,
    fieldRs2_packWord hop, h]

/-- A word whose reserved bits are clear is packed from its fields. -/
theorem word_eq_packWord {w : Word} (h : fieldReserved w = 0) :
    w = packWord (fieldOp w).toNat (fieldRd w) (fieldRs1 w) (fieldRs2 w) := by
  apply BitVec.eq_of_toNat_eq
  have hr := fieldReserved_toNat w
  rw [packWord_toNat (fieldOp w).isLt, fieldOp_toNat, fieldRd_val, fieldRs1_val, fieldRs2_val]
  rw [h] at hr
  simp only [BitVec.ofNat_eq_ofNat, BitVec.toNat_zero] at hr
  omega

/-- A row that is found is a row of the map, under its opcode. -/
theorem findRow_some {op : BitVec 8} {row : OpcodeRow} (h : findRow op = some row) : row ∈ opcodeMap ∧ row.op = op := by
  unfold findRow at h
  exact ⟨List.mem_of_find?_eq_some h, by simpa using List.find?_some h⟩

/-- What a word that decodes has passed. -/
theorem buildFields_ok {row : OpcodeRow} {rd rs1 rs2 : Reg} {i : Instr} (h : buildFields row rd rs1 rs2 = .ok i) :
    fieldFault row.rd rd = none ∧ fieldFault row.rs1 rs1 = none ∧ fieldFault row.rs2 rs2 = none ∧
    i = row.build rd rs1 rs2 := by
  unfold buildFields at h
  split at h <;> simp_all

/-- A word fails at its fields iff one of them fails. -/
theorem buildFields_error_iff (row : OpcodeRow) (rd rs1 rs2 : Reg) : (∃ e, buildFields row rd rs1 rs2 = .error e) ↔
    (∃ e, fieldFault row.rd rd = some e) ∨ (∃ e, fieldFault row.rs1 rs1 = some e) ∨
    (∃ e, fieldFault row.rs2 rs2 = some e) := by
  unfold buildFields
  split <;> simp_all

/-- When a field fails (30_encoding.md R95 (c), (d)). -/
theorem fieldFault_iff (k : FieldKind) (r : Reg) : (∃ e, fieldFault k r = some e) ↔
    (k = .triple ∧ 29 < r.val) ∨ (k = .unused ∧ r.val ≠ 0) := by
  cases k with
  | reg => simp [fieldFault]
  | triple =>
    by_cases h : r.val ≤ 29 <;> simp [fieldFault, isTripleBase, h]
    omega
  | unused => by_cases h : r = 0 <;> simp [fieldFault, h, Fin.val_eq_zero_iff]

end Sys2Proof
end

