-- ==== Sys2Proof/Laws/Poly.lean ====
section
/-! SUPPORT. The bit masks of Machine/Poly.lean as polynomials over GF(2) in the sense of the library: `toPoly` sends a
natural number to the polynomial with its bits as coefficients (10_state.md R31), and turns exclusive or, `clmul` and
`prem` into sum, product and remainder. -/

namespace Sys2Proof.Machine

/-- `poly(v)` as an element of GF(2)[z] (00_scope.md R12). -/
noncomputable def toPoly (n : Nat) : Polynomial (ZMod 2) :=
  ∑ i ∈ Finset.range (n.log2 + 1), if n.testBit i then Polynomial.X ^ i else 0

theorem testBit_le_log2 {n i : Nat} (h : n.testBit i = true) : i < n.log2 + 1 := by
  by_contra hc
  have : n < 2 ^ i := lt_of_lt_of_le (lt_two_pow_log2_succ n) (Nat.pow_le_pow_right (by norm_num) (by omega))
  rw [Nat.testBit_lt_two_pow this] at h
  exact absurd h (by decide)

/-- Bit i is the coefficient of z^i (10_state.md R31). -/
theorem toPoly_coeff (n i : Nat) : (toPoly n).coeff i = if n.testBit i then 1 else 0 := by
  have h : ∀ j, ((if n.testBit j then Polynomial.X ^ j else 0 : Polynomial (ZMod 2))).coeff i =
      if i = j then (if n.testBit i then 1 else 0) else 0 := by
    intro j
    by_cases hj : i = j
    · subst hj
      split <;> simp
    · split <;> simp [Polynomial.coeff_X_pow, hj]
  rw [toPoly, Polynomial.finsetSum_coeff, Finset.sum_congr rfl (fun j _ => h j), Finset.sum_ite_eq]
  split
  · rfl
  · rename_i hi
    have : ¬ n.testBit i = true := fun ht => hi (Finset.mem_range.2 (testBit_le_log2 ht))
    simp [this]

@[simp] theorem toPoly_zero : toPoly 0 = 0 := by
  ext i
  simp [toPoly_coeff]

@[simp] theorem toPoly_one : toPoly 1 = 1 := by
  ext i
  rw [toPoly_coeff, Polynomial.coeff_one]
  simp [Nat.testBit_one_eq_true_iff_self_eq_zero]

/-- Different bit masks are different polynomials. -/
theorem toPoly_injective : Function.Injective toPoly := by
  intro a b h
  apply Nat.eq_of_testBit_eq
  intro i
  have hc := congrArg (fun P => Polynomial.coeff P i) h
  simp only [toPoly_coeff] at hc
  cases ha : a.testBit i <;> cases hb : b.testBit i <;> simp_all

/-- Addition is exclusive or (42_gf2_poly.md R190). -/
@[simp] theorem toPoly_xor (a b : Nat) : toPoly (a ^^^ b) = toPoly a + toPoly b := by
  ext i
  rw [Polynomial.coeff_add, toPoly_coeff, toPoly_coeff, toPoly_coeff, Nat.testBit_xor]
  cases a.testBit i <;> cases b.testBit i <;> decide

/-- A left shift by s multiplies by z^s (42_gf2_poly.md R193). -/
@[simp] theorem toPoly_shiftLeft (a s : Nat) : toPoly (a <<< s) = toPoly a * Polynomial.X ^ s := by
  ext i
  rw [toPoly_coeff, Polynomial.coeff_mul_X_pow', Nat.testBit_shiftLeft, toPoly_coeff]
  by_cases h : s ≤ i <;> simp [h]

theorem toPoly_clmulBelow (P Q n : Nat) : toPoly (clmulBelow P Q n) =
    (∑ i ∈ Finset.range n, if P.testBit i then Polynomial.X ^ i else 0) * toPoly Q := by
  induction n with
  | zero => simp [clmulBelow]
  | succ n ih =>
    rw [clmulBelow, toPoly_xor, ih, Finset.sum_range_succ, add_mul, add_comm]
    congr 1
    split
    · rw [toPoly_shiftLeft, mul_comm]
    · simp

/-- `clmul` is the product in GF(2)[z] (00_scope.md R12). -/
@[simp] theorem toPoly_clmul (P Q : Nat) : toPoly (clmul P Q) = toPoly P * toPoly Q := toPoly_clmulBelow P Q _

theorem toPoly_eq_zero_iff (n : Nat) : toPoly n = 0 ↔ n = 0 := by
  rw [← toPoly_zero]
  exact toPoly_injective.eq_iff

/-- `deg` is the degree (00_scope.md R12). -/
theorem toPoly_natDegree {n : Nat} (h : n ≠ 0) : (toPoly n).natDegree = n.log2 := by
  apply le_antisymm
  · rw [Polynomial.natDegree_le_iff_coeff_eq_zero]
    intro j hj
    rw [toPoly_coeff, if_neg]
    intro ht
    have := testBit_le_log2 ht
    omega
  · apply Polynomial.le_natDegree_of_ne_zero
    rw [toPoly_coeff, Nat.testBit_log2 h]
    simp

/-- Every polynomial over GF(2) is a bit mask. -/
theorem toPoly_surjective : Function.Surjective toPoly := by
  intro P
  induction P using Polynomial.induction_on' with
  | add p q hp hq =>
    obtain ⟨a, rfl⟩ := hp
    obtain ⟨b, rfl⟩ := hq
    exact ⟨a ^^^ b, toPoly_xor a b⟩
  | monomial n c =>
    fin_cases c
    · exact ⟨0, by rw [toPoly_zero]; exact (Polynomial.monomial_zero_right n).symm⟩
    · refine ⟨1 <<< n, ?_⟩
      rw [toPoly_shiftLeft, toPoly_one, one_mul, ← Polynomial.monomial_one_right_eq_X_pow]
      rfl

theorem deg_eq_log2 {n : Nat} (h : n ≠ 0) : deg n = (n.log2 : Int) := by simp [deg, h]

/-- A smaller degree is a smaller power of two. -/
theorem deg_lt_iff {a b : Nat} (hb : b ≠ 0) : deg a < deg b ↔ a < 2 ^ b.log2 := by
  rw [deg_eq_log2 hb]
  by_cases ha : a = 0
  · subst ha
    simp [deg]
    omega
  · rw [deg_eq_log2 ha]
    constructor
    · intro h
      exact lt_of_lt_of_le (lt_two_pow_log2_succ a) (Nat.pow_le_pow_right (by norm_num) (by omega))
    · intro h
      have := (Nat.log2_lt ha).2 h
      exact_mod_cast this

/-- One reduction step lowers the degree (42_gf2_poly.md R196). -/
theorem reduce_lt {R M : Nat} (hM : M ≠ 0) (h : M.log2 ≤ R.log2) (hR : R ≠ 0) :
    R ^^^ (M <<< (R.log2 - M.log2)) < 2 ^ R.log2 := by
  have hS : M <<< (R.log2 - M.log2) < 2 ^ (R.log2 + 1) := by
    rw [Nat.shiftLeft_eq]
    calc M * 2 ^ (R.log2 - M.log2) < 2 ^ (M.log2 + 1) * 2 ^ (R.log2 - M.log2) :=
          Nat.mul_lt_mul_of_pos_right (lt_two_pow_log2_succ M) (by positivity)
      _ = 2 ^ (R.log2 + 1) := by rw [← pow_add]; congr 1; omega
  have hX : R ^^^ (M <<< (R.log2 - M.log2)) < 2 ^ (R.log2 + 1) := Nat.xor_lt_two_pow (lt_two_pow_log2_succ R) hS
  by_contra hc
  have hb : (R ^^^ (M <<< (R.log2 - M.log2))).testBit R.log2 = true := by
    rw [Nat.testBit_eq_decide_div_mod_eq]
    have : (R ^^^ (M <<< (R.log2 - M.log2))) / 2 ^ R.log2 = 1 := by
      apply Nat.div_eq_of_lt_le <;> [omega; skip]
      rw [pow_succ] at hX
      omega
    simp [this]
  rw [Nat.testBit_xor, Nat.testBit_log2 hR, Nat.testBit_shiftLeft] at hb
  have : R.log2 - (R.log2 - M.log2) = M.log2 := by omega
  simp [this, Nat.testBit_log2 hM] at hb

/-- The reduction loop ends below the modulus, at something congruent to where it began. -/
theorem premLoop_spec {M : Nat} (hM : M ≠ 0) (fuel R : Nat) (h : R < 2 ^ fuel) :
    deg (premLoop M fuel R) < deg M ∧
    ∃ Q, toPoly R = toPoly Q * toPoly M + toPoly (premLoop M fuel R) := by
  induction fuel generalizing R with
  | zero =>
    obtain rfl : R = 0 := by omega
    refine ⟨?_, 0, by simp [premLoop]⟩
    rw [deg_eq_log2 hM]
    simp [premLoop, deg]
    omega
  | succ n ih =>
    unfold premLoop
    split
    · rename_i hlt
      exact ⟨hlt, 0, by simp⟩
    · rename_i hge
      have hR : R ≠ 0 := by
        rintro rfl
        apply hge
        rw [deg_eq_log2 hM]
        simp [deg]
        omega
      have hle : M.log2 ≤ R.log2 := by
        rw [deg_eq_log2 hM, deg_eq_log2 hR] at hge
        omega
      have hn : R.log2 ≤ n := by
        have := (Nat.log2_lt hR).2 h
        omega
      obtain ⟨h1, Q, hQ⟩ := ih _ (lt_of_lt_of_le (reduce_lt hM hle hR) (Nat.pow_le_pow_right (by norm_num) hn))
      refine ⟨h1, Q ^^^ (1 <<< (R.log2 - M.log2)), ?_⟩
      rw [toPoly_xor, toPoly_shiftLeft] at hQ
      rw [toPoly_xor, toPoly_shiftLeft, toPoly_one, one_mul, add_mul, add_right_comm, ← hQ, add_assoc,
        mul_comm (Polynomial.X ^ _), CharTwo.add_self_eq_zero, add_zero]

/-- `prem(P, M)` has a degree below that of M and differs from P by a multiple of M (00_scope.md R12). -/
theorem prem_spec {M : Nat} (hM : M ≠ 0) (P : Nat) :
    deg (prem P M) < deg M ∧ ∃ Q, toPoly P = toPoly Q * toPoly M + toPoly (prem P M) :=
  premLoop_spec hM _ P (lt_of_lt_of_le (lt_two_pow_log2_succ P) (Nat.pow_le_pow_right (by norm_num) (by omega)))

end Sys2Proof.Machine
end

