-- ==== Sys2Proof/Laws/Field.lean ====
section
/-! SUPPORT. The ring GF(2)[z]/(f): `fieldClass f` sends a bit mask to its class, which turns the operations of
Machine/Poly.lean into those of the ring, and remainders into representatives (42_gf2_poly.md R190, R191). -/

namespace Sys2Proof.Machine

open Polynomial

/-- The remainder as an instance of `IsRemainder` (00_scope.md R12). -/
theorem prem_isRemainder {M : Nat} (hM : M ≠ 0) (P : Nat) : IsRemainder P M (prem P M) := by
  obtain ⟨h, Q, hQ⟩ := prem_spec hM P
  exact ⟨h, Q, toPoly_injective (by simpa using hQ)⟩

/-- A remainder is a reduced representative of the same class. -/
theorem isRemainder_iff_dvd {P M R : Nat} :
    IsRemainder P M R ↔ deg R < deg M ∧ toPoly M ∣ toPoly P - toPoly R := by
  constructor
  · rintro ⟨h, Q, rfl⟩
    exact ⟨h, toPoly Q, by simp [mul_comm]⟩
  · rintro ⟨h, Q, hQ⟩
    obtain ⟨q, rfl⟩ := toPoly_surjective Q
    refine ⟨h, q, toPoly_injective ?_⟩
    rw [toPoly_xor, toPoly_clmul]
    linear_combination hQ

/-- The class of a bit mask in GF(2)[z]/(f). -/
noncomputable def fieldClass (f n : Nat) : AdjoinRoot (toPoly f) := AdjoinRoot.mk (toPoly f) (toPoly n)

theorem fieldClass_eq_iff {f a b : Nat} : fieldClass f a = fieldClass f b ↔ toPoly f ∣ toPoly a - toPoly b :=
  AdjoinRoot.mk_eq_mk

theorem fieldClass_zero (f : Nat) : fieldClass f 0 = 0 := by simp [fieldClass]

theorem fieldClass_one (f : Nat) : fieldClass f 1 = 1 := by simp [fieldClass]

theorem fieldClass_xor (f a b : Nat) : fieldClass f (a ^^^ b) = fieldClass f a + fieldClass f b := by simp [fieldClass]

theorem fieldClass_clmul (f a b : Nat) : fieldClass f (clmul a b) = fieldClass f a * fieldClass f b := by simp [fieldClass]

theorem fieldClass_prem {f : Nat} (hf : f ≠ 0) (a : Nat) : fieldClass f (prem a f) = fieldClass f a := by
  symm
  rw [fieldClass_eq_iff]
  exact (isRemainder_iff_dvd.1 (prem_isRemainder hf a)).2

theorem fieldClass_fieldMul {f : Nat} (hf : f ≠ 0) (a b : Nat) :
    fieldClass f (fieldMul f a b) = fieldClass f a * fieldClass f b := by
  rw [fieldMul, fieldClass_prem hf, fieldClass_clmul]

theorem fieldClass_polyPow (f P k : Nat) : fieldClass f (polyPow P k) = fieldClass f P ^ k := by
  induction k with
  | zero => simp [polyPow, fieldClass_one]
  | succ n ih => rw [polyPow, fieldClass_clmul, ih, pow_succ]

theorem fieldClass_polyPowMod {f : Nat} (hf : f ≠ 0) (P k : Nat) :
    fieldClass f (polyPowMod P k f) = fieldClass f P ^ k := by
  rw [polyPowMod, binaryPower_hom (fieldMul f) (fieldClass f) (fieldClass_fieldMul hf), fieldClass_prem hf,
    fieldClass_prem hf, fieldClass_one, one_mul]

/-- Remainders are the reduced representatives. -/
theorem isRemainder_iff {P M R : Nat} : IsRemainder P M R ↔ deg R < deg M ∧ fieldClass M P = fieldClass M R := by
  rw [isRemainder_iff_dvd, fieldClass_eq_iff]

theorem deg_prem_lt {f : Nat} (hf : f ≠ 0) (a : Nat) : deg (prem a f) < deg f := (prem_spec hf a).1

theorem deg_polyPowMod_lt {f : Nat} (hf : f ≠ 0) (P k : Nat) : deg (polyPowMod P k f) < deg f :=
  binaryLoop_keeps _ (fun a => deg a < deg f) (fun _ _ _ _ => deg_prem_lt hf _) _ _ _ _ (deg_prem_lt hf _)
    (deg_prem_lt hf _)

theorem deg_xor_lt {f a b : Nat} (hf : f ≠ 0) (ha : deg a < deg f) (hb : deg b < deg f) : deg (a ^^^ b) < deg f := by
  rw [deg_lt_iff hf] at *
  exact Nat.xor_lt_two_pow ha hb

/-- The degree of a product is the sum of the degrees. -/
theorem clmul_log2 {g h : Nat} (hg : g ≠ 0) (hh : h ≠ 0) : clmul g h ≠ 0 ∧ (clmul g h).log2 = g.log2 + h.log2 := by
  have g0 : toPoly g ≠ 0 := by rwa [Ne, toPoly_eq_zero_iff]
  have h0 : toPoly h ≠ 0 := by rwa [Ne, toPoly_eq_zero_iff]
  have hne : clmul g h ≠ 0 := by
    rw [Ne, ← toPoly_eq_zero_iff, toPoly_clmul]
    exact mul_ne_zero g0 h0
  refine ⟨hne, ?_⟩
  rw [← toPoly_natDegree hne, toPoly_clmul, Polynomial.natDegree_mul g0 h0, toPoly_natDegree hg, toPoly_natDegree hh]

/-- The factor search over the `n` bit masks from `d` on. -/
theorem noFactorFrom_iff (f n d : Nat) : noFactorFrom f n d = true ↔ ∀ g, d ≤ g → g < d + n → prem f g ≠ 0 := by
  induction n generalizing d with
  | zero =>
    simp only [noFactorFrom, true_iff]
    intro g h1 h2
    omega
  | succ m ih =>
    simp only [noFactorFrom, Bool.and_eq_true, bne_iff_ne, ih]
    constructor
    · rintro ⟨h1, h2⟩ g hg1 hg2
      by_cases h : g = d
      · subst h
        exact h1
      · exact h2 g (by omega) (by omega)
    · intro h
      exact ⟨h d (le_refl _) (by omega), fun g h1 h2 => h g (by omega) (by omega)⟩

end Sys2Proof.Machine
end

