-- ==== Sys2Proof/Laws/Operands.lean ====
section
/-! SUPPORT. What the operand checks answer, and what a command in flight completes with once its rule's answer is known
(60_exceptions.md R262, R263, R266). -/

namespace Sys2Proof.Machine

/-- The modulus check fails for MODP below 2 (40_modular.md R122). -/
theorem withModulus_error {α : Type} {x : Regs} (h : x.modp.toInt < 2) (f : Nat → Except ErrCode α) :
    withModulus x f = .error .domain := if_pos h

/-- The modulus check hands a modulus from 2 on to the rule. -/
theorem withModulus_ok {α : Type} {x : Regs} {p : Nat} (hp : x.modp.toInt = p) (h2 : 2 ≤ p) (f : Nat → Except ErrCode α) :
    withModulus x f = f p := by
  rw [withModulus, if_neg (by omega), hp, Int.toNat_natCast]

/-- The field modulus check fails for FPOLY below 2 (42_gf2_poly.md R191). -/
theorem withFieldModulus_error {α : Type} {x : Regs} (h : x.fpoly.toNat < 2) (f : Nat → Except ErrCode α) :
    withFieldModulus x f = .error .domain := if_pos h

/-- The field modulus check hands every other FPOLY to the rule. -/
theorem withFieldModulus_ok {α : Type} {x : Regs} (h : 2 ≤ x.fpoly.toNat) (f : Nat → Except ErrCode α) :
    withFieldModulus x f = f x.fpoly.toNat := if_neg (by omega)

/-- A negative exponent, scalar or shift fails. -/
theorem withNonneg_error {α : Type} {v : Word} (h : v.toInt < 0) (f : Nat → Except ErrCode α) :
    withNonneg v f = .error .domain := if_pos h

/-- A nonnegative one is handed to the rule. -/
theorem withNonneg_ok {α : Type} {v : Word} {k : Nat} (h : v.toInt = k) (f : Nat → Except ErrCode α) :
    withNonneg v f = f k := by
  rw [withNonneg, if_neg (by omega), h, Int.toNat_natCast]

/-- The triple check passes on triple bases (30_encoding.md R95 (d)). -/
theorem withTripleBases_ok {α : Type} {ks : List Reg} (h : ks.all isTripleBase = true) (rest : Except ErrCode α) :
    withTripleBases ks rest = rest := if_pos h

/-- A register holding a positive modulus, as a natural number. -/
theorem residue_cast (v : Word) {p : Nat} (hp : 0 < p) : ((residue v p : Nat) : Int) = v.toInt % p :=
  Int.toNat_of_nonneg (Int.emod_nonneg _ (by omega))

/-- A command whose rule raises an error completes with it and writes nothing. -/
theorem exec_error {s : State} {x : Regs} {i : Instr} (hx : s.engine = .busy x) {c : ErrCode}
    (h : ruleOf i x s.draws = .error c) :
    ∃ t, exec i s = .next t ∧ Completed s t c false false ∧ WritesNone s t :=
  ⟨_, exec_busy i hx, by rw [h]; exact completed_errorComplete c s, by rw [h]; exact writesNone_errorComplete c s⟩

/-- A command whose rule writes nothing. -/
theorem exec_none {s : State} {x : Regs} {i : Instr} (hx : s.engine = .busy x) {flag sent : Bool}
    (h : ruleOf i x s.draws = .ok ⟨[], flag, sent⟩) :
    ∃ t, exec i s = .next t ∧ Completed s t .none flag sent ∧ WritesNone s t :=
  ⟨_, exec_busy i hx, by rw [h]; exact completed_resultComplete _ s, by rw [h]; exact writesNone_resultComplete flag sent s⟩

/-- A command whose rule writes one register. -/
theorem exec_one {s : State} {x : Regs} {i : Instr} (hx : s.engine = .busy x) {rd : Reg} {v : Word} {flag sent : Bool}
    (h : ruleOf i x s.draws = .ok ⟨[(rd, v)], flag, sent⟩) :
    ∃ t, exec i s = .next t ∧ Completed s t .none flag sent ∧ WritesOne s t rd v :=
  ⟨_, exec_busy i hx, by rw [h]; exact completed_resultComplete _ s, by rw [h]; exact writesOne_resultComplete rd v flag sent s⟩

/-- A command whose rule writes a triple. -/
theorem exec_triple {s : State} {x : Regs} {i : Instr} (hx : s.engine = .busy x) {k : Reg} {v : Triple Nat}
    {flag sent : Bool} (h : ruleOf i x s.draws = .ok ⟨tripleWrites k v, flag, sent⟩) :
    ∃ t, exec i s = .next t ∧ Completed s t .none flag sent ∧ WritesTriple s t k v :=
  ⟨_, exec_busy i hx, by rw [h]; exact completed_resultComplete _ s,
    by rw [h]; exact writesTriple_resultComplete k v flag sent s⟩

end Sys2Proof.Machine
end

