-- ==== Sys2Proof/Laws/PerInstr.lean ====
section
/-! SUPPORT. The family `ReservedClear`: an encoded command has its reserved bits 63:23 clear (30_encoding.md R90), one
lemma per constructor of Instr. -/

namespace Sys2Proof.Laws.ReservedClear

/-- Bits 63:23 of the command's word are 0 (30_encoding.md R90). -/
def Statement (i : Instr) : Prop := fieldReserved (encode i) = 0

theorem mulmod (rd rs1 rs2 : Reg) : Statement (.mulmod rd rs1 rs2) := fieldReserved_packWord (by decide) ..
theorem expmod (rd rs1 rs2 : Reg) : Statement (.expmod rd rs1 rs2) := fieldReserved_packWord (by decide) ..
theorem invmod (rd rs1 : Reg) : Statement (.invmod rd rs1) := fieldReserved_packWord (by decide) ..
theorem jacobi (rd rs1 : Reg) : Statement (.jacobi rd rs1) := fieldReserved_packWord (by decide) ..
theorem sqrtmod (rd rs1 : Reg) : Statement (.sqrtmod rd rs1) := fieldReserved_packWord (by decide) ..
theorem isprime (rd rs1 : Reg) : Statement (.isprime rd rs1) := fieldReserved_packWord (by decide) ..
theorem cvalid (rd : Reg) : Statement (.cvalid rd) := fieldReserved_packWord (by decide) ..
theorem pnorm (rd rs1 : Reg) : Statement (.pnorm rd rs1) := fieldReserved_packWord (by decide) ..
theorem padd (rd rs1 rs2 : Reg) : Statement (.padd rd rs1 rs2) := fieldReserved_packWord (by decide) ..
theorem psmul (rd rs1 rs2 : Reg) : Statement (.psmul rd rs1 rs2) := fieldReserved_packWord (by decide) ..
theorem peq (rd rs1 rs2 : Reg) : Statement (.peq rd rs1 rs2) := fieldReserved_packWord (by decide) ..
theorem gadd (rd rs1 rs2 : Reg) : Statement (.gadd rd rs1 rs2) := fieldReserved_packWord (by decide) ..
theorem gshl (rd rs1 rs2 : Reg) : Statement (.gshl rd rs1 rs2) := fieldReserved_packWord (by decide) ..
theorem gmul (rd rs1 rs2 : Reg) : Statement (.gmul rd rs1 rs2) := fieldReserved_packWord (by decide) ..
theorem gmod (rd rs1 rs2 : Reg) : Statement (.gmod rd rs1 rs2) := fieldReserved_packWord (by decide) ..
theorem gdeg (rd rs1 : Reg) : Statement (.gdeg rd rs1) := fieldReserved_packWord (by decide) ..
theorem gmulm (rd rs1 rs2 : Reg) : Statement (.gmulm rd rs1 rs2) := fieldReserved_packWord (by decide) ..
theorem gexp (rd rs1 rs2 : Reg) : Statement (.gexp rd rs1 rs2) := fieldReserved_packWord (by decide) ..
theorem ginv (rd rs1 : Reg) : Statement (.ginv rd rs1) := fieldReserved_packWord (by decide) ..
theorem gsqrt (rd rs1 : Reg) : Statement (.gsqrt rd rs1) := fieldReserved_packWord (by decide) ..
theorem bnorm (rd rs1 : Reg) : Statement (.bnorm rd rs1) := fieldReserved_packWord (by decide) ..
theorem badd (rd rs1 rs2 : Reg) : Statement (.badd rd rs1 rs2) := fieldReserved_packWord (by decide) ..
theorem bsmul (rd rs1 rs2 : Reg) : Statement (.bsmul rd rs1 rs2) := fieldReserved_packWord (by decide) ..

end Sys2Proof.Laws.ReservedClear
end

