-- ==== Sys2Proof/Laws/Rules.lean ====
section
/-! SUPPORT. What a command's rule can answer, said once for all commands: its writes go to the command's destinations, and
it never sets FLAG and SENT together (10_state.md R53). The operand checks and the result forms come first. -/

namespace Sys2Proof.Machine

/-- A rule's result is within bounds: it writes only registers of `ds`, and does not set both FLAG and SENT. -/
def Within (ds : List Reg) (o : RuleOutcome) : Prop :=
  ∀ r, o = .ok r → (∀ w ∈ r.writes, w.1 ∈ ds) ∧ ¬ (r.flag = true ∧ r.sent = true)

theorem within_error (ds : List Reg) (c : ErrCode) : Within ds (.error c) := by
  intro r h
  cases h

theorem within_plain (rd : Reg) (v : Word) : Within [rd] (plainResult rd v) := by
  intro r h
  cases h
  simp

theorem within_bool (rd : Reg) (b : Bool) : Within [rd] (boolResult rd b) := by
  intro r h
  cases h
  simp

theorem within_minusOne (rd : Reg) : Within [rd] (minusOneResult rd) := by
  intro r h
  cases h
  simp

theorem within_noValue (ds : List Reg) : Within ds noValueResult := by
  intro r h
  cases h
  simp

theorem within_point (o : Triple Nat) (rd : Reg) (t : Triple Nat) :
    Within [rd, regPlus rd 1, regPlus rd 2] (pointResult o rd t) := by
  intro r h
  cases h
  simp [tripleWrites]

theorem within_tripleBases {ds ks : List Reg} {o : RuleOutcome} (h : Within ds o) :
    Within ds (withTripleBases ks o) := by
  unfold withTripleBases
  split
  · exact h
  · exact within_error _ _

theorem within_modulus {ds : List Reg} {x : Regs} {f : Nat → RuleOutcome} (h : ∀ p, Within ds (f p)) :
    Within ds (withModulus x f) := by
  unfold withModulus
  split
  · exact within_error _ _
  · exact h _

theorem within_fieldModulus {ds : List Reg} {x : Regs} {f : Nat → RuleOutcome} (h : ∀ p, Within ds (f p)) :
    Within ds (withFieldModulus x f) := by
  unfold withFieldModulus
  split
  · exact within_error _ _
  · exact h _

theorem within_nonneg {ds : List Reg} {v : Word} {f : Nat → RuleOutcome} (h : ∀ p, Within ds (f p)) :
    Within ds (withNonneg v f) := by
  unfold withNonneg
  split
  · exact within_error _ _
  · exact h _

theorem within_ite {ds : List Reg} {c : Prop} [Decidable c] {a b : RuleOutcome} (ha : Within ds a) (hb : Within ds b) :
    Within ds (if c then a else b) := by
  split <;> assumption

/-- The rule of every command writes only the command's destinations, and never sets both FLAG and SENT. -/
theorem ruleOf_within (i : Instr) (x : Regs) (draw : Nat → Nat) : Within (destinations i) (ruleOf i x draw) := by
  cases i <;> simp only [destinations, ruleOf]
  case mulmod => unfold mulmodRule; exact within_modulus fun _ => within_plain _ _
  case expmod => unfold expmodRule; exact within_modulus fun _ => within_nonneg fun _ => within_plain _ _
  case invmod => unfold invmodRule; exact within_modulus fun _ => within_ite (within_minusOne _) (within_plain _ _)
  case jacobi => unfold jacobiRule; exact within_ite (within_error _ _) (within_plain _ _)
  case sqrtmod =>
    unfold sqrtmodRule
    refine within_modulus fun _ => ?_
    split
    · exact within_plain _ _
    · exact within_error _ _
  case isprime => unfold isprimeRule; exact within_bool _ _
  case cvalid => unfold cvalidRule; exact within_modulus fun _ => within_bool _ _
  case pnorm => unfold pnormRule; exact within_tripleBases (within_modulus fun _ => within_point _ _ _)
  case padd => unfold paddRule; exact within_tripleBases (within_modulus fun _ => within_point _ _ _)
  case psmul => unfold psmulRule; exact within_tripleBases (within_modulus fun _ => within_nonneg fun _ => within_point _ _ _)
  case peq => unfold peqRule; exact within_tripleBases (within_bool _ _)
  case gadd => unfold gaddRule; exact within_plain _ _
  case gshl =>
    unfold gshlRule
    refine within_nonneg fun _ => ?_
    split
    · exact within_plain _ _
    · exact within_error _ _
  case gmul => unfold gmulRule; exact within_ite (within_error _ _) (within_plain _ _)
  case gmod => unfold gmodRule; exact within_ite (within_error _ _) (within_plain _ _)
  case gdeg => unfold gdegRule; exact within_ite (within_minusOne _) (within_plain _ _)
  case gmulm => unfold gmulmRule; exact within_fieldModulus fun _ => within_plain _ _
  case gexp => unfold gexpRule; exact within_fieldModulus fun _ => within_nonneg fun _ => within_plain _ _
  case ginv => unfold ginvRule; exact within_fieldModulus fun _ => within_ite (within_noValue _) (within_plain _ _)
  case gsqrt => unfold gsqrtRule; exact within_fieldModulus fun _ => within_plain _ _
  case bnorm => unfold bnormRule; exact within_tripleBases (within_fieldModulus fun _ => within_point _ _ _)
  case badd => unfold baddRule; exact within_tripleBases (within_fieldModulus fun _ => within_point _ _ _)
  case bsmul => unfold bsmulRule; exact within_tripleBases (within_fieldModulus fun _ => within_nonneg fun _ => within_point _ _ _)

end Sys2Proof.Machine
end

