-- ==== Sys2Proof/Laws/Window.lean ====
section
/-! SUPPORT. The register window: each register's offset decodes to it, and a host access at it is accepted
(10_state.md R21, 20_memory.md R62). -/

namespace Sys2Proof.Machine

/-- A register's offset is accepted for an 8-byte access and decodes to the register (10_state.md R21). -/
theorem windowReg_offset (r : WindowReg) :
    windowReg r.offset.toNat = r ∧ acceptsAccess r.offset 8 = true := by
  cases r with
  | data i => revert i; decide
  | _ => exact ⟨by decide, by decide⟩

/-- A step that takes a write to a register (20_memory.md R64). -/
theorem step_hostWrite {s : State} (r : WindowReg) {v : Word} {rest : List Event}
    (h : s.inputs = .hostWrite r.offset 8 v :: rest) :
    step s = .next { ({ s with inputs := rest } : State).writeReg v r with reply := some .writeAccepted } := by
  simp [step, h, takeEvent, State.hostWrite, windowReg_offset r]

/-- A step that takes a read of a register (20_memory.md R63). -/
theorem step_hostRead {s : State} (r : WindowReg) {rest : List Event}
    (h : s.inputs = .hostRead r.offset 8 :: rest) :
    step s = .next { s with inputs := rest,
                            reply := some (.readData (({ s with inputs := rest } : State).readReg r)) } := by
  simp [step, h, takeEvent, State.hostRead, windowReg_offset r]

end Sys2Proof.Machine
end

