-- ==== Sys2Proof/Tests/Slice0.lean ====
section
/-! SUPPORT. The model's own tests. Expected values come from the spec's encodings (30_encoding.md R91, R94) and vectors
(95_test_vectors.md), named as they are there. The second half shows, for every statement with hypotheses, states and
operands that meet them, at the ends of each clause's range. -/

-- one test at a time: each is a kernel computation, and many at once need much memory
set_option Elab.async false

namespace Sys2Proof.Tests

open Sys2Proof Sys2Proof.Machine

/-! ## Well-formedness: each triple field of each command is checked -/

theorem test_wf_pnorm : (Instr.pnorm 29 29).wf = true ∧
    (Instr.pnorm 30 29).wf = false ∧
    (Instr.pnorm 29 31).wf = false := by decide

theorem test_wf_padd : (Instr.padd 29 29 29).wf = true ∧
    (Instr.padd 30 29 29).wf = false ∧
    (Instr.padd 29 31 29).wf = false ∧
    (Instr.padd 29 29 30).wf = false := by decide

theorem test_wf_psmul : (Instr.psmul 29 29 31).wf = true ∧
    (Instr.psmul 30 29 31).wf = false ∧
    (Instr.psmul 29 31 31).wf = false := by decide

theorem test_wf_peq : (Instr.peq 31 29 29).wf = true ∧
    (Instr.peq 31 30 29).wf = false ∧
    (Instr.peq 31 29 31).wf = false := by decide

theorem test_wf_bnorm : (Instr.bnorm 29 29).wf = true ∧
    (Instr.bnorm 30 29).wf = false ∧
    (Instr.bnorm 29 31).wf = false := by decide

theorem test_wf_badd : (Instr.badd 29 29 29).wf = true ∧
    (Instr.badd 30 29 29).wf = false ∧
    (Instr.badd 29 31 29).wf = false ∧
    (Instr.badd 29 29 30).wf = false := by decide

theorem test_wf_bsmul : (Instr.bsmul 29 29 31).wf = true ∧
    (Instr.bsmul 30 29 31).wf = false ∧
    (Instr.bsmul 29 31 31).wf = false := by decide

/-! ## Decoding: words written out from the field layout (RS2, RS1, RD, OP) -/

theorem test_decode_modular :
    decode 0b00001_00000_00010_00000001 = .ok (.mulmod 2 0 1) ∧
    decode 0b00001_00000_00010_00000010 = .ok (.expmod 2 0 1) ∧
    decode 0b00000_00000_00001_00000011 = .ok (.invmod 1 0) ∧
    decode 0b00000_00000_00001_00000100 = .ok (.jacobi 1 0) ∧
    decode 0b00000_00000_00001_00000101 = .ok (.sqrtmod 1 0) ∧
    decode 0b00000_00000_00001_00000110 = .ok (.isprime 1 0) ∧
    decode 0b00000_00000_00000_00000111 = .ok (.cvalid 0) := by decide +kernel

theorem test_decode_prime_points :
    decode 0b00000_00000_00011_00010000 = .ok (.pnorm 3 0) ∧
    decode 0b00011_00000_00110_00010001 = .ok (.padd 6 0 3) ∧
    decode 0b01001_00000_00011_00010010 = .ok (.psmul 3 0 9) ∧
    decode 0b00011_00110_01001_00010011 = .ok (.peq 9 6 3) := by decide +kernel

theorem test_decode_polynomials :
    decode 0b00001_00000_00010_00100000 = .ok (.gadd 2 0 1) ∧
    decode 0b00001_00000_00010_00100001 = .ok (.gshl 2 0 1) ∧
    decode 0b00001_00000_00010_00100010 = .ok (.gmul 2 0 1) ∧
    decode 0b00001_00000_00010_00100011 = .ok (.gmod 2 0 1) ∧
    decode 0b00000_00000_00001_00100100 = .ok (.gdeg 1 0) ∧
    decode 0b00001_00000_00010_00100101 = .ok (.gmulm 2 0 1) ∧
    decode 0b00001_00000_00010_00100110 = .ok (.gexp 2 0 1) ∧
    decode 0b00000_00000_00001_00100111 = .ok (.ginv 1 0) ∧
    decode 0b00000_00000_00001_00101000 = .ok (.gsqrt 1 0) := by decide +kernel

theorem test_decode_binary_points :
    decode 0b00000_00000_00011_00110000 = .ok (.bnorm 3 0) ∧
    decode 0b00011_00000_00110_00110001 = .ok (.badd 6 0 3) ∧
    decode 0b01001_00000_00011_00110010 = .ok (.bsmul 3 0 9) := by decide +kernel

/-- The largest fields; and RS2 of PSMUL is no triple (95_test_vectors.md 2.1). -/
theorem test_decode_largest_fields : decode 0x7FFF01 = .ok (.mulmod 31 31 31) ∧
    decode 0x77BD11 = .ok (.padd 29 29 29) ∧ decode 0x7C0012 = .ok (.psmul 0 0 31) := by decide +kernel

theorem test_decode_refuses_reserved_bits : decode 0x800201 = .error .reservedBits ∧
    decode 0x8000000000040201 = .error .reservedBits ∧ decode 0x100040201 = .error .reservedBits := by decide +kernel

theorem test_decode_refuses_unassigned_opcodes : decode 0x0 = .error .unassignedOpcode ∧
    decode 0x8 = .error .unassignedOpcode ∧ decode 0xFF = .error .unassignedOpcode := by decide +kernel

theorem test_decode_refuses_unused_fields : decode 0x40010 = .error .unusedFieldSet ∧
    decode 0x2007 = .error .unusedFieldSet ∧ decode 0x40103 = .error .unusedFieldSet := by decide +kernel

theorem test_decode_refuses_triple_bases : decode 0x1E11 = .error .tripleBaseAbove29 ∧
    decode 0x3E011 = .error .tripleBaseAbove29 ∧ decode 0x780011 = .error .tripleBaseAbove29 ∧
    decode 0x3C013 = .error .tripleBaseAbove29 ∧ decode 0x1E30 = .error .tripleBaseAbove29 := by decide +kernel

/-- Pseudo-instructions (95_test_vectors.md 2.1) and the assembler's refusals (30_encoding.md R111). -/
theorem test_assemble : assemble "SQRMOD" [3, 2] = some 0x84301 ∧ assemble "PDBL" [3, 0] = some 0x311 ∧
    assemble "BDBL" [3, 0] = some 0x331 ∧ assemble "GSQR" [10, 9] = some 0x252A25 ∧
    assemble "BEQ" [9, 6, 3] = some 0xCC913 ∧ assemble "MULMOD" [2, 0] = none ∧
    assemble "INVMOD" [1, 0, 0] = none ∧ assemble "GADD" [32, 0, 1] = none ∧ assemble "PADD" [30, 0, 3] = none ∧
    assemble "NOP" [] = none := by decide +kernel

theorem test_assemble_line : assembleLine "PADD d6, D0, d3 ; 3G".toList = some 0xC0611 ∧
    assembleLine "CVALID d0".toList = some 0x7 ∧ assembleLine "PADD d6, 0, d3".toList = none := by decide +kernel

/-! ## Commands: one completion each, from a register file that lists D0, D1, ... -/

/-- Registers with the given context and the first data registers; the others are 0. -/
def regs (modp ca cb fpoly : Word) (ds : List Word) : Regs := ⟨Vector.ofFn (fun i => ds.getD i.val 0), modp, ca, cb, fpoly⟩

/-- Integer set-up: MODP and data registers. -/
def regsP (modp : Word) (ds : List Word) : Regs := regs modp 2 2 0 ds

/-- Polynomial set-up: FPOLY and data registers; CA = 3, CB = 1. -/
def regsF (fpoly : Word) (ds : List Word) : Regs := regs 0 3 1 fpoly ds

/-- A command in flight on the given snapshot. -/
def inFlight (x : Regs) (w : Word) : State := { State.reset with regs := x, cmd := w, engine := .busy x }

/-- The next state of an outcome, if it is one. -/
def nextOf (o : Host.Outcome State Fault Refusal) : Option State :=
  match o with
  | .next t => some t
  | _ => none

/-- STATUS and the listed data registers after the command's completion. -/
def after (i : Instr) (x : Regs) (ks : List Reg) : Option (Word × List Word) :=
  (nextOf (exec i (inFlight x (encode i)))).map (fun t => (t.statusWord, ks.map t.regs.read))

/-- V-M2. -/
theorem test_mulmod_v_m2 : after (.mulmod 2 0 1) (regsP 997 [0xFFFFFFFFFFFFFFFB, 7]) [2] =
    some (2, [962]) := by decide +kernel

/-- V-M3. -/
theorem test_mulmod_v_m3 : after (.mulmod 2 0 1) (regsP 9223372036854775783 [9223372036854775782, 9223372036854775782]) [2] =
    some (2, [1]) := by decide +kernel

/-- V-M12. -/
theorem test_expmod_v_m12 : after (.expmod 2 0 1) (regsP 997 [3, 9223372036854775807]) [2] =
    some (2, [747]) := by decide +kernel

/-- V-M14. -/
theorem test_expmod_v_m14 : after (.expmod 2 0 1) (regsP 997 [3, 0xFFFFFFFFFFFFFFFF]) [2] =
    some (0x202, [0]) := by decide +kernel

/-- V-M16. -/
theorem test_invmod_v_m16 : after (.invmod 2 0) (regsP 997 [57]) [2] =
    some (2, [35]) := by decide +kernel

/-- V-M18. -/
theorem test_invmod_v_m18 : after (.invmod 2 0) (regsP 997 [997]) [2] =
    some (0xA, [0xFFFFFFFFFFFFFFFF]) := by decide +kernel

/-- V-M25. -/
theorem test_jacobi_v_m25 : after (.jacobi 2 0) (regsP 997 [114]) [2] =
    some (2, [0xFFFFFFFFFFFFFFFF]) := by decide +kernel

/-- V-M27. -/
theorem test_jacobi_v_m27 : after (.jacobi 2 0) (regsP 9 [3]) [2] =
    some (2, [0]) := by decide +kernel

/-- V-M32. -/
theorem test_sqrtmod_v_m32 : after (.sqrtmod 2 0) (regsP 997 [57]) [2] =
    some (2, [481]) := by decide +kernel

/-- V-M38. -/
theorem test_sqrtmod_v_m38 : after (.sqrtmod 2 0) (regsP 997 [114]) [2] =
    some (0x402, [0]) := by decide +kernel

/-- V-M50. -/
theorem test_isprime_v_m50 : after (.isprime 2 0) (regsP 0 [2]) [2] =
    some (6, [1]) := by decide +kernel

/-- V-M51. -/
theorem test_isprime_v_m51 : after (.isprime 2 0) (regsP 0 [4611686018427387904]) [2] =
    some (2, [0]) := by decide +kernel

/-- V-M54. -/
theorem test_cvalid_v_m54 : after (.cvalid 2) (regsP 17 []) [2] =
    some (6, [1]) := by decide +kernel

/-- V-M55. -/
theorem test_cvalid_v_m55 : after (.cvalid 2) (regs 17 0 0 0 [0, 0, 9]) [2] = some (2, [0]) := by decide +kernel

/-- V-P4. -/
theorem test_pnorm_v_p4 : after (.pnorm 3 0) (regsP 17 [0xFFFFFFFFFFFFFFFF, 20, 18]) [3, 4, 5] =
    some (2, [16, 3, 1]) := by decide +kernel

/-- V-P6. -/
theorem test_pnorm_v_p6 : after (.pnorm 3 0) (regsP 15 [3, 4, 2]) [3, 4, 5] =
    some (2, [6, 8, 1]) := by decide +kernel

/-- V-P9. -/
theorem test_padd_v_p9 : after (.padd 6 0 3) (regsP 17 [12, 6, 2, 10, 2, 2]) [6, 7, 8] =
    some (2, [10, 6, 1]) := by decide +kernel

/-- V-P17. -/
theorem test_padd_v_p17 : after (.padd 6 0 3) (regsP 17 [5, 1, 1, 5, 2, 1]) [6, 7, 8] =
    some (6, [0, 1, 0]) := by decide +kernel

/-- V-P25. -/
theorem test_psmul_v_p25 : after (.psmul 3 0 9) (regsP 17 [5, 1, 1, 0, 0, 0, 0, 0, 0, 1000]) [3, 4, 5] =
    some (2, [0, 11, 1]) := by decide +kernel

/-- V-P29. -/
theorem test_psmul_v_p29 : after (.psmul 3 0 9) (regsP 17 [5, 1, 1, 9, 9, 9, 0, 0, 0, 0xFFFFFFFFFFFFFFFF]) [3, 4, 5] =
    some (0x202, [9, 9, 9]) := by decide +kernel

/-- V-P34. -/
theorem test_peq_v_p34 : after (.peq 9 0 3) (regsP 17 [10, 6, 1, 10, 6, 1]) [9] =
    some (6, [1]) := by decide +kernel

/-- V-P35. -/
theorem test_peq_v_p35 : after (.peq 9 0 3) (regsP 17 [6, 3, 1, 12, 6, 2]) [9] =
    some (2, [0]) := by decide +kernel

/-- V-G3. -/
theorem test_gadd_v_g3 : after (.gadd 2 0 1) (regsF 0 [0x8000000000000001, 1]) [2] =
    some (2, [0x8000000000000000]) := by decide +kernel

/-- V-G1. -/
theorem test_gadd_v_g1 : after (.gadd 2 0 1) (regsF 0 [0x1E, 7]) [2] =
    some (2, [0x19]) := by decide +kernel

/-- V-G6. -/
theorem test_gshl_v_g6 : after (.gshl 2 0 1) (regsF 0 [1, 63]) [2] =
    some (2, [0x8000000000000000]) := by decide +kernel

/-- V-G7. -/
theorem test_gshl_v_g7 : after (.gshl 2 0 1) (regsF 0 [1, 64]) [2] =
    some (0x302, [0]) := by decide +kernel

/-- V-G11. -/
theorem test_gmul_v_g11 : after (.gmul 2 0 1) (regsF 0 [0x1E, 7]) [2] =
    some (2, [0x5A]) := by decide +kernel

/-- V-G13. -/
theorem test_gmul_v_g13 : after (.gmul 2 0 1) (regsF 0 [0x100000000, 0x100000000]) [2] =
    some (0x302, [0]) := by decide +kernel

/-- V-G16. -/
theorem test_gmod_v_g16 : after (.gmod 2 0 1) (regsF 0 [0x1E, 7]) [2] =
    some (2, [0x2]) := by decide +kernel

/-- V-G20. -/
theorem test_gmod_v_g20 : after (.gmod 2 0 1) (regsF 0 [0x1E, 0]) [2] =
    some (0x202, [0]) := by decide +kernel

/-- V-G23. -/
theorem test_gdeg_v_g23 : after (.gdeg 2 0) (regsF 0 [0x8000000000000000]) [2] =
    some (2, [63]) := by decide +kernel

/-- V-G24. -/
theorem test_gdeg_v_g24 : after (.gdeg 2 0) (regsF 0 [0]) [2] =
    some (0xA, [0xFFFFFFFFFFFFFFFF]) := by decide +kernel

/-- V-G26. -/
theorem test_gmulm_v_g26 : after (.gmulm 2 0 1) (regsF 0x11B [0x57, 0x83]) [2] =
    some (2, [0xC1]) := by decide +kernel

/-- V-G27. -/
theorem test_gmulm_v_g27 : after (.gmulm 2 0 1) (regsF 0x13 [0x1E, 7]) [2] =
    some (2, [5]) := by decide +kernel

/-- V-G30. -/
theorem test_gexp_v_g30 : after (.gexp 2 0 1) (regsF 0x13 [2, 5]) [2] =
    some (2, [6]) := by decide +kernel

/-- V-G31. -/
theorem test_gexp_v_g31 : after (.gexp 2 0 1) (regsF 0x13 [0, 0]) [2] =
    some (2, [1]) := by decide +kernel

/-- V-G37. -/
theorem test_ginv_v_g37 : after (.ginv 2 0) (regsF 0x13 [0x13, 0, 0x5A5A]) [2] =
    some (0xA, [0x5A5A]) := by decide +kernel

/-- V-G35. -/
theorem test_ginv_v_g35 : after (.ginv 2 0) (regsF 0x11B [0x53]) [2] =
    some (2, [0xCA]) := by decide +kernel

/-- V-G41. -/
theorem test_gsqrt_v_g41 : after (.gsqrt 2 0) (regsF 0x13 [0xC]) [2] =
    some (2, [8]) := by decide +kernel

/-- V-G45. -/
theorem test_gsqrt_v_g45 : after (.gsqrt 2 0) (regsF 1 [0xC]) [2] =
    some (0x202, [0]) := by decide +kernel

/-- V-B1. -/
theorem test_bnorm_v_b1 : after (.bnorm 3 0) (regsF 0x13 [0xC, 6, 2]) [3, 4, 5] =
    some (2, [6, 8, 1]) := by decide +kernel

/-- V-B4. -/
theorem test_bnorm_v_b4 : after (.bnorm 3 0) (regsF 0x11 [3, 1, 3]) [3, 4, 5] =
    some (2, [0, 0, 1]) := by decide +kernel

/-- V-B8. -/
theorem test_badd_v_b8 : after (.badd 6 0 3) (regsF 0x13 [0xC, 6, 2, 6, 8, 1]) [6, 7, 8] =
    some (2, [1, 13, 1]) := by decide +kernel

/-- V-B6. -/
theorem test_badd_v_b6 : after (.badd 6 0 3) (regsF 0x13 [6, 8, 1, 10, 13, 1]) [6, 7, 8] =
    some (2, [8, 13, 1]) := by decide +kernel

/-- V-B22. -/
theorem test_bsmul_v_b22 : after (.bsmul 3 0 9) (regsF 0x13 [2, 1, 1, 0, 0, 0, 0, 0, 0, 4]) [3, 4, 5] =
    some (2, [9, 10, 1]) := by decide +kernel

/-- V-B17. -/
theorem test_bsmul_v_b17 : after (.bsmul 3 0 9) (regsF 0x13 [8, 5, 1, 0, 0, 0, 0, 0, 0, 16]) [3, 4, 5] =
    some (6, [1, 0, 0]) := by decide +kernel

/-- V-S20: the destination triple is the source triple. -/
theorem test_overlapping_triple : after (.psmul 0 0 9) (regsP 17 [6, 3, 1, 0, 0, 0, 0, 0, 0, 2]) [0, 1, 2] =
    some (2, [3, 1, 1]) := by decide +kernel

/-! ## The register interface: one step each -/

/-- STATUS and CTRL, and the answer given, after one step on the listed events. -/
def afterEvent (s : State) (e : Event) : Option (Word × Word × Option BusReply) :=
  (nextOf (step { s with inputs := [e] })).map (fun t => (t.statusWord, t.ctrlWord, t.reply))

/-- EXPMOD d2, d0, d1 in flight with MODP = 997, d0 = 3, d1 = 996. -/
def expmodInFlight : State := inFlight (regsP 997 [3, 996]) 0x40202

/-- V-S1. -/
theorem test_read_id : afterEvent State.reset (.hostRead 0x000 8) = some (0, 0, some (.readData 0xECC00001)) := by
  decide +kernel

/-- V-S5. -/
theorem test_rejected_reads : afterEvent State.reset (.hostRead 0x100 4) = some (0, 0, some (.readRejected 0)) ∧
    afterEvent State.reset (.hostRead 0x104 8) = some (0, 0, some (.readRejected 0)) := by decide +kernel

/-- V-S6. -/
theorem test_byte_lanes :
    (inFlight (regsP 0 [0, 0, 0, 0, 0, 0x1122334455667788]) 0).windowByte 0x128 = 0x88 ∧
    (inFlight (regsP 0 [0, 0, 0, 0, 0, 0x1122334455667788]) 0).windowByte 0x12F = 0x11 := by decide +kernel

/-- V-S7. -/
theorem test_ctrl_reserved_bits : afterEvent State.reset (.hostWrite 0x008 8 0xFFFFFFFFFFFFFFF9) =
    some (0, 1, some .writeAccepted) := by decide +kernel

/-- V-S9: the launched word runs, and MODP = 0 is refused; here as the first command after reset. -/
theorem test_first_command_after_reset :
    (nextOf (step (State.reset.withFetchWord 64 0x40201))).map (fun t => (t.statusWord, t.cmd)) =
      some (0x202, 0x40201) := by decide +kernel

/-- V-S10, the dropped write. -/
theorem test_busy_write_is_dropped : afterEvent expmodInFlight (.hostWrite 0x100 8 5) =
    some (0x11, 0, some .writeAccepted) := by decide +kernel

/-- V-S11. -/
theorem test_status_write_clears : afterEvent { State.reset with status := ⟨true, false, false, true, .none⟩ }
    (.hostWrite 0x010 8 0x12) = some (0, 0, some .writeAccepted) := by decide +kernel

/-- V-S13. -/
theorem test_abort : afterEvent { expmodInFlight with irqen := true } (.hostWrite 0x008 8 3) =
    some (0x602, 1, some .writeAccepted) := by decide +kernel

/-- V-M43, the STATUS word of NOROOT. -/
theorem test_noroot_status : { State.reset with status := ⟨true, false, false, false, .noroot⟩ }.statusWord = 0x502 := by
  decide +kernel

/-- V-S17. -/
theorem test_soft_reset : (nextOf (step { expmodInFlight with inputs := [.hostWrite 0x008 8 5] })).map
    (fun t => (t.statusWord, t.ctrlWord, t.regs == Regs.reset)) = some (0, 0, true) := by decide +kernel

/-- The reason table of 95_test_vectors.md 2.1: an illegal word completes with STATUS = 0x102. -/
theorem test_illegal_word_completes : (nextOf (step (inFlight (regsP 997 [3, 996]) 0x800201))).map
    (fun t => (t.statusWord, t.regs.read 2)) = some (0x102, 0) := by decide +kernel

/-! ## Witnesses: states and operands that meet the hypotheses of each statement -/

/-- Some state has a command in flight whose snapshot has the property. -/
def Meets (P : Regs → Prop) : Prop := ∃ (s : State) (x : Regs), s.engine = .busy x ∧ P x

theorem meets {P : Regs → Prop} (x : Regs) (h : P x) : Meets P := ⟨inFlight x 0, x, rfl, h⟩

/-- An idle block with the listed events to come. -/
def idleWith (es : List Event) : State := { State.reset with inputs := es }

/-- EXPMOD in flight with the listed events to come. -/
def busyWith (es : List Event) : State := { expmodInFlight with inputs := es }

theorem witness_DecodeOfEncodeIsTheCommand : (Instr.padd 29 29 29).wf = true ∧ (Instr.psmul 0 29 31).wf = true := by
  decide

theorem witness_EncodeOfDecodeIsTheWord : decode 0x77BD11 = .ok (.padd 29 29 29) ∧ decode 0x7 = .ok (.cvalid 0) := by
  decide +kernel

/-- One word for each condition of 30_encoding.md R95, at the ends of its range. -/
theorem witness_IllegalWordsLaunchAndCompleteWithIllegal :
    (IsIllegalWord 0x800201 ∧ IsIllegalWord 0x8000000000040201 ∧ IsIllegalWord 0x0 ∧ IsIllegalWord 0x8 ∧
      IsIllegalWord 0xFF ∧ IsIllegalWord 0x40103 ∧ IsIllegalWord 0x2007 ∧ IsIllegalWord 0x1E11 ∧
      IsIllegalWord 0x3E011 ∧ IsIllegalWord 0x780011) ∧
    (idleWith [.hostWrite 0x018 8 0x8, .completion]).engine = .idle := by
  refine ⟨⟨?_, ?_, ?_, ?_, ?_, ?_, ?_, ?_, ?_, ?_⟩, rfl⟩ <;>
    · unfold IsIllegalWord
      decide +kernel

theorem witness_AssembledWordsAreLegal : assemble "PADD" [29, 0, 29] = some 0x741D11 := by
  decide +kernel

theorem witness_StepRunsTheDecodedCommand :
    (∃ x, (busyWith [.completion]).engine = .busy x) ∧ decode (busyWith [.completion]).cmd = .ok (.expmod 2 0 1) ∧
    (busyWith [.completion]).inputs = [.completion] ∧ (busyWith []).inputs = [] ∧
    (idleWith [.completion]).engine = .idle ∧ (idleWith []).inputs = [] :=
  ⟨⟨_, rfl⟩, by decide +kernel, rfl, rfl, rfl, rfl⟩

theorem witness_IllegalWordCompletesWithIllegal :
    ∃ (s : State) (x : Regs) (e : IllegalWord), s.engine = .busy x ∧ decode s.cmd = .error e ∧ s.inputs = [.completion] :=
  ⟨{ inFlight Regs.reset 0x1E11 with inputs := [.completion] }, Regs.reset, .tripleBaseAbove29, rfl, by decide +kernel, rfl⟩

theorem witness_StepKeepsTheInvariant : ∃ s t : State, s.isBusy = true ∧ Inv s ∧ step s = .next t := by
  refine ⟨busyWith [.hostWrite 0x100 8 5], _, rfl, ⟨?_, ?_, ?_, ?_⟩, rfl⟩
  · rintro x ⟨⟩
    rfl
  all_goals decide

theorem witness_CompletionFrameOfEveryCommand : Meets fun _ => True := meets Regs.reset trivial

/-- The first and the last byte of a destination's neighbours, and of STATUS's. -/
theorem witness_CompletionKeepsTheOtherWindowBytes : (∃ t, exec (.mulmod 1 0 0) expmodInFlight = .next t) ∧
    ∀ off ∈ [(0x107 : BitVec 12), 0x110, 0x00F, 0x018],
      (∀ j ∈ destinations (.mulmod 1 0 0), ¬ (0x100 + 8 * j.val ≤ off.toNat ∧ off.toNat < 0x100 + 8 * j.val + 8)) ∧
      ¬ (0x010 ≤ off.toNat ∧ off.toNat < 0x018) := ⟨⟨_, rfl⟩, by decide +kernel⟩

theorem witness_CommandsRaiseOnlyTheirErrors :
    ∃ t, (Instr.padd 29 0 29).wf = true ∧ exec (.padd 29 0 29) expmodInFlight = .next t := ⟨_, by decide, rfl⟩

theorem witness_OnlyTheListedCommandsSetFlagOrSent :
    (∃ t, exec (.peq 9 0 0) expmodInFlight = .next t ∧ t.status.flag = true) ∧
    (∃ t, exec (.ginv 9 8) (inFlight (regsF 2 []) 0) = .next t ∧ t.status.sent = true) :=
  ⟨⟨_, rfl, by decide +kernel⟩, ⟨_, rfl, by decide +kernel⟩⟩

/-- Each of the four writers changes D0 or D2. -/
theorem witness_OnlyTheListedEventsWriteADataRegister :
    (∃ t, step (idleWith [.hostWrite 0x100 8 5]) = .next t ∧ t.regs.read 0 ≠ (idleWith []).regs.read 0) ∧
    (∃ t, step (busyWith []) = .next t ∧ t.regs.read 2 ≠ (busyWith []).regs.read 2) ∧
    (∃ t, step (busyWith [.hardReset]) = .next t ∧ t.regs.read 0 ≠ (busyWith []).regs.read 0) ∧
    (∃ t, step (busyWith [.hostWrite 0x008 8 4]) = .next t ∧ t.regs.read 0 ≠ (busyWith []).regs.read 0) :=
  ⟨⟨_, rfl, by decide +kernel⟩, ⟨_, rfl, by decide +kernel⟩, ⟨_, rfl, by decide +kernel⟩, ⟨_, rfl, by decide +kernel⟩⟩

theorem witness_CommandWriteLaunches : (idleWith [.hostWrite 0x018 8 0]).engine = .idle ∧
    (∃ x, (busyWith [.hostWrite 0x018 8 0x40201]).engine = .busy x) := ⟨rfl, _, rfl⟩

theorem witness_BusyWritesAreDropped :
    (∃ x, (busyWith [.hostWrite (WindowReg.data 31).offset 8 5]).engine = .busy x) ∧
    (busyWith [.hostWrite 0x008 8 1]).inputs = [.hostWrite 0x008 8 1] ∧
    (busyWith [.hostWrite 0x010 8 0x10]).inputs = [.hostWrite 0x010 8 0x10] := ⟨⟨_, rfl⟩, rfl, rfl⟩

theorem witness_IdleWritesStoreTheWholeRegister :
    (idleWith [.hostWrite (WindowReg.data 31).offset 8 0x8000000000000001]).engine = .idle ∧
    (idleWith [.hostWrite (WindowReg.offset .modp) 8 1]).inputs = [.hostWrite (WindowReg.offset .modp) 8 1] := ⟨rfl, rfl⟩

theorem witness_AbortEndsTheCommandInFlight : (3#64).getLsbD 1 = true ∧ (3#64).getLsbD 2 = false ∧
    (∃ x, (busyWith [.hostWrite 0x008 8 3]).engine = .busy x) ∧ (idleWith [.hostWrite 0x008 8 2]).engine = .idle :=
  ⟨by decide, by decide, ⟨_, rfl⟩, rfl⟩

theorem witness_BothResetsRestoreTheResetValues : (busyWith [.hardReset]).inputs = [.hardReset] ∧
    (7#64).getLsbD 2 = true ∧ (busyWith [.hostWrite 0x008 8 7]).inputs = [.hostWrite 0x008 8 7] :=
  ⟨rfl, by decide, rfl⟩

theorem witness_StatusWriteClearsDoneAndOvr : (busyWith [.hostWrite 0x010 8 0x12]).inputs = [.hostWrite 0x010 8 0x12] :=
  rfl

theorem witness_ControlWriteSetsInterruptEnable : (1#64).getLsbD 2 = false ∧ (3#64).getLsbD 2 = false ∧
    (busyWith [.hostWrite 0x008 8 3]).inputs = [.hostWrite 0x008 8 3] := ⟨by decide, by decide, rfl⟩

/-- One state for each error code. -/
theorem witness_StatusWordHasItsFields :
    ∀ e ∈ [ErrCode.none, .illegal, .domain, .overflow, .nonresidue, .noroot, .aborted],
      { State.reset with status := ⟨true, false, false, false, e⟩ }.status.err = e := by
  intro e _
  rfl

/-- The ends of the two reserved ranges. -/
theorem witness_IdentityAndReservedOffsetsIgnoreWrites :
    (∀ off ∈ [(0x040 : BitVec 12), 0x0F8, 0x200, 0xFF8],
      off.toNat % 8 = 0 ∧ ((0x040 ≤ off.toNat ∧ off.toNat ≤ 0x0F8) ∨ 0x200 ≤ off.toNat)) ∧
    (busyWith [.hostRead 0x000 8]).inputs = [.hostRead 0x000 8] ∧
    (busyWith [.hostWrite 0xFF8 8 1]).inputs = [.hostWrite 0xFF8 8 1] := ⟨by decide +kernel, rfl, rfl⟩

theorem witness_NarrowOrMisalignedAccessesAreRejected : (7 ≠ 8 ∧ 16 ≠ 8) ∧
    (∀ off ∈ [(0x101 : BitVec 12), 0x104, 0xFFF], off.toNat % 8 ≠ 0) ∧
    (busyWith [.hostRead 0x104 8]).inputs = [.hostRead 0x104 8] ∧
    (busyWith [.hostWrite 0x008 4 2]).inputs = [.hostWrite 0x008 4 2] := ⟨by decide, by decide +kernel, rfl, rfl⟩

theorem witness_ReadsReturnTheRegisterWithoutSideEffects :
    (busyWith [.hostRead (WindowReg.data 31).offset 8]).inputs = [.hostRead (WindowReg.data 31).offset 8] ∧
    (idleWith [.hostRead (WindowReg.offset .status) 8]).inputs = [.hostRead (WindowReg.offset .status) 8] := ⟨rfl, rfl⟩

theorem witness_WindowBytesAreLittleEndian : 0 < 8 ∧ 7 < 8 := by decide

/-- The first and the last byte of the window. -/
theorem witness_WindowDecodesAddressesFromTheBase : windowOffset Config.baseAddr = some 0 ∧
    windowOffset (Config.baseAddr + 4095) = some 0xFFF := by
  constructor <;> simp [windowOffset]

theorem witness_InterruptFollowsDoneAndEnable : (∃ t, exec (.gadd 0 0 0) expmodInFlight = .next t) ∧
    ∃ s : State, Inv s ∧ s.isBusy = true := by
  refine ⟨⟨_, rfl⟩, busyWith [], ⟨?_, ?_, ?_, ?_⟩, rfl⟩
  · rintro x ⟨⟩
    rfl
  all_goals decide

theorem witness_HostAccessesDoNotChangeTheCommandInFlight :
    (∃ t, step (busyWith [.hostWrite 0x008 8 1]) = .next t) ∧ (∃ x, (busyWith []).engine = .busy x) ∧
    (0x008#12 = 0x008 → (1#64).getLsbD 1 = false ∧ (1#64).getLsbD 2 = false) := ⟨⟨_, rfl⟩, ⟨_, rfl⟩, by decide⟩

theorem witness_JacIsTheJacobiSymbol : 1 % 2 = 1 ∧ 9 % 2 = 1 := by decide

theorem witness_PremIsTheUniqueRemainder : (1 : Nat) ≠ 0 ∧ IsRemainder 0x1E 0x7 0x2 :=
  ⟨by decide, by decide +kernel, 0x4, by decide +kernel⟩

theorem witness_MulmodWritesTheExactProduct : Meets (fun x => x.modp.toInt < 2) ∧ Meets (fun x => 2 ≤ x.modp.toInt) :=
  ⟨meets (regsP 1 []) (by decide +kernel), meets (regsP 2 []) (by decide +kernel)⟩

theorem witness_ExpmodWritesTheExactPower : Meets (fun x => x.modp.toInt < 2) ∧ Meets (fun x => (x.read 1).toInt < 0) ∧
    Meets (fun x => 2 ≤ x.modp.toInt ∧ (x.read 1).toInt = (0 : Nat)) ∧
    Meets (fun x => 2 ≤ x.modp.toInt ∧ (x.read 1).toInt = (2 ^ 63 - 1 : Nat)) :=
  ⟨meets (regsP 1 []) (by decide +kernel), meets (regsP 2 [0, 0xFFFFFFFFFFFFFFFF]) (by decide +kernel),
    meets (regsP 2 []) (by decide +kernel), meets (regsP 2 [0, 0x7FFFFFFFFFFFFFFF]) (by decide +kernel)⟩

theorem witness_InvmodWritesThePowerOrTheSentinel : Meets (fun x => x.modp.toInt < 2) ∧
    Meets (fun x => 2 ≤ x.modp.toInt ∧ (x.read 0).toInt % x.modp.toInt = 0) ∧
    Meets (fun x => x.modp.toInt = (2 : Nat) ∧ (x.read 0).toInt % (2 : Nat) ≠ 0 ∧ Nat.Prime 2) :=
  ⟨meets (regsP 1 []) (by decide +kernel), meets (regsP 2 []) (by decide +kernel),
    meets (regsP 2 [1]) ⟨by decide +kernel, by decide +kernel, Nat.prime_two⟩⟩

theorem witness_JacobiWritesTheSymbol : Meets (fun x => x.modp.toInt < 1) ∧ Meets (fun x => x.modp.toInt % 2 = 0) ∧
    Meets (fun x => x.modp.toInt = (1 : Nat)) :=
  ⟨meets (regsP 0 []) (by decide +kernel), meets (regsP 2 []) (by decide +kernel), meets (regsP 1 []) (by decide +kernel)⟩

theorem noRootOfTwoModThree (r : Int) : r * r % (3 : Nat) ≠ 2 := by
  have h : r % 3 = 0 ∨ r % 3 = 1 ∨ r % 3 = 2 := by omega
  rcases h with h | h | h <;> simp [Int.mul_emod, h]

theorem witness_SqrtmodWritesTheSmallerRootModuloAPrime : Nat.Prime 3 ∧ 3 ≠ 2 ∧
    Meets (fun x => x.modp.toInt = (3 : Nat) ∧ (x.read 0).toInt % (3 : Nat) = 0) ∧
    Meets (fun x => x.modp.toInt = (3 : Nat) ∧ ∀ r : Int, r * r % (3 : Nat) ≠ (x.read 0).toInt % (3 : Nat)) ∧
    Meets (fun x => x.modp.toInt = (3 : Nat) ∧ (x.read 0).toInt % (3 : Nat) ≠ 0 ∧
      ∃ r : Int, r * r % (3 : Nat) = (x.read 0).toInt % (3 : Nat)) :=
  ⟨Nat.prime_three, by decide, meets (regsP 3 []) (by decide +kernel),
    meets (regsP 3 [2]) ⟨by decide +kernel, fun r h => noRootOfTwoModThree r (h.trans (by decide +kernel))⟩,
    meets (regsP 3 [1]) ⟨by decide +kernel, by decide +kernel, 1, by decide +kernel⟩⟩

theorem threeIsNoSquare : ¬ ∃ r : Nat, r * r = 3 := by
  rintro ⟨r, h⟩
  have : r < 2 := by nlinarith
  interval_cases r <;> omega

theorem fifteenIsNoSquare : ¬ ∃ r : Nat, r * r = 15 := by
  rintro ⟨r, h⟩
  have : r < 4 := by nlinarith
  interval_cases r <;> omega

theorem witness_SqrtmodChecksItsModulusAndResidue : Meets (fun x => x.modp.toInt < 2) ∧
    Meets (fun x => x.modp.toInt = 2) ∧ Meets (fun x => x.modp.toInt = (4 : Nat) ∧ 4 % 2 = 0) ∧
    Meets (fun x => x.modp.toInt = (9 : Nat) ∧ ∃ r, r * r = 9) ∧
    Meets (fun x => x.modp.toInt = (3 : Nat) ∧ (¬ ∃ r : Nat, r * r = 3) ∧ (x.read 0).toInt % (3 : Nat) = 0) ∧
    Meets (fun x => x.modp.toInt = (3 : Nat) ∧ (¬ ∃ r : Nat, r * r = 3) ∧ (x.read 0).toInt % (3 : Nat) ≠ 0 ∧
      jacobiSym (x.read 0).toInt 3 ≠ 1) ∧
    Meets (fun x => x.modp.toInt = (15 : Nat) ∧ (¬ ∃ r : Nat, r * r = 15) ∧ (x.read 0).toInt % (15 : Nat) ≠ 0 ∧
      jacobiSym (x.read 0).toInt 15 = 1 ∧ ¬ Nat.Prime 15) := by
  have h2 : ∀ p, ((regsP p [2]).read 0).toInt = 2 := by
    intro p
    rfl
  refine ⟨meets (regsP 1 []) (by decide +kernel), meets (regsP 2 []) (by decide +kernel),
    meets (regsP 4 []) (by decide +kernel), meets (regsP 9 []) ⟨by decide +kernel, 3, rfl⟩,
    meets (regsP 3 []) ⟨by decide +kernel, threeIsNoSquare, by decide +kernel⟩,
    meets (regsP 3 [2]) ⟨by decide +kernel, threeIsNoSquare, by decide +kernel, ?_⟩,
    meets (regsP 15 [2]) ⟨by decide +kernel, fifteenIsNoSquare, by decide +kernel, ?_, by norm_num⟩⟩
  · rw [h2]
    norm_num
  · rw [h2]
    norm_num

/-- The ends of each range of n: -2^63 and 1, then 2 and 3, then 4, then 5 = 2^2 * 1 + 1. -/
theorem witness_IsprimeRunsFiftyStrongTests : Meets (fun x => (x.read 0).toInt = -2 ^ 63) ∧
    Meets (fun x => (x.read 0).toInt = 1) ∧ Meets (fun x => (x.read 0).toInt = 2) ∧
    Meets (fun x => (x.read 0).toInt = 3) ∧ Meets (fun x => (x.read 0).toInt = (4 : Nat) ∧ 4 ≤ 4 ∧ 4 % 2 = 0) ∧
    Meets (fun x => (x.read 0).toInt = (5 : Nat) ∧ 5 ≤ 5 ∧ 5 % 2 = 1 ∧ 5 - 1 = 2 ^ 2 * 1 ∧ 1 % 2 = 1) :=
  ⟨meets (regsP 0 [0x8000000000000000]) (by decide +kernel), meets (regsP 0 [1]) (by decide +kernel),
    meets (regsP 0 [2]) (by decide +kernel), meets (regsP 0 [3]) (by decide +kernel),
    meets (regsP 0 [4]) (by decide +kernel), meets (regsP 0 [5]) (by decide +kernel)⟩

theorem witness_IsprimeIsOneForEveryPrime : Meets (fun x => (x.read 0).toInt = (2 : Nat) ∧ Nat.Prime 2) ∧
    Meets (fun x => (x.read 0).toInt = (5 : Nat) ∧ Nat.Prime 5) :=
  ⟨meets (regsP 0 [2]) ⟨by decide +kernel, Nat.prime_two⟩, meets (regsP 0 [5]) ⟨by decide +kernel, Nat.prime_five⟩⟩

theorem witness_CvalidTestsTheDiscriminant : Meets (fun x => x.modp.toInt < 2) ∧ Meets (fun x => 2 ≤ x.modp.toInt) :=
  ⟨meets (regsP 1 []) (by decide +kernel), meets (regsP 2 []) (by decide +kernel)⟩

theorem witness_PnormWritesTheNormalizedTriple : (Instr.pnorm 29 29).wf = true ∧ Meets (fun x => x.modp.toInt < 2) ∧
    Meets (fun x => x.modp.toInt = (2 : Nat) ∧ (x.triple 0).z.toInt % (2 : Nat) = 0) ∧
    Meets (fun x => x.modp.toInt = (2 : Nat) ∧ (x.triple 0).z.toInt % (2 : Nat) ≠ 0) ∧
    Meets (fun x => x.modp.toInt = (2 : Nat) ∧
      NormalizedP 2 ⟨(x.triple 0).x.toNat, (x.triple 0).y.toNat, (x.triple 0).z.toNat⟩) :=
  ⟨by decide, meets (regsP 1 []) (by decide +kernel), meets (regsP 2 []) (by decide +kernel),
    meets (regsP 2 [0, 0, 1]) (by decide +kernel),
    meets (regsP 2 [1, 1, 1]) ⟨by decide +kernel, by unfold NormalizedP; decide +kernel⟩⟩

theorem witness_PaddFollowsThePointLaw : (Instr.padd 29 29 29).wf = true ∧ Meets (fun x => x.modp.toInt < 2) ∧
    Meets (fun x => x.modp.toInt = (2 : Nat) ∧ Nat.Prime 2) :=
  ⟨by decide, meets (regsP 1 []) (by decide +kernel), meets (regsP 2 []) ⟨by decide +kernel, Nat.prime_two⟩⟩

theorem witness_PsmulIsDoubleAndAdd : (Instr.psmul 29 29 31).wf = true ∧ Meets (fun x => x.modp.toInt < 2) ∧
    Meets (fun x => (x.read 3).toInt < 0) ∧
    Meets (fun x => x.modp.toInt = (2 : Nat) ∧ (x.read 3).toInt = (2 ^ 63 - 1 : Nat) ∧ Nat.Prime 2) :=
  ⟨by decide, meets (regsP 1 []) (by decide +kernel), meets (regsP 2 [0, 0, 0, 0x8000000000000000]) (by decide +kernel),
    meets (regsP 2 [0, 0, 0, 0x7FFFFFFFFFFFFFFF]) ⟨by decide +kernel, by decide +kernel, Nat.prime_two⟩⟩

theorem witness_PeqComparesRawTriples : (Instr.peq 31 29 29).wf = true ∧ Meets fun _ => True :=
  ⟨by decide, meets Regs.reset trivial⟩

theorem witness_GaddIsExclusiveOr : Meets fun _ => True := meets Regs.reset trivial

theorem witness_GshlMultipliesByAPowerOfZ : Meets (fun x => (x.read 1).toInt < 0) ∧
    Meets (fun x => (x.read 1).toInt = (63 : Nat) ∧ (x.read 0).toNat * 2 ^ 63 < 2 ^ 64) ∧
    Meets (fun x => (x.read 1).toInt = (64 : Nat) ∧ 2 ^ 64 ≤ (x.read 0).toNat * 2 ^ 64) :=
  ⟨meets (regsF 0 [1, 0xFFFFFFFFFFFFFFFF]) (by decide +kernel), meets (regsF 0 [1, 63]) (by decide +kernel),
    meets (regsF 0 [1, 64]) (by decide +kernel)⟩

theorem witness_GmulIsTheExactProductOrOverflow :
    Meets (fun x => x.read 0 ≠ 0 ∧ x.read 1 ≠ 0 ∧ 63 < deg (x.read 0).toNat + deg (x.read 1).toNat) ∧
    Meets (fun x => x.read 0 = 0) ∧ Meets (fun x => deg (x.read 0).toNat + deg (x.read 1).toNat ≤ 63) :=
  ⟨meets (regsF 0 [0x100000000, 0x100000000]) (by decide +kernel), meets (regsF 0 []) (by decide +kernel),
    meets (regsF 0 [0x80000000, 0x100000000]) (by decide +kernel)⟩

theorem witness_GmodWritesTheRemainder : Meets (fun x => x.read 1 = 0) ∧ Meets (fun x => x.read 1 ≠ 0) :=
  ⟨meets (regsF 0 []) (by decide +kernel), meets (regsF 0 [0, 1]) (by decide +kernel)⟩

theorem witness_GdegWritesTheDegreeOrTheSentinel : Meets (fun x => x.read 0 = 0) ∧
    Meets (fun x => 2 ^ 0 ≤ (x.read 0).toNat ∧ (x.read 0).toNat < 2 ^ (0 + 1)) ∧
    Meets (fun x => 2 ^ 63 ≤ (x.read 0).toNat ∧ (x.read 0).toNat < 2 ^ (63 + 1)) :=
  ⟨meets (regsF 0 []) (by decide +kernel), meets (regsF 0 [1]) (by decide +kernel),
    meets (regsF 0 [0x8000000000000000]) (by decide +kernel)⟩

theorem witness_FieldCommandsWriteRemaindersModuloF : Meets (fun x => x.fpoly.toNat < 2) ∧
    Meets (fun x => 2 ≤ x.fpoly.toNat ∧ (x.read 1).toInt < 0) ∧
    Meets (fun x => 2 ≤ x.fpoly.toNat ∧ (x.read 1).toInt = (0 : Nat)) ∧
    Meets (fun x => 2 ≤ x.fpoly.toNat ∧ deg x.fpoly.toNat = (1 : Nat) ∧ irreducible x.fpoly.toNat = true) ∧
    Meets (fun x => 2 ≤ x.fpoly.toNat ∧ deg x.fpoly.toNat = (63 : Nat)) :=
  ⟨meets (regsF 1 []) (by decide +kernel), meets (regsF 2 [0, 0xFFFFFFFFFFFFFFFF]) (by decide +kernel),
    meets (regsF 2 []) (by decide +kernel), meets (regsF 2 []) (by decide +kernel),
    meets (regsF 0xFFFFFFFFFFFFFFFF []) (by decide +kernel)⟩

theorem one_is_not_zero_mod_z : ¬ IsRemainder 1 2 0 := by
  rintro ⟨-, Q, h⟩
  have h0 := congrArg (fun n => (toPoly n).coeff 0) h
  have hz : toPoly 2 = Polynomial.X := by simpa using toPoly_shiftLeft 1 1
  simp [hz] at h0

theorem zero_mod_z : IsRemainder 2 2 0 := ⟨by decide +kernel, 1, by decide +kernel⟩

theorem witness_GinvWritesThePowerOrNoValue : Meets (fun x => x.fpoly.toNat < 2) ∧
    Meets (fun x => 2 ≤ x.fpoly.toNat ∧ IsRemainder (x.read 0).toNat x.fpoly.toNat 0) ∧
    Meets (fun x => 2 ≤ x.fpoly.toNat ∧ deg x.fpoly.toNat = (1 : Nat) ∧
      ¬ IsRemainder (x.read 0).toNat x.fpoly.toNat 0 ∧ irreducible x.fpoly.toNat = true) :=
  ⟨meets (regsF 1 []) (by decide +kernel), meets (regsF 2 [2]) ⟨by decide +kernel, zero_mod_z⟩,
    meets (regsF 2 [1]) ⟨by decide +kernel, by decide +kernel, one_is_not_zero_mod_z, by decide +kernel⟩⟩

theorem witness_BnormWritesTheNormalizedTriple : (Instr.bnorm 29 29).wf = true ∧ Meets (fun x => x.fpoly.toNat < 2) ∧
    Meets (fun x => x.fpoly.toNat = 2 ∧ deg 2 = (1 : Nat) ∧ IsRemainder (x.triple 0).z.toNat 2 0) ∧
    Meets (fun x => x.fpoly.toNat = 2 ∧ deg 2 = (1 : Nat) ∧ ¬ IsRemainder (x.triple 0).z.toNat 2 0) ∧
    Meets (fun x => x.fpoly.toNat = 2 ∧ deg 2 = (1 : Nat) ∧
      NormalizedB 2 ⟨(x.triple 0).x.toNat, (x.triple 0).y.toNat, (x.triple 0).z.toNat⟩) :=
  ⟨by decide, meets (regsF 1 []) (by decide +kernel),
    meets (regsF 2 [0, 0, 2]) ⟨by decide +kernel, by decide +kernel, zero_mod_z⟩,
    meets (regsF 2 [0, 0, 1]) ⟨by decide +kernel, by decide +kernel, one_is_not_zero_mod_z⟩,
    meets (regsF 2 [1, 1, 1]) ⟨by decide +kernel, by decide +kernel, by unfold NormalizedB; decide +kernel⟩⟩

theorem witness_BaddFollowsThePointLaw : (Instr.badd 29 29 29).wf = true ∧ Meets (fun x => x.fpoly.toNat < 2) ∧
    Meets (fun x => x.fpoly.toNat = 2 ∧ irreducible 2 = true) ∧
    Meets (fun x => x.fpoly.toNat = 0x13 ∧ irreducible 0x13 = true) :=
  ⟨by decide, meets (regsF 1 []) (by decide +kernel), meets (regsF 2 []) (by decide +kernel),
    meets (regsF 0x13 []) (by decide +kernel)⟩

theorem witness_BsmulIsDoubleAndAdd : (Instr.bsmul 29 29 31).wf = true ∧ Meets (fun x => x.fpoly.toNat < 2) ∧
    Meets (fun x => (x.read 3).toInt < 0) ∧
    Meets (fun x => x.fpoly.toNat = 2 ∧ (x.read 3).toInt = (2 ^ 63 - 1 : Nat) ∧ irreducible 2 = true) :=
  ⟨by decide, meets (regsF 1 []) (by decide +kernel), meets (regsF 2 [0, 0, 0, 0x8000000000000000]) (by decide +kernel),
    meets (regsF 2 [0, 0, 0, 0x7FFFFFFFFFFFFFFF]) (by decide +kernel)⟩

theorem witness_PointAdditionIsCommutative : Meets (fun x => x.modp.toInt = (17 : Nat) ∧ Nat.Prime 17) ∧
    Meets (fun x => irreducible x.fpoly.toNat = true) :=
  ⟨meets (regsP 17 []) ⟨by decide +kernel, by norm_num⟩, meets (regsF 0x13 []) (by decide +kernel)⟩

/-- (6, 3) and the infinity on y² = x³ + 2x + 2 mod 17. -/
theorem witness_PrimePointSumsStayOnTheCurve : Nat.Prime 17 ∧ NormalizedP 17 ⟨6, 3, 1⟩ ∧ NormalizedP 17 ⟨0, 1, 0⟩ ∧
    OnCurveP 17 2 2 ⟨6, 3, 1⟩ ∧ OnCurveP 17 2 2 ⟨0, 1, 0⟩ := by
  refine ⟨by norm_num, ?_⟩
  unfold NormalizedP OnCurveP
  decide +kernel

end Sys2Proof.Tests
end

section
/-! PROOFS. The mathematical functions of 00_scope.md R12: trial division, products and remainders in GF(2)[z], and the
factor search, each as the predicate that R12 states. -/

namespace Sys2Proof.Machine

/-! ## Primes -/

/-- Trial division up to the square root decides primality in the sense of the library. -/
theorem isPrime_iff_prime (n : Nat) : isPrime n = true ↔ n.Prime := by
  rw [isPrime, Bool.and_eq_true, decide_eq_true_iff, noDivisorFrom_iff n n 2 le_rfl (by omega),
    Nat.prime_def_le_sqrt]
  simp only [Nat.le_sqrt]

/-- Settles O31: the library's definition of a prime, with its divisors ranging below n, is the predicate of R12. -/
theorem isPrimeIsThePredicate : Obligations.IsPrimeIsThePredicate := by
  intro n
  rw [isPrime_iff_prime]
  exact Nat.prime_def_lt'

/-! ## Products in GF(2)[z] -/

/-- A count of indices as a sum of indicators. -/
theorem natCast_countP_range {A : Type} [NonAssocSemiring A] (p : Nat → Bool) (n : Nat) :
    (((List.range n).countP p : Nat) : A) = ∑ i ∈ Finset.range n, if p i then 1 else 0 := by
  have hcount : (List.range n).countP p = Nat.count (fun i => p i = true) n := by simp [Nat.count]
  rw [hcount, Nat.count_eq_card_filter_range, Finset.sum_boole]

/-- A coefficient of a product, modulo 2, is the number of pairs of coefficients that contribute to it. -/
theorem toPoly_mul_coeff (P Q k : Nat) : (toPoly P * toPoly Q).coeff k =
    (((List.range (k + 1)).countP (fun i => P.testBit i && Q.testBit (k - i)) : Nat) : ZMod 2) := by
  rw [natCast_countP_range, Polynomial.coeff_mul,
    Finset.Nat.sum_antidiagonal_eq_sum_range_succ (fun i j => (toPoly P).coeff i * (toPoly Q).coeff j)]
  refine Finset.sum_congr rfl fun i _ => ?_
  simp only [toPoly_coeff, Bool.and_eq_true, ite_and, ite_mul, one_mul, zero_mul]

/-- A coefficient is 1 in GF(2) exactly when its bit is set (10_state.md R31). -/
theorem toPoly_coeff_eq_one_iff (n i : Nat) : (toPoly n).coeff i = 1 ↔ n.testBit i = true := by
  simp [toPoly_coeff]

/-- Settles O33: the convolution is the coefficient of the product of polynomials, which `toPoly` makes of `clmul`. -/
theorem clmulCoefficientsAreConvolutions : Obligations.ClmulCoefficientsAreConvolutions := by
  intro P Q k
  rw [Bool.eq_iff_iff, decide_eq_true_iff, ← toPoly_coeff_eq_one_iff, toPoly_clmul, toPoly_mul_coeff,
    ZMod.natCast_eq_one_iff_odd, Nat.odd_iff]

/-! ## Remainders -/

/-- The only multiple of M of a degree below that of M is 0. -/
theorem eq_zero_of_toPoly_dvd {M a : Nat} (hdeg : deg a < deg M) (hdvd : toPoly M ∣ toPoly a) : a = 0 := by
  by_contra ha
  have hM : M ≠ 0 := by
    rintro rfl
    exact ha ((toPoly_eq_zero_iff a).1 (zero_dvd_iff.1 (toPoly_zero ▸ hdvd)))
  have hle := Polynomial.natDegree_le_of_dvd hdvd (mt (toPoly_eq_zero_iff a).1 ha)
  rw [toPoly_natDegree hM, toPoly_natDegree ha] at hle
  rw [deg_eq_log2 ha, deg_eq_log2 hM] at hdeg
  omega

/-- A remainder is unique: two of them differ by a multiple of M of a smaller degree. -/
theorem IsRemainder.unique {P M R S : Nat} (hM : M ≠ 0) (hR : IsRemainder P M R) (hS : IsRemainder P M S) : R = S := by
  obtain ⟨hRdeg, hRdvd⟩ := isRemainder_iff_dvd.1 hR
  obtain ⟨hSdeg, hSdvd⟩ := isRemainder_iff_dvd.1 hS
  have hdvd : toPoly M ∣ toPoly (R ^^^ S) := by
    rw [toPoly_xor, ← CharTwo.sub_eq_add, ← sub_sub_sub_cancel_left _ _ (toPoly P)]
    exact dvd_sub hSdvd hRdvd
  exact Nat.xor_eq_zero_iff.1 (eq_zero_of_toPoly_dvd (deg_xor_lt hM hRdeg hSdeg) hdvd)

/-- Settles O34: the reduction loop ends at a remainder, and there is no other. -/
theorem premIsTheUniqueRemainder : Obligations.PremIsTheUniqueRemainder := fun P _ hM =>
  ⟨prem_isRemainder hM P, fun _ hR => hR.unique hM (prem_isRemainder hM P)⟩

/-! ## Irreducible polynomials -/

/-- The product does not depend on the order of its factors. -/
theorem clmul_comm (g h : Nat) : clmul g h = clmul h g := toPoly_injective (by simp [mul_comm])

/-- The remainder is 0 exactly for the multiples of g. -/
theorem prem_eq_zero_iff {f g : Nat} (hg : g ≠ 0) : prem f g = 0 ↔ ∃ h, clmul g h = f := by
  constructor
  · intro h0
    obtain ⟨-, h, hf⟩ := prem_isRemainder hg f
    exact ⟨h, by rw [hf, h0, Nat.xor_zero, clmul_comm]⟩
  · rintro ⟨h, rfl⟩
    refine (prem_isRemainder hg _).unique hg ⟨?_, h, by rw [Nat.xor_zero, clmul_comm]⟩
    rw [deg_eq_log2 hg]
    simp [deg]
    omega

/-- A degree of at least 1 is a bit mask of at least 2. -/
theorem one_le_deg_iff (f : Nat) : 1 ≤ deg f ↔ 2 ≤ f := by
  by_cases hf : f = 0
  · simp [deg, hf]
  · rw [deg_eq_log2 hf, Nat.one_le_cast, Nat.le_log2 hf, pow_one]

/-- The search of `irreducible` goes through the bit masks of degree 1 to m / 2. -/
theorem irreducible_iff_search (f : Nat) : irreducible f = true ↔
    2 ≤ f ∧ ∀ g, 2 ≤ g → g.log2 ≤ f.log2 / 2 → ∀ h, clmul g h ≠ f := by
  have hbound : 2 + (2 ^ (f.log2 / 2 + 1) - 2) = 2 ^ (f.log2 / 2 + 1) := by
    have := Nat.one_le_two_pow (n := f.log2 / 2)
    omega
  rw [irreducible, Bool.and_eq_true, decide_eq_true_iff, noFactorFrom_iff, fieldDegree, hbound]
  refine and_congr_right fun _ => forall₂_congr fun g hg => ?_
  have hg0 : g ≠ 0 := by omega
  rw [← Nat.log2_lt hg0, Nat.lt_succ_iff, Ne, prem_eq_zero_iff hg0, not_exists]

/-- A product other than 0 has no factor 0. -/
theorem ne_zero_of_clmul_ne_zero {g h : Nat} (hne : clmul g h ≠ 0) : g ≠ 0 ∧ h ≠ 0 := by
  rwa [Ne, ← toPoly_eq_zero_iff, toPoly_clmul, mul_eq_zero, not_or, toPoly_eq_zero_iff, toPoly_eq_zero_iff] at hne

/-- The cofactor of a factor of smaller degree has a degree of at least 1. -/
theorem one_le_deg_cofactor {g h : Nat} (hne : clmul g h ≠ 0) (hlt : deg g < deg (clmul g h)) : 1 ≤ deg h := by
  obtain ⟨hg, hh⟩ := ne_zero_of_clmul_ne_zero hne
  rw [deg_eq_log2 hg, deg_eq_log2 hne, (clmul_log2 hg hh).2] at hlt
  rw [deg_eq_log2 hh]
  omega

/-- Of two factors, one has at most half the degree of the product. -/
theorem log2_le_half_of_clmul {g h : Nat} (hne : clmul g h ≠ 0) :
    g.log2 ≤ (clmul g h).log2 / 2 ∨ h.log2 ≤ (clmul g h).log2 / 2 := by
  obtain ⟨hg, hh⟩ := ne_zero_of_clmul_ne_zero hne
  rw [(clmul_log2 hg hh).2]
  omega

/-- Settles O35: a proper factor or its cofactor lies in the half of the degrees that is searched. -/
theorem irreducibleMeansNoProperFactor : Obligations.IrreducibleMeansNoProperFactor := by
  intro f
  rw [irreducible_iff_search, one_le_deg_iff]
  refine and_congr_right fun hf => ⟨?_, ?_⟩
  · rintro hsearch g h hg hlt rfl
    have hne : clmul g h ≠ 0 := by omega
    rcases log2_le_half_of_clmul hne with hhalf | hhalf
    · exact hsearch g ((one_le_deg_iff g).1 hg) hhalf h rfl
    · exact hsearch h ((one_le_deg_iff h).1 (one_le_deg_cofactor hne hlt)) hhalf g (clmul_comm h g)
  · intro hproper g hg hhalf
    have hm : 1 ≤ deg f := (one_le_deg_iff f).2 hf
    have hlt : deg g < deg f := by
      rw [deg_eq_log2 (by omega)] at hm
      rw [deg_eq_log2 (by omega), deg_eq_log2 (by omega)]
      omega
    exact fun h => hproper g h ((one_le_deg_iff g).2 hg) hlt

end Sys2Proof.Machine
end

section
/-! PROOFS. The state and its steps (10_state.md): what each event does, said once; the frame of a completion; the
invariant; who writes a register; what a host access does. -/

namespace Sys2Proof.Machine

/-! ## Events -/

/-- With nothing scheduled a step is the engine's (log 1). -/
theorem step_of_inputs_nil {s : State} (h : s.inputs = []) : step s = engineStep s := by
  simp only [step, h]

/-- A step takes the first scheduled event (20_memory.md R72). -/
theorem step_of_inputs_cons {s : State} {e : Event} {rest : List Event} (h : s.inputs = e :: rest) :
    step s = takeEvent e { s with inputs := rest } := by
  simp only [step, h]

/-- A host read changes the bus's answer only (20_memory.md R63, R65). -/
theorem takeEvent_hostRead_next {off : BitVec 12} {width : Nat} {s t : State}
    (h : takeEvent (.hostRead off width) s = .next t) : ∃ answer, t = { s with reply := some answer } := by
  obtain rfl : s.hostRead off width = t := by simpa [takeEvent] using h
  unfold State.hostRead
  split <;> exact ⟨_, rfl⟩

/-- An aligned offset is reserved, or is the offset of the register it decodes to (10_state.md R21). -/
theorem offset_windowReg {off : BitVec 12} (h : off.toNat % 8 = 0) :
    windowReg off.toNat = .reserved ∨ off = (windowReg off.toNat).offset := by
  unfold windowReg
  split_ifs
  iterate 8 exact .inr (BitVec.eq_of_toNat_eq ‹_›)
  · right
    apply BitVec.eq_of_toNat_eq
    simp only [WindowReg.offset, BitVec.toNat_ofNat, Fin.val_ofNat]
    omega
  · exact .inl rfl

/-- A host write is rejected and changes the bus's answer only, or is an 8-byte write to the register at its offset
(20_memory.md R64, R65). -/
theorem takeEvent_hostWrite_next {off : BitVec 12} {width : Nat} {v : Word} {s t : State}
    (h : takeEvent (.hostWrite off width v) s = .next t) :
    t = { s with reply := some .writeRejected } ∨
    ∃ r : WindowReg, width = 8 ∧ (r = .reserved ∨ off = r.offset) ∧
      t = { s.writeReg v r with reply := some .writeAccepted } := by
  obtain rfl : s.hostWrite off width v = t := by simpa [takeEvent] using h
  unfold State.hostWrite
  split
  case isTrue h =>
    obtain ⟨hwidth, haligned⟩ : width = 8 ∧ off.toNat % 8 = 0 := by simpa [acceptsAccess] using h
    exact .inr ⟨_, hwidth, offset_windowReg haligned, rfl⟩
  case isFalse => exact .inl rfl

/-! ## Completions -/

/-- What the latched word completes with: the outcome of its command's rule, or ILLEGAL if it does not decode
(60_exceptions.md R262, R263). -/
def State.latchedOutcome (s : State) (x : Regs) : RuleOutcome :=
  match decode s.cmd with
  | .ok i => ruleOf i x s.draws
  | .error _ => .error .illegal

/-- A result comes from a word that decodes. -/
theorem latchedOutcome_ok {s : State} {x : Regs} {r : Result} (h : s.latchedOutcome x = .ok r) :
    ∃ i, decode s.cmd = .ok i ∧ ruleOf i x s.draws = .ok r := by
  unfold State.latchedOutcome at h
  split at h
  next i hi => exact ⟨i, hi, h⟩
  next => cases h

/-- The engine has no step while idle, and else completes with the latched word's outcome (60_exceptions.md R262,
R267). -/
theorem engineStep_next {s t : State} (h : engineStep s = .next t) :
    (s.engine = .idle ∧ t = s) ∨ ∃ x, s.engine = .busy x ∧ t = s.completeWith (s.latchedOutcome x) := by
  cases he : s.engine with
  | idle => exact .inl ⟨rfl, by simpa [engineStep, State.isBusy_idle he] using h.symm⟩
  | busy x =>
    simp only [engineStep, State.isBusy_busy he, if_true, completeLatched] at h
    refine .inr ⟨x, rfl, ?_⟩
    unfold State.latchedOutcome
    cases hdecode : decode s.cmd with
    | ok i => simpa [hdecode, exec_busy i he] using h.symm
    | error e => simpa [hdecode] using h.symm

/-- A completion leaves every data register alone that its outcome's bounds do not name. -/
theorem read_completeWith {ds : List Reg} {o : RuleOutcome} (ho : Within ds o) (s : State) {j : Reg} (hj : j ∉ ds) :
    (s.completeWith o).regs.read j = s.regs.read j := by
  cases o with
  | error c => rfl
  | ok r =>
    obtain ⟨hwrites, -⟩ := ho r rfl
    exact Regs.read_writeAll_other _ _ fun w hw hjw => hj (hjw ▸ hwrites w hw)

/-- Settles O11: the outcome of the command's rule is an error, which writes nothing, or a result within the command's
destinations. -/
theorem completionFrameOfEveryCommand : Obligations.CompletionFrameOfEveryCommand := by
  intro i s x hx
  refine ⟨_, exec_busy i hx, ?_, fun j hj => read_completeWith (ruleOf_within i x s.draws) s hj, ?_⟩
  · cases ruleOf i x s.draws with
    | error c => exact completed_errorComplete c s
    | ok r => exact completed_resultComplete r s
  · cases ruleOf i x s.draws with
    | error c => exact fun _ => ⟨writesNone_errorComplete c s, rfl, rfl⟩
    | ok r => exact fun herr => absurd rfl herr

/-! ## FLAG and SENT -/

/-- The commands that may leave FLAG = 1 (10_state.md R41). -/
def maySetFlag : Instr → Bool
  | .isprime _ _ | .cvalid _ | .peq _ _ _ | .pnorm _ _ | .padd _ _ _ | .psmul _ _ _ | .bnorm _ _ | .badd _ _ _
  | .bsmul _ _ _ => true
  | _ => false

/-- The commands that may leave SENT = 1 (10_state.md R42). -/
def maySetSent : Instr → Bool
  | .invmod _ _ | .gdeg _ _ | .ginv _ _ => true
  | _ => false

/-- If the outcome is a result, its FLAG and SENT are among the allowed ones. -/
def FlagsAllowed (flag sent : Bool) (o : RuleOutcome) : Prop :=
  ∀ r, o = .ok r → (r.flag = true → flag = true) ∧ (r.sent = true → sent = true)

section
variable {flag sent : Bool}

theorem flagsAllowed_error (c : ErrCode) : FlagsAllowed flag sent (.error c) := by
  intro r h
  cases h

theorem flagsAllowed_plain (rd : Reg) (v : Word) : FlagsAllowed flag sent (plainResult rd v) := by
  intro r h
  cases h
  simp

/-- A result with SENT = 0 under a rule that may set FLAG: Boolean and point results. -/
theorem flagsAllowed_flag (writes : List (Reg × Word)) (b : Bool) :
    FlagsAllowed true sent (.ok ⟨writes, b, false⟩) := by
  intro r h
  cases h
  simp

/-- A sentinel under a rule that may set SENT. -/
theorem flagsAllowed_sent (writes : List (Reg × Word)) : FlagsAllowed flag true (.ok ⟨writes, false, true⟩) := by
  intro r h
  cases h
  simp

theorem flagsAllowed_ite {c : Prop} [Decidable c] {a b : RuleOutcome} (ha : FlagsAllowed flag sent a)
    (hb : FlagsAllowed flag sent b) : FlagsAllowed flag sent (if c then a else b) := by
  split <;> assumption

theorem flagsAllowed_tripleBases {ks : List Reg} {o : RuleOutcome} (h : FlagsAllowed flag sent o) :
    FlagsAllowed flag sent (withTripleBases ks o) := flagsAllowed_ite h (flagsAllowed_error _)

theorem flagsAllowed_modulus {x : Regs} {f : Nat → RuleOutcome} (h : ∀ p, FlagsAllowed flag sent (f p)) :
    FlagsAllowed flag sent (withModulus x f) := flagsAllowed_ite (flagsAllowed_error _) (h _)

theorem flagsAllowed_fieldModulus {x : Regs} {f : Nat → RuleOutcome} (h : ∀ p, FlagsAllowed flag sent (f p)) :
    FlagsAllowed flag sent (withFieldModulus x f) := flagsAllowed_ite (flagsAllowed_error _) (h _)

theorem flagsAllowed_nonneg {v : Word} {f : Nat → RuleOutcome} (h : ∀ k, FlagsAllowed flag sent (f k)) :
    FlagsAllowed flag sent (withNonneg v f) := flagsAllowed_ite (flagsAllowed_error _) (h _)

end

/-- Every command's rule keeps to the commands listed for FLAG and SENT (10_state.md R53). -/
theorem ruleOf_flagsAllowed (i : Instr) (x : Regs) (draw : Nat → Nat) :
    FlagsAllowed (maySetFlag i) (maySetSent i) (ruleOf i x draw) := by
  cases i with
  | mulmod => exact flagsAllowed_modulus fun _ => flagsAllowed_plain _ _
  | expmod => exact flagsAllowed_modulus fun _ => flagsAllowed_nonneg fun _ => flagsAllowed_plain _ _
  | invmod => exact flagsAllowed_modulus fun _ => flagsAllowed_ite (flagsAllowed_sent _) (flagsAllowed_plain _ _)
  | jacobi => exact flagsAllowed_ite (flagsAllowed_error _) (flagsAllowed_plain _ _)
  | sqrtmod =>
    simp only [ruleOf, sqrtmodRule]
    refine flagsAllowed_modulus fun _ => ?_
    split
    · exact flagsAllowed_plain _ _
    · exact flagsAllowed_error _
  | isprime => exact flagsAllowed_flag _ _
  | cvalid => exact flagsAllowed_modulus fun _ => flagsAllowed_flag _ _
  | pnorm => exact flagsAllowed_tripleBases (flagsAllowed_modulus fun _ => flagsAllowed_flag _ _)
  | padd => exact flagsAllowed_tripleBases (flagsAllowed_modulus fun _ => flagsAllowed_flag _ _)
  | psmul =>
    exact flagsAllowed_tripleBases (flagsAllowed_modulus fun _ => flagsAllowed_nonneg fun _ => flagsAllowed_flag _ _)
  | peq => exact flagsAllowed_tripleBases (flagsAllowed_flag _ _)
  | gadd => exact flagsAllowed_plain _ _
  | gshl =>
    simp only [ruleOf, gshlRule]
    refine flagsAllowed_nonneg fun _ => ?_
    split
    · exact flagsAllowed_plain _ _
    · exact flagsAllowed_error _
  | gmul => exact flagsAllowed_ite (flagsAllowed_error _) (flagsAllowed_plain _ _)
  | gmod => exact flagsAllowed_ite (flagsAllowed_error _) (flagsAllowed_plain _ _)
  | gdeg => exact flagsAllowed_ite (flagsAllowed_sent _) (flagsAllowed_plain _ _)
  | gmulm => exact flagsAllowed_fieldModulus fun _ => flagsAllowed_plain _ _
  | gexp => exact flagsAllowed_fieldModulus fun _ => flagsAllowed_nonneg fun _ => flagsAllowed_plain _ _
  | ginv => exact flagsAllowed_fieldModulus fun _ => flagsAllowed_ite (flagsAllowed_sent _) (flagsAllowed_plain _ _)
  | gsqrt => exact flagsAllowed_fieldModulus fun _ => flagsAllowed_plain _ _
  | bnorm => exact flagsAllowed_tripleBases (flagsAllowed_fieldModulus fun _ => flagsAllowed_flag _ _)
  | badd => exact flagsAllowed_tripleBases (flagsAllowed_fieldModulus fun _ => flagsAllowed_flag _ _)
  | bsmul =>
    exact flagsAllowed_tripleBases
      (flagsAllowed_fieldModulus fun _ => flagsAllowed_nonneg fun _ => flagsAllowed_flag _ _)

/-- FLAG and SENT after a completion are set by the listed commands only. -/
theorem exec_flagsAllowed {i : Instr} {s t : State} (h : exec i s = .next t) :
    (t.status.flag = true → maySetFlag i = true) ∧ (t.status.sent = true → maySetSent i = true) := by
  obtain ⟨x, -, rfl⟩ := exec_next h
  cases ho : ruleOf i x s.draws with
  | error c => simp
  | ok r => exact ruleOf_flagsAllowed i x s.draws r ho

/-- Settles O14: the listed commands are those of `maySetFlag` and `maySetSent`. -/
theorem onlyTheListedCommandsSetFlagOrSent : Obligations.OnlyTheListedCommandsSetFlagOrSent := by
  intro i s t h
  obtain ⟨hflag, hsent⟩ := exec_flagsAllowed h
  refine ⟨fun hf => ?_, fun hs => ?_⟩
  · specialize hflag hf
    cases i <;> simp [maySetFlag] at hflag ⊢
  · specialize hsent hs
    cases i <;> simp [maySetSent] at hsent ⊢

/-! ## The invariant -/

/-- On an idle engine the invariant speaks of FLAG, SENT and ERR only. -/
theorem inv_of_idle {t : State} (hidle : t.engine = .idle)
    (herr : t.status.err ≠ .none → t.status.flag = false ∧ t.status.sent = false)
    (hboth : ¬ (t.status.flag = true ∧ t.status.sent = true)) : Inv t where
  snapshot_live x hx := by simp [hidle] at hx
  busy_clear hbusy := by simp [State.isBusy_idle hidle] at hbusy
  error_clear := herr
  flag_or_sent := hboth

/-- An idle engine with FLAG = SENT = 0 has the invariant. -/
theorem inv_of_idle_clear {t : State} (hidle : t.engine = .idle) (hflag : t.status.flag = false)
    (hsent : t.status.sent = false) : Inv t :=
  inv_of_idle hidle (fun _ => ⟨hflag, hsent⟩) (by simp [hflag])

/-- Settles O10: after reset the engine is idle and STATUS is clear. -/
theorem resetHasTheInvariant : Obligations.ResetHasTheInvariant := inv_of_idle_clear rfl rfl rfl

/-- The invariant rests on the engine, the registers and the STATUS bits, and DONE may be cleared. -/
theorem Inv.of_same {s t : State} (h : Inv s) (hengine : t.engine = s.engine) (hregs : t.regs = s.regs)
    (hdone : s.status.done = false → t.status.done = false) (hflag : t.status.flag = s.status.flag)
    (hsent : t.status.sent = s.status.sent) (herr : t.status.err = s.status.err) : Inv t := by
  obtain ⟨hlive, hclear, herrc, hboth⟩ := h
  refine ⟨fun x hx => ?_, fun hbusy => ?_, ?_, ?_⟩
  · rw [hregs]
    exact hlive x (hengine ▸ hx)
  · obtain ⟨hd, hrest⟩ := hclear (by simpa [State.isBusy, hengine] using hbusy)
    rw [hflag, hsent, herr]
    exact ⟨hdone hd, hrest⟩
  · rw [hflag, hsent, herr]
    exact herrc
  · rw [hflag, hsent]
    exact hboth

/-- A launch takes the snapshot from the live registers and clears STATUS but OVR (60_exceptions.md R261). -/
theorem inv_launch (v : Word) (s : State) : Inv (s.launch v) where
  snapshot_live x hx := by simpa using hx.symm
  busy_clear _ := ⟨rfl, rfl, rfl, rfl⟩
  error_clear herr := absurd rfl herr
  flag_or_sent := by simp

/-- The completion of the latched word: an error clears FLAG and SENT, and no rule sets both. -/
theorem inv_completeWith_latchedOutcome (s : State) (x : Regs) : Inv (s.completeWith (s.latchedOutcome x)) := by
  cases ho : s.latchedOutcome x with
  | error c => exact inv_of_idle_clear rfl rfl rfl
  | ok r =>
    obtain ⟨i, -, hr⟩ := latchedOutcome_ok ho
    obtain ⟨-, hboth⟩ := ruleOf_within i x s.draws r hr
    exact inv_of_idle rfl (fun herr => absurd rfl herr) hboth

/-- The engine's step keeps the invariant. -/
theorem Inv.of_engineStep {s t : State} (h : Inv s) (ht : engineStep s = .next t) : Inv t := by
  obtain ⟨-, rfl⟩ | ⟨x, -, rfl⟩ := engineStep_next ht
  · exact h
  · exact inv_completeWith_latchedOutcome s x

/-- A CTRL write keeps the invariant. -/
theorem Inv.writeCtrl {s : State} (h : Inv s) (v : Word) : Inv (s.writeCtrl v) := by
  obtain hreset | ⟨-, habort⟩ | hirqen := writeCtrl_cases v s
  · rw [hreset]
    exact inv_of_idle_clear rfl rfl rfl
  · rw [habort]
    exact inv_of_idle_clear rfl rfl rfl
  · rw [hirqen]
    exact h.of_same rfl rfl id rfl rfl rfl

/-- A write to any register keeps the invariant. -/
theorem Inv.writeReg {s : State} (h : Inv s) (v : Word) (r : WindowReg) : Inv (s.writeReg v r) := by
  obtain hsame | hctrl | hstatus | ⟨-, hlaunch⟩ | ⟨-, hdrop⟩ | ⟨hidle, regs, hstore⟩ := writeReg_cases v s r
  · rwa [hsame]
  · rw [hctrl]
    exact h.writeCtrl v
  · rw [hstatus]
    exact h.of_same rfl rfl (fun hdone => by simp [hdone]) rfl rfl rfl
  · rw [hlaunch]
    exact inv_launch v s
  · rw [hdrop]
    exact h.of_same rfl rfl id rfl rfl rfl
  · rw [hstore]
    exact inv_of_idle hidle h.error_clear h.flag_or_sent

/-- Every event keeps the invariant. -/
theorem Inv.of_takeEvent {s t : State} {e : Event} (h : Inv s) (ht : takeEvent e s = .next t) : Inv t := by
  cases e with
  | hostRead off width =>
    obtain ⟨answer, rfl⟩ := takeEvent_hostRead_next ht
    exact h.of_same rfl rfl id rfl rfl rfl
  | hostWrite off width v =>
    obtain rfl | ⟨r, -, -, rfl⟩ := takeEvent_hostWrite_next ht
    · exact h.of_same rfl rfl id rfl rfl rfl
    · exact (h.writeReg v r).of_same rfl rfl id rfl rfl rfl
  | completion => exact h.of_engineStep ht
  | hardReset =>
    obtain rfl : s.resetBlock = t := by simpa [takeEvent] using ht
    exact inv_of_idle_clear rfl rfl rfl

/-- Settles O9: the engine's step and every event keep the invariant. -/
theorem stepKeepsTheInvariant : Obligations.StepKeepsTheInvariant := by
  intro s t h hstep
  cases hinputs : s.inputs with
  | nil => exact h.of_engineStep (step_of_inputs_nil hinputs ▸ hstep)
  | cons e rest =>
    have hrest : Inv { s with inputs := rest } := h.of_same rfl rfl id rfl rfl rfl
    exact hrest.of_takeEvent (step_of_inputs_cons hinputs ▸ hstep)

/-! ## The STATUS and CTRL words -/

/-- The bits of the STATUS word (10_state.md R38). -/
theorem getLsbD_statusWord (s : State) (k : Nat) : s.statusWord.getLsbD k =
    if k = 0 then s.isBusy else if k = 1 then s.status.done else if k = 2 then s.status.flag
    else if k = 3 then s.status.sent else if k = 4 then s.status.ovr
    else decide (8 ≤ k ∧ k < 16) && s.status.err.code.getLsbD (k - 8) := by
  rw [State.statusWord]
  iterate 7 rw [BitVec.getLsbD_append]
  match k with
  | 0 | 1 | 2 | 3 | 4 => simp
  | k + 5 =>
    grind

/-- CTRL reads IRQEN in bit 0 and 0 elsewhere (10_state.md R34). -/
theorem getLsbD_ctrlWord (s : State) (k : Nat) : s.ctrlWord.getLsbD k = (decide (k = 0) && s.irqen) := by
  rw [State.ctrlWord, BitVec.getLsbD_append]
  cases k <;> simp

/-- Settles O23: each field is read off the word's bits, and each code off its definition. -/
theorem statusWordHasItsFields : Obligations.StatusWordHasItsFields := by
  intro s
  have herr : s.statusWord.extractLsb' 8 8 = s.status.err.code := by
    refine BitVec.eq_of_getLsbD_eq fun i hi => ?_
    rw [BitVec.getLsbD_extractLsb', getLsbD_statusWord]
    grind
  have hzero : ∀ lo len, (5 ≤ lo ∧ lo + len ≤ 8) ∨ 16 ≤ lo → s.statusWord.extractLsb' lo len = 0 := by
    intro lo len h
    refine BitVec.eq_of_getLsbD_eq fun i hi => ?_
    rw [BitVec.getLsbD_extractLsb', getLsbD_statusWord]
    grind
  refine ⟨getLsbD_statusWord s 0, getLsbD_statusWord s 1, getLsbD_statusWord s 2, getLsbD_statusWord s 3,
    getLsbD_statusWord s 4, herr, hzero 5 3 (by omega), hzero 16 48 (by omega), s.isBusy_iff, ?_⟩
  rw [herr]
  refine ⟨?_, ?_, ?_, ?_, ?_, ?_, ?_⟩ <;> exact fun h => h ▸ rfl

/-! ## CTRL writes -/

/-- Bit 2 of a CTRL write resets, whatever the other bits are (10_state.md R37). -/
theorem writeCtrl_reset {v : Word} (h2 : v.getLsbD 2 = true) (s : State) : s.writeCtrl v = s.resetBlock := if_pos h2

/-- Bit 1 of a CTRL write aborts the command in flight (10_state.md R36). -/
theorem writeCtrl_abort {v : Word} (h2 : v.getLsbD 2 = false) (h1 : v.getLsbD 1 = true) {s : State} {x : Regs}
    (hx : s.engine = .busy x) : s.writeCtrl v = s.abort (v.getLsbD 0) := by
  rw [State.writeCtrl, h2, h1, State.isBusy_busy hx]
  rfl

/-- A CTRL write that neither resets nor aborts sets IRQEN only (10_state.md R35). -/
theorem writeCtrl_irqen {v : Word} (h2 : v.getLsbD 2 = false) {s : State}
    (h1 : v.getLsbD 1 = false ∨ s.engine = .idle) : s.writeCtrl v = { s with irqen := v.getLsbD 0 } := by
  obtain h1 | hidle := h1
  · rw [State.writeCtrl, h2, h1]
    rfl
  · rw [State.writeCtrl, h2, State.isBusy_idle hidle, Bool.and_false]
    rfl

/-- A CTRL write without reset, aborting or not, sets IRQEN and keeps the registers and CMD. -/
theorem writeCtrl_frame {v : Word} (h2 : v.getLsbD 2 = false) (s : State) :
    (s.writeCtrl v).irqen = v.getLsbD 0 ∧ (s.writeCtrl v).regs = s.regs ∧ (s.writeCtrl v).cmd = s.cmd ∧
      (s.writeCtrl v).inputs = s.inputs := by
  rw [State.writeCtrl, h2]
  cases v.getLsbD 1 && s.isBusy <;> exact ⟨rfl, rfl, rfl, rfl⟩

/-- Settles O22: the frame of a CTRL write without reset, and the one stored bit of CTRL. -/
theorem controlWriteSetsInterruptEnable : Obligations.ControlWriteSetsInterruptEnable := by
  exact fun s => ⟨getLsbD_ctrlWord s, fun v rest h2 hinputs =>
    ⟨_, step_hostWrite .ctrl hinputs, writeCtrl_frame h2 { s with inputs := rest }⟩⟩

/-- Settles O19: with a command in flight the write is the abort, and while idle it sets IRQEN only. -/
theorem abortEndsTheCommandInFlight : Obligations.AbortEndsTheCommandInFlight := by
  intro s v rest h1 h2 hinputs
  have hstep := step_hostWrite .ctrl hinputs
  refine ⟨fun ⟨x, hx⟩ => ⟨_, hstep, ?_⟩, fun hidle => ?_⟩
  · simp only [State.writeReg, writeCtrl_abort h2 h1 (s := { s with inputs := rest }) hx]
    simp
  · rw [hstep, State.writeReg, writeCtrl_irqen (s := { s with inputs := rest }) h2 (.inr hidle)]

/-! ## Resets -/

/-- Every register of the window but ID reads 0 after reset (10_state.md R52). -/
theorem reset_readReg {r : WindowReg} (hr : r ≠ .id) : State.reset.readReg r = 0 := by
  cases r with
  | id => exact absurd rfl hr
  | data i => simp [State.readReg, Regs.read, State.reset, Regs.reset]
  | ctrl | status => decide
  | cmd | modp | ca | cb | fpoly | reserved => rfl

/-- After a reset of any state the window reads as after reset. -/
theorem resetBlock_readReg (s : State) (r : WindowReg) : s.resetBlock.readReg r = State.reset.readReg r := by
  cases r <;> rfl

/-- Both resets leave `resetBlock` of the state, up to the events to come and the bus's answer. -/
theorem step_reset {s : State} {rest : List Event}
    (h : s.inputs = .hardReset :: rest ∨ ∃ v : Word, v.getLsbD 2 = true ∧ s.inputs = .hostWrite 0x008 8 v :: rest) :
    ∃ answer, step s = .next ({ s with inputs := rest, reply := answer } : State).resetBlock := by
  obtain hhard | ⟨v, h2, hsoft⟩ := h
  · exact ⟨s.reply, step_of_inputs_cons hhard⟩
  · refine ⟨some .writeAccepted, ?_⟩
    rw [step_hostWrite .ctrl hsoft, State.writeReg, writeCtrl_reset h2]
    rfl

/-- Settles O20: both resets are `resetBlock`, after which the window reads as in `State.reset`. -/
theorem bothResetsRestoreTheResetValues : Obligations.BothResetsRestoreTheResetValues := by
  refine ⟨fun s rest h => ?_, fun r hr => reset_readReg hr, rfl, rfl, rfl⟩
  obtain ⟨answer, hstep⟩ := step_reset h
  exact ⟨_, hstep, fun r hr => (resetBlock_readReg _ r).trans (reset_readReg hr), rfl, rfl, rfl, rfl, rfl⟩

/-! ## Reads and writes of one register -/

/-- The events to come and the bus's last answer show in no register (logs 1, 7). -/
theorem readReg_inputs_reply (s : State) (inputs : List Event) (reply : Option BusReply) (r : WindowReg) :
    ({ s with inputs := inputs, reply := reply } : State).readReg r = s.readReg r := by
  cases r <;> rfl

/-- Settles O26: a read answers the register at its offset. -/
theorem readsReturnTheRegisterWithoutSideEffects : Obligations.ReadsReturnTheRegisterWithoutSideEffects := by
  intro s r rest hinputs
  refine ⟨s.readReg r, ?_, ?_⟩
  · rw [step_hostRead r hinputs]
    exact congrArg (fun v => Host.Outcome.next { s with inputs := rest, reply := some (.readData v) })
      (readReg_inputs_reply s rest s.reply r)
  · refine ⟨?_, ?_, ?_, ?_, ?_, ?_, ?_, ?_⟩ <;> (intros; subst r; rfl)

/-- Settles O21: the STATUS write is taken whatever the engine does. -/
theorem statusWriteClearsDoneAndOvr : Obligations.StatusWriteClearsDoneAndOvr := by
  intro s v rest hinputs
  have hclear : ∀ stored written : Bool, (stored && !written) = if written then false else stored := by decide
  exact ⟨_, step_hostWrite .status hinputs, hclear _ _, hclear _ _, rfl, rfl, rfl, rfl, rfl, rfl, rfl, rfl⟩

/-- The reserved offsets (10_state.md R21). -/
theorem windowReg_reserved {off : Nat} (h : (0x040 ≤ off ∧ off ≤ 0x0F8) ∨ 0x200 ≤ off) : windowReg off = .reserved := by
  unfold windowReg
  split_ifs
  case neg => rfl
  all_goals omega

/-- Settles O24: a write of ID or of a reserved offset is the identity on the block. -/
theorem identityAndReservedOffsetsIgnoreWrites : Obligations.IdentityAndReservedOffsetsIgnoreWrites := by
  intro s off v rest
  refine ⟨fun h => step_hostRead .id h, fun h => step_hostWrite .id h, fun haligned hoff => ?_⟩
  have haccepts : acceptsAccess off 8 = true := by simp [acceptsAccess, haligned]
  refine ⟨fun h => ?_, fun h => ?_⟩
  · rw [step_of_inputs_cons h, takeEvent, State.hostRead, if_pos haccepts, windowReg_reserved hoff]
    rfl
  · rw [step_of_inputs_cons h, takeEvent, State.hostWrite, if_pos haccepts, windowReg_reserved hoff]
    rfl

/-! ## Host writes -/

/-- A write taken while idle. -/
theorem writeWhenIdle_of_idle {s : State} (h : s.engine = .idle) (taken : State) : s.writeWhenIdle taken = taken := by
  simp [State.writeWhenIdle, State.isBusy_idle h]

/-- A write dropped while busy (20_memory.md R68). -/
theorem writeWhenIdle_of_busy {s : State} {x : Regs} (h : s.engine = .busy x) (taken : State) :
    s.writeWhenIdle taken = s.dropWrite := by
  simp [State.writeWhenIdle, State.isBusy_busy h]

/-- The registers a host stores into while idle: MODP, CA, CB, FPOLY and every Di (20_memory.md R64). -/
def WindowReg.isStorage (r : WindowReg) : Prop := r = .modp ∨ r = .ca ∨ r = .cb ∨ r = .fpoly ∨ ∃ i, r = .data i

/-- While idle a write to a storage register stores the value in it, in no other register, and launches nothing. -/
theorem writeReg_of_idle {s : State} (hidle : s.engine = .idle) (v : Word) {r : WindowReg} (hr : r.isStorage) :
    (s.writeReg v r).readReg r = v ∧ (∀ r', r' ≠ r → (s.writeReg v r).readReg r' = s.readReg r') ∧
      (s.writeReg v r).engine = .idle ∧ (s.writeReg v r).inputs = s.inputs := by
  obtain rfl | rfl | rfl | rfl | ⟨i, rfl⟩ := hr <;> rw [State.writeReg, writeWhenIdle_of_idle hidle]
  case inr.inr.inr.inr =>
    refine ⟨Regs.read_write_same _ _ _, fun r' hr' => ?_, hidle, rfl⟩
    cases r' with
    | data j => exact Regs.read_write_other _ _ fun hji => hr' (hji ▸ rfl)
    | _ => rfl
  all_goals
    refine ⟨rfl, fun r' hr' => ?_, hidle, rfl⟩
    cases r' <;> simp [State.readReg, State.ctrlWord, State.statusWord, State.isBusy, Regs.read] at hr' ⊢

/-- Settles O18: the store while idle, its frame, and the bus's answer, which no register shows. -/
theorem idleWritesStoreTheWholeRegister : Obligations.IdleWritesStoreTheWholeRegister := by
  intro s v rest r hidle hr hinputs
  obtain ⟨hread, hother, hengine, hrest⟩ := writeReg_of_idle (s := { s with inputs := rest }) hidle v hr
  refine ⟨_, step_hostWrite r hinputs, ?_, fun r' hr' => ?_, hengine, hrest⟩
  · exact (readReg_inputs_reply _ _ _ r).trans hread
  · exact (readReg_inputs_reply _ _ _ r').trans ((hother r' hr').trans (readReg_inputs_reply s rest s.reply r'))

/-- A register write that changes Dj is to Dj while idle, or a soft reset (10_state.md R25, R37). -/
theorem writeReg_changes_read {v : Word} {s : State} {r : WindowReg} {j : Reg}
    (h : (s.writeReg v r).regs.read j ≠ s.regs.read j) :
    (r = .data j ∧ s.engine = .idle) ∨ (r = .ctrl ∧ v.getLsbD 2 = true) := by
  cases r with
  | id | status | reserved => exact absurd rfl h
  | ctrl =>
    refine .inr ⟨rfl, ?_⟩
    by_contra h2
    obtain ⟨-, hregs, -⟩ := writeCtrl_frame (Bool.eq_false_of_not_eq_true h2) s
    exact h (congrArg (·.read j) hregs)
  | data i =>
    cases he : s.engine with
    | busy x => exact absurd (by rw [State.writeReg, writeWhenIdle_of_busy he]; rfl) h
    | idle =>
      refine .inl ⟨?_, rfl⟩
      by_contra hne
      rw [State.writeReg, writeWhenIdle_of_idle he] at h
      exact h (Regs.read_write_other _ _ fun hji => hne (hji ▸ rfl))
  | cmd | modp | ca | cb | fpoly =>
    refine absurd ?_ h
    simp only [State.writeReg, State.writeWhenIdle]
    split <;> rfl

/-- With a command in flight, a write that is no abort and no reset keeps the engine, CMD and the registers
(10_state.md R47, R48). -/
theorem writeReg_of_busy {v : Word} {s : State} {x : Regs} (hx : s.engine = .busy x) {r : WindowReg}
    (hr : r = .ctrl → v.getLsbD 1 = false ∧ v.getLsbD 2 = false) :
    (s.writeReg v r).engine = s.engine ∧ (s.writeReg v r).cmd = s.cmd ∧ (s.writeReg v r).regs = s.regs := by
  cases r with
  | id | status | reserved => exact ⟨rfl, rfl, rfl⟩
  | ctrl =>
    obtain ⟨h1, h2⟩ := hr rfl
    rw [State.writeReg, writeCtrl_irqen h2 (.inl h1)]
    exact ⟨rfl, rfl, rfl⟩
  | cmd | modp | ca | cb | fpoly | data =>
    rw [State.writeReg, writeWhenIdle_of_busy hx]
    exact ⟨rfl, rfl, rfl⟩

/-- Settles O30: a read changes the bus's answer only, and a write other than an abort or a reset keeps the command. -/
theorem hostAccessesDoNotChangeTheCommandInFlight : Obligations.HostAccessesDoNotChangeTheCommandInFlight := by
  intro s t x e rest hx hinputs haccess hstep
  rw [step_of_inputs_cons hinputs] at hstep
  obtain ⟨off, width, rfl⟩ | ⟨off, width, v, rfl, hctrl⟩ := haccess
  · obtain ⟨answer, rfl⟩ := takeEvent_hostRead_next hstep
    exact ⟨hx, rfl, rfl⟩
  · obtain rfl | ⟨r, -, hoff, rfl⟩ := takeEvent_hostWrite_next hstep
    · exact ⟨hx, rfl, rfl⟩
    · have hr : r = .ctrl → v.getLsbD 1 = false ∧ v.getLsbD 2 = false := by
        rintro rfl
        exact hctrl (hoff.resolve_left (by simp))
      obtain ⟨hengine, hcmd, hregs⟩ := writeReg_of_busy (s := { s with inputs := rest }) hx hr
      exact ⟨hengine.trans hx, hcmd, hregs⟩

/-! ## Writers of the data registers -/

/-- An engine step that changes Dj is the completion, with ERR = 0, of a command with destination Dj. -/
theorem engineStep_changes_read {s t : State} {j : Reg} (ht : engineStep s = .next t)
    (h : t.regs.read j ≠ s.regs.read j) :
    ∃ x i, s.engine = .busy x ∧ decode s.cmd = .ok i ∧ j ∈ destinations i ∧ t.status.err = .none := by
  obtain ⟨-, rfl⟩ | ⟨x, hx, rfl⟩ := engineStep_next ht
  · exact absurd rfl h
  · cases ho : s.latchedOutcome x with
    | error c => exact absurd (by rw [ho]; rfl) h
    | ok r =>
      obtain ⟨i, hdecode, hr⟩ := latchedOutcome_ok ho
      refine ⟨x, i, hx, hdecode, ?_, rfl⟩
      by_contra hj
      exact h (by rw [ho]; exact read_completeWith (hr ▸ ruleOf_within i x s.draws) s hj)

/-- Settles O15: the first scheduled event decides which of the writers it was, or that there was none. -/
theorem onlyTheListedEventsWriteADataRegister : Obligations.OnlyTheListedEventsWriteADataRegister := by
  intro s t j hstep hj
  cases hinputs : s.inputs with
  | nil =>
    rw [step_of_inputs_nil hinputs] at hstep
    obtain ⟨x, i, hx, hdecode, hdest, herr⟩ := engineStep_changes_read hstep hj
    exact .inr (.inl ⟨x, i, hx, hdecode, hdest, herr, .inl rfl⟩)
  | cons e rest =>
    rw [step_of_inputs_cons hinputs] at hstep
    cases e with
    | hostRead off width =>
      obtain ⟨answer, rfl⟩ := takeEvent_hostRead_next hstep
      exact absurd rfl hj
    | hostWrite off width v =>
      obtain rfl | ⟨r, rfl, hoff, rfl⟩ := takeEvent_hostWrite_next hstep
      · exact absurd rfl hj
      · obtain ⟨rfl, hidle⟩ | ⟨rfl, h2⟩ := writeReg_changes_read (s := { s with inputs := rest }) hj
        · obtain rfl := hoff.resolve_left (by simp)
          exact .inl ⟨v, rest, hidle, rfl⟩
        · obtain rfl := hoff.resolve_left (by simp)
          exact .inr (.inr (.inr ⟨v, rest, h2, rfl⟩))
    | completion =>
      obtain ⟨x, i, hx, hdecode, hdest, herr⟩ := engineStep_changes_read hstep hj
      exact .inr (.inl ⟨x, i, hx, hdecode, hdest, herr, .inr ⟨rest, rfl⟩⟩)
    | hardReset => exact .inr (.inr (.inl ⟨rest, rfl⟩))

end Sys2Proof.Machine
end

section
/-! PROOFS. The register window (20_memory.md): where it lies in the host's address space, which accesses it takes,
which byte stands where, what a completion leaves alone in it, and what a write does while a command is in flight. -/

namespace Sys2Proof.Machine

/-! ## Addresses -/

/-- Settles O28: an address less than 4096 above the base is the base plus an offset of 12 bits. -/
theorem windowDecodesAddressesFromTheBase : Obligations.WindowDecodesAddressesFromTheBase := by
  refine ⟨Nat.mod_eq_zero_of_dvd (Nat.dvd_mul_left 4096 Config.basePage), fun addr off => ?_⟩
  have hoff : off.toNat < 4096 := off.isLt
  rw [windowOffset, Option.ite_none_right_eq_some, Option.some.injEq, ← BitVec.toNat_inj, BitVec.toNat_ofNat]
  omega

/-! ## Accesses the block rejects -/

/-- An access of another width or alignment is not accepted (20_memory.md R62). -/
theorem acceptsAccess_eq_false {off : BitVec 12} {width : Nat} (h : width ≠ 8 ∨ off.toNat % 8 ≠ 0) :
    acceptsAccess off width = false := by
  rw [acceptsAccess, Bool.and_eq_false_iff, beq_eq_false_iff_ne, beq_eq_false_iff_ne]
  exact h

/-- A host read the block does not accept (20_memory.md R65). -/
theorem hostRead_rejected {off : BitVec 12} {width : Nat} (h : acceptsAccess off width = false) (s : State) :
    s.hostRead off width = { s with reply := some (.readRejected 0) } := by
  rw [State.hostRead, h]
  rfl

/-- A host write the block does not accept (20_memory.md R65). -/
theorem hostWrite_rejected {off : BitVec 12} {width : Nat} (h : acceptsAccess off width = false) (v : Word)
    (s : State) : s.hostWrite off width v = { s with reply := some .writeRejected } := by
  rw [State.hostWrite, h]
  rfl

/-- Settles O25: the step takes the access, which is rejected. -/
theorem narrowOrMisalignedAccessesAreRejected : Obligations.NarrowOrMisalignedAccessesAreRejected := by
  intro s off width v rest h
  have hrejects := acceptsAccess_eq_false h
  refine ⟨fun hinputs => ?_, fun hinputs => ?_⟩
  · rw [step_of_inputs_cons hinputs, takeEvent, hostRead_rejected hrejects]
  · rw [step_of_inputs_cons hinputs, takeEvent, hostWrite_rejected hrejects]

/-! ## Bytes of the window -/

/-- Every register stands at a multiple of 8 (10_state.md R21). -/
theorem offset_toNat_mod_eight (r : WindowReg) : r.offset.toNat % 8 = 0 := by
  obtain ⟨-, haccepts⟩ := windowReg_offset r
  simpa [acceptsAccess] using haccepts

/-- The eight bytes of a register do not wrap around the end of the window. -/
theorem toNat_offset_add (r : WindowReg) {k : Nat} (hk : k < 8) :
    (r.offset + BitVec.ofNat 12 k).toNat = r.offset.toNat + k := by
  have haligned := offset_toNat_mod_eight r
  have hlt : r.offset.toNat < 4096 := r.offset.isLt
  rw [BitVec.toNat_add, BitVec.toNat_ofNat]
  omega

/-- Settles O27: rounding the byte's offset down to a multiple of 8 gives the register's offset, and the rest is k. -/
theorem windowBytesAreLittleEndian : Obligations.WindowBytesAreLittleEndian := by
  intro s r k hk
  have haligned := offset_toNat_mod_eight r
  have hlane : (r.offset.toNat + k) % 8 = k := by omega
  obtain ⟨hdecode, -⟩ := windowReg_offset r
  rw [State.windowByte, toNat_offset_add r hk, hlane, Nat.add_sub_cancel, hdecode, byteLane]

/-- A byte of the window is in a reserved place, or is one of the eight bytes of the register it is read from
(10_state.md R21). -/
theorem windowReg_spans_byte (off : BitVec 12) :
    windowReg (off.toNat - off.toNat % 8) = .reserved ∨
    ((windowReg (off.toNat - off.toNat % 8)).offset.toNat ≤ off.toNat ∧
      off.toNat < (windowReg (off.toNat - off.toNat % 8)).offset.toNat + 8) := by
  obtain ⟨base, hbase⟩ : ∃ base : BitVec 12, base.toNat = off.toNat - off.toNat % 8 :=
    ⟨.ofNatLT (off.toNat - off.toNat % 8) (by omega), rfl⟩
  rw [← hbase]
  refine (offset_windowReg (by omega)).imp_right fun hoffset => ?_
  rw [← hoffset]
  omega

/-- Di stands at 0x100 + 8i (10_state.md R21). -/
theorem toNat_offset_data (i : Reg) : (WindowReg.data i).offset.toNat = 0x100 + 8 * i.val := by
  rw [WindowReg.offset, BitVec.toNat_ofNat]
  omega

/-! ## What a completion leaves alone in the window -/

/-- A completion changes no register of the window but STATUS and the data registers within its outcome's bounds
(60_exceptions.md R262, R263). -/
theorem readReg_completeWith {ds : List Reg} {o : RuleOutcome} (ho : Within ds o) (s : State) {r : WindowReg}
    (hstatus : r ≠ .status) (hdata : ∀ j, r = .data j → j ∉ ds) : (s.completeWith o).readReg r = s.readReg r := by
  cases r with
  | status => exact absurd rfl hstatus
  | data j => exact read_completeWith ho s (hdata j rfl)
  | id | reserved => rfl
  | ctrl | cmd => cases o <;> rfl
  | modp | ca | cb | fpoly => cases o <;> simp [State.readReg]

/-- Settles O12: the register under the byte is neither STATUS nor a destination, since the byte would lie in it. -/
theorem completionKeepsTheOtherWindowBytes : Obligations.CompletionKeepsTheOtherWindowBytes := by
  intro i s t off hexec hdest hstatus
  obtain ⟨x, -, rfl⟩ := exec_next hexec
  refine congrArg (byteLane · (off.toNat % 8)) (readReg_completeWith (ruleOf_within i x s.draws) s ?_ ?_)
  · intro hr
    exact hstatus (by simpa [hr, WindowReg.offset] using windowReg_spans_byte off)
  · intro j hr hj
    exact hdest j hj (by simpa [hr, toNat_offset_data] using windowReg_spans_byte off)

/-! ## Writes while a command is in flight -/

/-- While busy a write to CMD or to a storage register is dropped, whatever its value (20_memory.md R68). -/
theorem writeReg_dropped_of_busy {s : State} {x : Regs} (hx : s.engine = .busy x) (v : Word) {r : WindowReg}
    (hr : r = .cmd ∨ r.isStorage) : s.writeReg v r = s.dropWrite := by
  obtain rfl | rfl | rfl | rfl | rfl | ⟨i, rfl⟩ := hr <;> exact writeWhenIdle_of_busy hx _

/-- While busy a CTRL write sets IRQEN, and ends the command exactly when it aborts or resets (10_state.md R35 to
R37). -/
theorem writeCtrl_of_busy {s : State} {x : Regs} (hx : s.engine = .busy x) (v : Word) :
    (s.writeCtrl v).irqen = (v.getLsbD 0 && !v.getLsbD 2) ∧
      ((s.writeCtrl v).engine = .idle ↔ v.getLsbD 1 = true ∨ v.getLsbD 2 = true) := by
  cases h2 : v.getLsbD 2 with
  | true => simp [writeCtrl_reset h2]
  | false =>
    cases h1 : v.getLsbD 1 with
    | true => simp [writeCtrl_abort h2 h1 hx]
    | false => simp [writeCtrl_irqen h2 (.inl h1), hx]

/-- Settles O17: a write to CMD or to a storage register is dropped, and CTRL and STATUS take theirs. -/
theorem busyWritesAreDropped : Obligations.BusyWritesAreDropped := by
  intro s x v rest hx
  refine ⟨fun r hr hinputs => ?_, fun hinputs => ?_, fun hinputs => step_hostWrite .status hinputs⟩
  · rw [step_hostWrite r hinputs, writeReg_dropped_of_busy (s := { s with inputs := rest }) hx v hr]
    rfl
  · exact ⟨_, step_hostWrite .ctrl hinputs, writeCtrl_of_busy (s := { s with inputs := rest }) hx v⟩

end Sys2Proof.Machine
end

section
/-! PROOFS. The command word (30_encoding.md R90 to R99, R110 to R112): decoding and encoding are inverse to each other on
legal words and well-formed commands; the illegal words are those of R95 (a) to (d), and complete with ILLEGAL; the
assembler emits legal words only. -/

namespace Sys2Proof

/-! ## The fields of a row -/

/-- A field of kind `R` takes every register (30_encoding.md R93). -/
@[simp] theorem fieldFault_reg (k : Reg) : fieldFault .reg k = none := rfl

@[simp] theorem fieldFault_triple_eq_none (k : Reg) : fieldFault .triple k = none ↔ isTripleBase k = true := by
  simp [fieldFault]

@[simp] theorem fieldFault_unused_eq_none (k : Reg) : fieldFault .unused k = none ↔ k = 0 := by
  simp [fieldFault]

/-- No field of the row is at fault: conditions (c) and (d) of 30_encoding.md R95 both fail. -/
def OpcodeRow.Accepts (row : OpcodeRow) (rd rs1 rs2 : Reg) : Prop :=
  fieldFault row.rd rd = none ∧ fieldFault row.rs1 rs1 = none ∧ fieldFault row.rs2 rs2 = none

theorem buildFields_of_accepts {row : OpcodeRow} {rd rs1 rs2 : Reg} (h : row.Accepts rd rs1 rs2) :
    buildFields row rd rs1 rs2 = .ok (row.build rd rs1 rs2) := by
  obtain ⟨hrd, hrs1, hrs2⟩ := h
  simp [buildFields, hrd, hrs1, hrs2]

/-- Every row of the opcode map is found under its own opcode, since no two rows share one (30_encoding.md R94). -/
theorem findRow_op {row : OpcodeRow} (hrow : row ∈ opcodeMap) : findRow row.op = some row := by
  obtain ⟨row', hfind⟩ : ∃ row', findRow row.op = some row' :=
    Option.isSome_iff_exists.1 (List.find?_isSome.2 ⟨row, hrow, beq_self_eq_true _⟩)
  obtain ⟨hrow', hop⟩ := findRow_some hfind
  rw [hfind, List.inj_on_of_nodup_map opcodeMap_distinct hrow' hrow hop]

/-- Every command has an RD field (30_encoding.md R94). -/
theorem rd_ne_unused {row : OpcodeRow} (hrow : row ∈ opcodeMap) : row.rd ≠ .unused := by
  revert row
  decide

/-- The command that a row builds from fields it accepts is well formed, and its word holds the row's opcode and these
fields (30_encoding.md R94, R99). -/
theorem encode_build {row : OpcodeRow} (hrow : row ∈ opcodeMap) {rd rs1 rs2 : Reg} (h : row.Accepts rd rs1 rs2) :
    encode (row.build rd rs1 rs2) = packWord row.op.toNat rd rs1 rs2 ∧ (row.build rd rs1 rs2).wf = true := by
  obtain ⟨hrd, hrs1, hrs2⟩ := h
  simp only [opcodeMap, opcodeMapModular, opcodeMapPrimePoints, opcodeMapPolynomials, opcodeMapBinaryPoints,
    List.cons_append, List.nil_append, List.mem_cons, List.not_mem_nil, or_false] at hrow
  rcases hrow with rfl | rfl | rfl | rfl | rfl | rfl | rfl | rfl | rfl | rfl | rfl | rfl | rfl | rfl | rfl | rfl | rfl |
    rfl | rfl | rfl | rfl | rfl | rfl
  all_goals
    simp only [fieldFault_reg, fieldFault_triple_eq_none, fieldFault_unused_eq_none] at hrd hrs1 hrs2
    simp [encode, Instr.wf, Instr.tripleFields, *]

/-! ## The opcodes of the rows with a property -/

/-- The opcodes, as numbers, of the rows with a property. -/
def opcodesWith (p : OpcodeRow → Bool) : List Nat := (opcodeMap.filter p).map (·.op.toNat)

/-- A word whose opcode has a row: it is among the opcodes with a property iff that row has the property. -/
theorem mem_opcodesWith {w : Word} {row : OpcodeRow} (hfind : findRow (fieldOp w) = some row) (p : OpcodeRow → Bool) :
    w.toNat % 256 ∈ opcodesWith p ↔ p row = true := by
  obtain ⟨hrow, hop⟩ := findRow_some hfind
  rw [← fieldOp_toNat, ← hop]
  simp only [opcodesWith, List.mem_map, List.mem_filter]
  constructor
  · rintro ⟨row', ⟨hrow', hp⟩, hop'⟩
    rwa [← List.inj_on_of_nodup_map opcodeMap_distinct hrow' hrow (BitVec.eq_of_toNat_eq hop')]
  · exact fun hp => ⟨row, ⟨hrow, hp⟩, rfl⟩

/-- A word whose opcode is reserved (30_encoding.md R97). -/
theorem not_mem_opcodesWith {w : Word} (hfind : findRow (fieldOp w) = none) (p : OpcodeRow → Bool) :
    w.toNat % 256 ∉ opcodesWith p := by
  rw [← fieldOp_toNat]
  simp only [opcodesWith, List.mem_map, List.mem_filter]
  rintro ⟨row, ⟨hrow, -⟩, hop⟩
  rw [← BitVec.eq_of_toNat_eq hop, findRow_op hrow] at hfind
  cases hfind

/-! ## Decoding and encoding -/

theorem fieldReserved_eq_zero_iff (w : Word) : fieldReserved w = 0 ↔ w.toNat / 2 ^ 23 = 0 := by
  rw [← fieldReserved_toNat, BitVec.toNat_eq]
  rfl

/-- A word that decodes holds the opcode of a row of the map and three fields the row accepts (30_encoding.md R95). -/
theorem decode_eq_ok {w : Word} {i : Instr} (h : decode w = .ok i) :
    ∃ row ∈ opcodeMap, ∃ rd rs1 rs2, row.Accepts rd rs1 rs2 ∧ w = packWord row.op.toNat rd rs1 rs2 ∧
      i = row.build rd rs1 rs2 := by
  unfold decode at h
  split at h
  next => cases h
  next hreserved =>
    split at h
    next => cases h
    next row hfind =>
      obtain ⟨hrow, hop⟩ := findRow_some hfind
      obtain ⟨hrd, hrs1, hrs2, rfl⟩ := buildFields_ok h
      exact ⟨row, hrow, _, _, _, ⟨hrd, hrs1, hrs2⟩, hop ▸ word_eq_packWord (not_not.1 hreserved), rfl⟩

/-- Where the decoder stops: at the reserved bits, at the opcode, or at a field (30_encoding.md R95). -/
theorem decode_error_iff (w : Word) : (∃ e, decode w = .error e) ↔
    fieldReserved w ≠ 0 ∨ findRow (fieldOp w) = none ∨
    ∃ row, findRow (fieldOp w) = some row ∧
      ∃ e, buildFields row (fieldRd w) (fieldRs1 w) (fieldRs2 w) = .error e := by
  unfold decode
  split
  next hreserved => exact iff_of_true ⟨_, rfl⟩ (.inl hreserved)
  next hreserved => cases hfind : findRow (fieldOp w) <;> simp [not_not.1 hreserved]

/-- The word of a well-formed command decodes to it: a register field and an unused field of an encoded command pass
their check outright, and a triple field passes because the command is well formed. -/
theorem decode_encode {i : Instr} (hwf : i.wf = true) : decode (encode i) = .ok i := by
  cases i with
  | mulmod | expmod | invmod | jacobi | sqrtmod | isprime | cvalid | gadd | gshl | gmul | gmod | gdeg | gmulm | gexp
  | ginv | gsqrt => exact (decode_packWord (by decide) _ _ _ rfl).trans rfl
  | pnorm | padd | psmul | peq | bnorm | badd | bsmul =>
    rw [encode, decode_packWord (by decide) _ _ _ rfl]
    exact buildFields_of_accepts (by simpa [OpcodeRow.Accepts, Instr.wf, Instr.tripleFields] using hwf)

/-- Settles O1, by the opcode's row and the fields of the packed word. -/
theorem decodeOfEncodeIsTheCommand : Obligations.DecodeOfEncodeIsTheCommand := fun _ hwf => decode_encode hwf

/-- Settles O2: the word is packed from the opcode and the fields of the row that built the command. -/
theorem encodeOfDecodeIsTheWord : Obligations.EncodeOfDecodeIsTheWord := by
  intro w i h
  obtain ⟨row, hrow, rd, rs1, rs2, haccepts, rfl, rfl⟩ := decode_eq_ok h
  exact encode_build hrow haccepts

/-- Settles O4: the four words are the encodings of their commands, which are well formed. -/
theorem sampleWordsDecode : Obligations.SampleWordsDecode :=
  ⟨decode_encode (i := .mulmod 2 0 1) (by decide), decode_encode (i := .padd 6 0 3) (by decide),
    decode_encode (i := .ginv 1 0) (by decide), decode_encode (i := .bsmul 3 0 9) (by decide)⟩

end Sys2Proof

namespace Sys2Proof.Machine

/-! ## The assembler -/

/-- The field values the assembler places pass their kinds' checks (30_encoding.md R111). -/
theorem placeOperands_accepted {kinds : List FieldKind} {operands : List Nat} {rs : List Reg}
    (h : placeOperands kinds operands = some rs) : List.Forall₂ (fun k r => fieldFault k r = none) kinds rs := by
  induction kinds, operands using placeOperands.induct generalizing rs with
  | case1 =>
    obtain rfl : [] = rs := Option.some.inj h
    exact .nil
  | case2 | case8 => simp [placeOperands] at h
  | case3 kinds operands ih =>
    obtain ⟨rs, hrs, rfl⟩ := Option.map_eq_some_iff.1 h
    exact .cons rfl (ih hrs)
  | case4 kinds n operands hn ih =>
    rw [placeOperands, if_pos hn] at h
    obtain ⟨rs, hrs, rfl⟩ := Option.map_eq_some_iff.1 h
    exact .cons rfl (ih hrs)
  | case6 kinds n operands hn ih =>
    rw [placeOperands, if_pos hn] at h
    obtain ⟨rs, hrs, rfl⟩ := Option.map_eq_some_iff.1 h
    have hbase : isTripleBase (Fin.ofNat 32 n) = true := by
      simp only [isTripleBase, Fin.val_ofNat, decide_eq_true_eq]
      omega
    exact .cons ((fieldFault_triple_eq_none _).2 hbase) (ih hrs)
  | case5 kinds n operands hn | case7 kinds n operands hn =>
    rw [placeOperands, if_neg hn] at h
    cases h

/-- The command the assembler takes from a row is built from fields the row accepts. -/
theorem buildFromRow_eq_some {row : OpcodeRow} {operands : List Nat} {i : Instr}
    (h : buildFromRow row operands = some i) :
    ∃ rd rs1 rs2, row.Accepts rd rs1 rs2 ∧ i = row.build rd rs1 rs2 := by
  unfold buildFromRow at h
  split at h
  next rd rs1 rs2 hplace =>
    have haccepted := placeOperands_accepted hplace
    simp only [List.forall₂_cons, List.forall₂_nil_left_iff, and_true] at haccepted
    exact ⟨rd, rs1, rs2, haccepted, (Option.some.inj h).symm⟩
  next => cases h

/-- Settles O5: the word is the encoding of a command that a row of the map builds from fields it accepts. -/
theorem assembledWordsAreLegal : Obligations.AssembledWordsAreLegal := by
  intro mnemonic operands w h
  unfold assemble at h
  split at h
  next => cases h
  next row hfind =>
    obtain ⟨i, hbuild, rfl⟩ := Option.map_eq_some_iff.1 h
    obtain ⟨rd, rs1, rs2, haccepts, rfl⟩ := buildFromRow_eq_some hbuild
    obtain ⟨-, hwf⟩ := encode_build (List.mem_of_find?_eq_some hfind) haccepts
    exact ⟨_, decode_encode hwf, hwf, rfl⟩

/-! ## Illegal words -/

/-- The lists of opcodes in the conditions (a) to (d) are read off the opcode map (30_encoding.md R94, R95). -/
theorem isIllegalWord_iff (w : Word) : IsIllegalWord w ↔
    w.toNat / 2 ^ 23 ≠ 0 ∨ w.toNat % 256 ∉ opcodesWith (fun _ => true) ∨
    (w.toNat % 256 ∈ opcodesWith (·.rs2 = .unused) ∧ w.toNat / 2 ^ 18 % 32 ≠ 0) ∨
    (w.toNat % 256 ∈ opcodesWith (·.rs1 = .unused) ∧ w.toNat / 2 ^ 13 % 32 ≠ 0) ∨
    (w.toNat % 256 ∈ opcodesWith (·.rd = .triple) ∧ 29 < w.toNat / 2 ^ 8 % 32) ∨
    (w.toNat % 256 ∈ opcodesWith (·.rs1 = .triple) ∧ 29 < w.toNat / 2 ^ 13 % 32) ∨
    (w.toNat % 256 ∈ opcodesWith (·.rs2 = .triple) ∧ 29 < w.toNat / 2 ^ 18 % 32) := by
  rw [IsIllegalWord, ← List.mem_singleton (a := w.toNat % 256)]
  exact Iff.rfl

/-- The decoder refuses exactly the words of the conditions (a) to (d): each list of opcodes says of a word with a row
what that row's kinds are (30_encoding.md R95). -/
theorem decode_error_iff_isIllegalWord (w : Word) : (∃ e, decode w = .error e) ↔ IsIllegalWord w := by
  rw [decode_error_iff, isIllegalWord_iff, Ne, fieldReserved_eq_zero_iff]
  cases hfind : findRow (fieldOp w) with
  | none => simp [not_mem_opcodesWith hfind]
  | some row =>
    obtain ⟨hrow, -⟩ := findRow_some hfind
    simp only [Option.some.injEq, exists_eq_left', buildFields_error_iff, fieldFault_iff, mem_opcodesWith hfind,
      fieldRd_val, fieldRs1_val, fieldRs2_val, decide_eq_true_eq, rd_ne_unused hrow]
    tauto

/-! ## The completion of an illegal word -/

/-- The completion of a latched word that does not decode is the error completion (60_exceptions.md R263). -/
theorem step_of_illegal {s : State} {x : Regs} {e : IllegalWord} {rest : List Event} (hx : s.engine = .busy x)
    (hdecode : decode s.cmd = .error e) (hinputs : s.inputs = .completion :: rest) :
    step s = .next (({ s with inputs := rest } : State).errorComplete .illegal) := by
  rw [step_of_inputs_cons hinputs]
  simp [takeEvent, engineStep, completeLatched, State.isBusy, hx, hdecode]

/-- Settles O7: an error completion writes no register. -/
theorem illegalWordCompletesWithIllegal : Obligations.IllegalWordCompletesWithIllegal :=
  fun _ _ _ _ hx hdecode hinputs =>
    ⟨_, step_of_illegal hx hdecode hinputs, completed_errorComplete .illegal _, rfl⟩

/-- A CMD write to an idle block launches, whatever the word is (60_exceptions.md R261). -/
theorem step_cmdWrite_of_idle {s : State} {w : Word} {rest : List Event} (hidle : s.engine = .idle)
    (hinputs : s.inputs = .hostWrite 0x018 8 w :: rest) :
    step s = .next { ({ s with inputs := rest } : State).launch w with reply := some .writeAccepted } := by
  rw [step_hostWrite .cmd hinputs, State.writeReg,
    writeWhenIdle_of_idle (s := { s with inputs := rest }) hidle]

/-- Settles O3: the launch latches the word, which does not decode, so its completion is the error completion. -/
theorem illegalWordsLaunchAndCompleteWithIllegal : Obligations.IllegalWordsLaunchAndCompleteWithIllegal := by
  refine fun w => ⟨decode_error_iff_isIllegalWord w, fun hillegal s rest hidle hinputs => ?_⟩
  obtain ⟨e, hdecode⟩ := (decode_error_iff_isIllegalWord w).2 hillegal
  exact ⟨_, _, step_cmdWrite_of_idle hidle hinputs, rfl, rfl, step_of_illegal rfl hdecode rfl,
    completed_errorComplete .illegal _, rfl, rfl⟩

end Sys2Proof.Machine
end

section
/-! PROOFS. The modular integer commands (40_modular.md): the Jacobi symbol, then each command's completion from what its
rule answers. -/

namespace Sys2Proof.Machine

/-! ## The Jacobi symbol -/

/-- The loop of R121 from a < n multiplies the sign by the symbol: an even a is halved by the rule for 2, an odd one
changes places with n by reciprocity. Each turn makes a + n smaller. -/
theorem jacLoop_eq {fuel a n : Nat} {t : Int} (hlt : a < n) (hodd : n % 2 = 1) (hfuel : a + n < fuel) :
    jacLoop fuel a n t = t * jacobiSym a n := by
  induction fuel generalizing a n t with
  | zero => omega
  | succ fuel ih =>
    unfold jacLoop
    split
    next ha =>
      rcases (show n = 1 ∨ 1 < n by omega) with rfl | hn
      · simp [ha]
      · simp [ha, hn.ne', jacobiSym.zero_left hn]
    next ha =>
      split
      next heven =>
        rw [ih (by omega) hodd (by omega), ← jacobiSym.even_odd (a := a) (by omega) hodd, Int.natCast_div]
        split <;> simp
      next =>
        have hmod : n % a < a := Nat.mod_lt n (by omega)
        rw [ih hmod (by omega) (by omega), ← jacobiSym.quadratic_reciprocity_if (a := a) (by omega) hodd,
          Int.natCast_mod, ← jacobiSym.mod_left]
        split <;> simp

/-- Settles O32: the loop starts from the residue of a, which has the symbol of a. -/
theorem jacIsTheJacobiSymbol : Obligations.JacIsTheJacobiSymbol := by
  intro a n hodd
  have hpos : 0 < n := by omega
  have hlt : fmod a n < n := fmod_lt a hpos
  rw [jac, jacLoop_eq hlt hodd (by omega), one_mul, fmod_cast a hpos, ← jacobiSym.mod_left]

/-! ## Residues and words -/

/-- A modulus that passes the check, as a natural number. -/
theorem exists_modulus {x : Regs} (h : 2 ≤ x.modp.toInt) : ∃ p : Nat, x.modp.toInt = p ∧ 2 ≤ p :=
  ⟨x.modp.toInt.toNat, by omega, by omega⟩

/-- A register and its residue are congruent (40_modular.md R120). -/
theorem residue_modEq (v : Word) {p : Nat} (hp : 0 < p) : (residue v p : Int) ≡ v.toInt [ZMOD p] := by
  rw [residue_cast v hp]
  exact Int.mod_modEq ..

theorem residue_eq_zero_iff (v : Word) {p : Nat} (hp : 0 < p) : residue v p = 0 ↔ v.toInt % p = 0 := by
  rw [← residue_cast v hp, Int.natCast_eq_zero]

/-- A natural number congruent to an integer writes the integer's residue. -/
theorem ofNat_mod_of_modEq {n p : Nat} {a : Int} (h : (n : Int) ≡ a [ZMOD p]) :
    BitVec.ofNat 64 (n % p) = BitVec.ofInt 64 (a % p) := by
  rw [← h.eq, ← Int.natCast_mod, BitVec.ofInt_natCast]

/-- A residue modulo MODP keeps its value in 64 bits. -/
theorem toInt_ofInt_emod {x : Regs} {p : Nat} (hp : x.modp.toInt = p) (hpos : 0 < p) (a : Int) :
    (BitVec.ofInt 64 (a % p)).toInt = a % p := by
  have hnonneg := Int.emod_nonneg a (show (p : Int) ≠ 0 by omega)
  have hlt := Int.emod_lt_of_pos a (show (0 : Int) < p by omega)
  have hword := BitVec.toInt_lt (x := x.modp)
  exact BitVec.toInt_ofInt_eq_self (by omega) (by omega) (by omega)

/-! ## MULMOD -/

section
variable {x : Regs} {p : Nat} {rd rs1 rs2 : Reg}

theorem mulmodRule_domain (h : x.modp.toInt < 2) : mulmodRule x rd rs1 rs2 = .error .domain := withModulus_error h _

/-- The product of the residues is congruent to the product (40_modular.md R122). -/
theorem mulmodRule_ok (hp : x.modp.toInt = p) (h2 : 2 ≤ p) : mulmodRule x rd rs1 rs2 =
    plainResult rd (BitVec.ofInt 64 ((x.read rs1).toInt * (x.read rs2).toInt % p)) := by
  have hmul : ((residue (x.read rs1) p * residue (x.read rs2) p : Nat) : Int) ≡
      (x.read rs1).toInt * (x.read rs2).toInt [ZMOD p] := by
    push_cast
    exact (residue_modEq _ (by omega)).mul (residue_modEq _ (by omega))
  rw [← ofNat_mod_of_modEq hmul]
  exact withModulus_ok hp h2 _

/-! ## EXPMOD -/

/-- The power of a residue writes the residue of the power (40_modular.md R123). -/
theorem ofNat_powMod_residue (v : Word) (e : Nat) (hp : 0 < p) :
    BitVec.ofNat 64 (powMod (residue v p) e p) = BitVec.ofInt 64 (v.toInt ^ e % p) := by
  rw [powMod_eq]
  refine ofNat_mod_of_modEq ?_
  push_cast
  exact (residue_modEq v hp).pow e

theorem expmodRule_domain (h : x.modp.toInt < 2 ∨ (x.read rs2).toInt < 0) :
    expmodRule x rd rs1 rs2 = .error .domain := by
  by_cases hlow : x.modp.toInt < 2
  · exact withModulus_error hlow _
  · obtain ⟨p, hp, h2⟩ := exists_modulus (not_lt.1 hlow)
    rw [expmodRule, withModulus_ok hp h2, withNonneg_error (h.resolve_left hlow)]

theorem expmodRule_ok {e : Nat} (hp : x.modp.toInt = p) (h2 : 2 ≤ p) (he : (x.read rs2).toInt = e) :
    expmodRule x rd rs1 rs2 = plainResult rd (BitVec.ofInt 64 ((x.read rs1).toInt ^ e % p)) := by
  rw [expmodRule, withModulus_ok hp h2, withNonneg_ok he, ofNat_powMod_residue _ _ (by omega)]

/-! ## INVMOD -/

theorem invmodRule_domain (h : x.modp.toInt < 2) : invmodRule x rd rs1 = .error .domain := withModulus_error h _

theorem invmodRule_zero (hp : x.modp.toInt = p) (h2 : 2 ≤ p) (hzero : (x.read rs1).toInt % p = 0) :
    invmodRule x rd rs1 = minusOneResult rd := by
  rw [invmodRule, withModulus_ok hp h2, if_pos ((residue_eq_zero_iff _ (by omega)).2 hzero)]

theorem invmodRule_ok (hp : x.modp.toInt = p) (h2 : 2 ≤ p) (hne : (x.read rs1).toInt % p ≠ 0) :
    invmodRule x rd rs1 = plainResult rd (BitVec.ofInt 64 ((x.read rs1).toInt ^ (p - 2) % p)) := by
  rw [invmodRule, withModulus_ok hp h2, if_neg (mt (residue_eq_zero_iff _ (by omega)).1 hne),
    ofNat_powMod_residue _ _ (by omega)]

/-- Modulo a prime, a^(p-2) is an inverse of every a that p does not divide, by Fermat's little theorem
(40_modular.md R124). -/
theorem mul_pow_sub_two_emod (hprime : p.Prime) {a : Int} (ha : a % p ≠ 0) : a * (a ^ (p - 2) % p) % p = 1 := by
  have h2 : 2 ≤ p := hprime.two_le
  have hcoprime : IsCoprime a p :=
    ((Nat.prime_iff_prime_int.1 hprime).coprime_iff_not_dvd.2 fun h => ha (Int.emod_eq_zero_of_dvd h)).symm
  calc a * (a ^ (p - 2) % p) % p = a ^ (p - 2 + 1) % p := by simp [Int.mul_emod, pow_succ']
    _ = a ^ (p - 1) % p := by congr 2; omega
    _ = 1 % p := (Int.ModEq.pow_card_sub_one_eq_one hprime hcoprime).eq
    _ = 1 := Int.emod_eq_of_lt (by omega) (by omega)

/-! ## JACOBI -/

theorem jacobiRule_domain (h : x.modp.toInt < 1 ∨ x.modp.toInt % 2 = 0) : jacobiRule x rd rs1 = .error .domain :=
  if_pos h

theorem jacobiRule_ok (hp : x.modp.toInt = p) (hodd : p % 2 = 1) :
    jacobiRule x rd rs1 = plainResult rd (BitVec.ofInt 64 (jacobiSym (x.read rs1).toInt p)) := by
  rw [jacobiRule, if_neg (by omega), hp, Int.toNat_natCast, jacIsTheJacobiSymbol _ p hodd]

/-! ## CVALID -/

/-- The discriminant of the residues is congruent to that of the coefficients (40_modular.md R135). -/
theorem curveIsValid_iff (a b : Word) (hp : 0 < p) : curveIsValid (residue a p) (residue b p) p = true ↔
    (4 * a.toInt ^ 3 + 27 * b.toInt ^ 2) % p ≠ 0 := by
  have hmod : ((4 * residue a p * residue a p * residue a p + 27 * residue b p * residue b p : Nat) : Int) ≡
      4 * a.toInt ^ 3 + 27 * b.toInt ^ 2 [ZMOD p] := by
    convert (((residue_modEq a hp).pow 3).mul_left 4).add (((residue_modEq b hp).pow 2).mul_left 27) using 1
    push_cast
    ring
  rw [curveIsValid, bne_iff_ne, ← hmod.eq, ← Int.natCast_mod, Int.natCast_ne_zero]

theorem cvalidRule_domain (h : x.modp.toInt < 2) : cvalidRule x rd = .error .domain := withModulus_error h _

theorem cvalidRule_ok (hp : x.modp.toInt = p) (h2 : 2 ≤ p) :
    cvalidRule x rd = boolResult rd (curveIsValid (residue x.ca p) (residue x.cb p) p) := withModulus_ok hp h2 _

end

/-! ## The completions -/

/-- Settles O36: the rule's two answers, by the modulus. -/
theorem mulmodWritesTheExactProduct : Obligations.MulmodWritesTheExactProduct := by
  refine fun s x rd rs1 rs2 hx => ⟨rfl, fun hlow => exec_error hx (mulmodRule_domain hlow), fun hmod => ?_⟩
  obtain ⟨p, hp, h2⟩ := exists_modulus hmod
  rw [hp]
  exact exec_one hx (mulmodRule_ok hp h2)

/-- Settles O37: the rule's two answers, by the modulus and the exponent. -/
theorem expmodWritesTheExactPower : Obligations.ExpmodWritesTheExactPower := by
  refine fun s x rd rs1 rs2 hx => ⟨rfl, fun hbad => exec_error hx (expmodRule_domain hbad), fun e hmod he => ?_⟩
  obtain ⟨p, hp, h2⟩ := exists_modulus hmod
  rw [hp]
  exact exec_one hx (expmodRule_ok hp h2 he)

/-- Settles O38: MODP < 2^63, so that the residue of the power is read back as it is. -/
theorem invmodWritesThePowerOrTheSentinel : Obligations.InvmodWritesThePowerOrTheSentinel := by
  refine fun s x rd rs1 hx => ⟨rfl, fun hlow => exec_error hx (invmodRule_domain hlow), ?_, ?_⟩
  · intro hmod hzero
    obtain ⟨p, hp, h2⟩ := exists_modulus hmod
    exact exec_one hx (invmodRule_zero hp h2 (hp ▸ hzero))
  · intro p hp h2 hne
    obtain ⟨t, hexec, hdone, hwrites⟩ := exec_one (i := .invmod rd rs1) hx (invmodRule_ok hp h2 hne)
    refine ⟨t, hexec, hdone, hwrites, fun hprime => ?_⟩
    rw [hwrites.1, toInt_ofInt_emod hp (by omega)]
    exact mul_pow_sub_two_emod hprime hne

/-- Settles O39: the rule's two answers, by the modulus. -/
theorem jacobiWritesTheSymbol : Obligations.JacobiWritesTheSymbol := fun _ _ _ _ hx =>
  ⟨rfl, fun hbad => exec_error hx (jacobiRule_domain hbad), fun _ hn hodd => exec_one hx (jacobiRule_ok hn hodd)⟩

/-- Settles O44: DOMAIN, or the test of the residues, which is that of the coefficients. -/
theorem cvalidTestsTheDiscriminant : Obligations.CvalidTestsTheDiscriminant := by
  refine fun s x rd hx => ⟨rfl, fun hlow => exec_error hx (cvalidRule_domain hlow), fun hmod => ?_⟩
  obtain ⟨p, hp, h2⟩ := exists_modulus hmod
  obtain ⟨t, hexec, hdone, hwrites⟩ := exec_one (i := .cvalid rd) hx (cvalidRule_ok hp h2)
  exact ⟨t, _, hexec, hdone, hwrites, hp ▸ curveIsValid_iff x.ca x.cb (by omega)⟩

end Sys2Proof.Machine
end

section
/-! PROOFS. SQRTMOD (40_modular.md R126 to R131): its checks in order, then the roots. -/

namespace Sys2Proof.Machine

/-! ## The checks of SQRTMOD -/

/-- The integer square root decides whether p is a square (40_modular.md R126). -/
theorem isPerfectSquare_iff (p : Nat) : isPerfectSquare p = true ↔ ∃ r, r * r = p := by
  have hstart : p < (0 + 2 ^ (p.log2 / 2 + 1)) * (0 + 2 ^ (p.log2 / 2 + 1)) := by
    rw [Nat.zero_add, ← pow_add]
    exact (lt_two_pow_log2_succ p).trans_le (Nat.pow_le_pow_right (by omega) (by omega))
  obtain ⟨hle, hlt⟩ := isqrtFrom_spec p _ 0 (by omega) hstart
  rw [isPerfectSquare, beq_iff_eq]
  refine ⟨fun h => ⟨_, h⟩, ?_⟩
  rintro ⟨r, rfl⟩
  have hr : r < isqrt (r * r) + 1 := Nat.mul_self_lt_mul_self_iff.1 hlt
  exact le_antisymm hle (Nat.mul_self_le_mul_self (by omega))

/-- The symbol of a residue is that of the register (40_modular.md R121). -/
theorem jac_residue (v : Word) {p : Nat} (hodd : p % 2 = 1) : jac (residue v p) p = jacobiSym v.toInt p := by
  rw [jacIsTheJacobiSymbol _ p hodd, residue_cast v (by omega), ← jacobiSym.mod_left]

section
variable {draw : Nat → Nat} {p a : Nat}

theorem sqrtOutcome_two : sqrtOutcome draw 2 a = .ok a := if_pos rfl

theorem sqrtOutcome_domain (h2 : 2 < p) (h : p % 2 = 0 ∨ ∃ r, r * r = p) :
    sqrtOutcome draw p a = .error .domain := by
  rw [← isPerfectSquare_iff] at h
  rw [sqrtOutcome, if_neg h2.ne']
  split
  · rfl
  · rw [if_pos (h.resolve_left ‹_›)]

variable (hodd : p % 2 = 1) (hsq : ¬ ∃ r, r * r = p)
include hodd hsq

theorem sqrtOutcome_zero : sqrtOutcome draw p 0 = .ok 0 := by
  rw [← isPerfectSquare_iff] at hsq
  rw [sqrtOutcome, if_neg (by omega), if_neg (by omega), if_neg hsq, if_pos rfl]

theorem sqrtOutcome_nonresidue (ha : a ≠ 0) (hjac : jac a p ≠ 1) :
    sqrtOutcome draw p a = .error .nonresidue := by
  rw [← isPerfectSquare_iff] at hsq
  rw [sqrtOutcome, if_neg (by omega), if_neg (by omega), if_neg hsq, if_neg ha, if_pos hjac]

theorem sqrtOutcome_prime (ha : a ≠ 0) (hjac : jac a p = 1) (hprime : p.Prime) :
    sqrtOutcome draw p a = .ok (rootMin a p) := by
  rw [← isPerfectSquare_iff] at hsq
  rw [← isPrime_iff_prime] at hprime
  rw [sqrtOutcome, if_neg (by omega), if_neg (by omega), if_neg hsq, if_neg ha, if_neg (not_not.2 hjac), if_pos hprime]

/-- The drawn candidate is checked before it is used, so the answer is a root or NOROOT (40_modular.md R128, R131). -/
theorem sqrtOutcome_composite (ha : a ≠ 0) (hjac : jac a p = 1) (hcomp : ¬ p.Prime) :
    (∃ r, IsRootChoice a p r ∧ sqrtOutcome draw p a = .ok r) ∨ sqrtOutcome draw p a = .error .noroot := by
  rw [← isPerfectSquare_iff] at hsq
  rw [← isPrime_iff_prime] at hcomp
  rw [sqrtOutcome, if_neg (by omega), if_neg (by omega), if_neg hsq, if_neg ha, if_neg (not_not.2 hjac), if_neg hcomp,
    drawRoot]
  by_cases hroot : (draw 0 % p) * (draw 0 % p) % p = a
  · have hpos : draw 0 % p ≠ 0 := fun h => ha (by simp [← hroot, h])
    rw [if_pos hroot]
    exact .inl ⟨_, ⟨_, Nat.pos_of_ne_zero hpos, Nat.mod_lt _ (by omega), hroot, rfl⟩, rfl⟩
  · rw [if_neg hroot]
    exact .inr rfl

end

/-! ## The completion of SQRTMOD -/

section
variable {s : State} {x : Regs} {rd rs1 : Reg} {p : Nat} (hx : s.engine = .busy x) (hp : x.modp.toInt = p) (h2 : 2 ≤ p)
include hx hp h2

theorem exec_sqrtmod_ok {r : Nat} (h : sqrtOutcome s.draws p (residue (x.read rs1) p) = .ok r) :
    ∃ t, exec (.sqrtmod rd rs1) s = .next t ∧ Completed s t .none false false ∧
      WritesOne s t rd (BitVec.ofNat 64 r) := by
  have hrule : sqrtmodRule x s.draws rd rs1 = plainResult rd (BitVec.ofNat 64 r) := by
    rw [sqrtmodRule, withModulus_ok hp h2, h]
  exact exec_one hx hrule

theorem exec_sqrtmod_error {c : ErrCode} (h : sqrtOutcome s.draws p (residue (x.read rs1) p) = .error c) :
    ∃ t, exec (.sqrtmod rd rs1) s = .next t ∧ Completed s t c false false ∧ WritesNone s t := by
  have hrule : sqrtmodRule x s.draws rd rs1 = .error c := by rw [sqrtmodRule, withModulus_ok hp h2, h]
  exact exec_error hx hrule

end

theorem sqrtmodRule_domain {x : Regs} {draw : Nat → Nat} {rd rs1 : Reg} (h : x.modp.toInt < 2) :
    sqrtmodRule x draw rd rs1 = .error .domain := withModulus_error h _

/-- Settles O41: each check of the rule in turn. -/
theorem sqrtmodChecksItsModulusAndResidue : Obligations.SqrtmodChecksItsModulusAndResidue := by
  refine fun s x rd rs1 hx => ⟨rfl, fun hlow => exec_error hx (sqrtmodRule_domain hlow), fun htwo => ?_,
    fun p hp h2 => ⟨fun hbad => exec_sqrtmod_error hx hp h2.le (sqrtOutcome_domain h2 hbad), fun hodd hsq => ?_⟩⟩
  · have hval : BitVec.ofInt 64 ((x.read rs1).toInt % 2) = BitVec.ofNat 64 (residue (x.read rs1) 2) := by
      rw [← BitVec.ofInt_natCast, residue_cast _ (by omega)]
      rfl
    rw [hval]
    exact exec_sqrtmod_ok hx htwo le_rfl sqrtOutcome_two
  · have hpos : 0 < p := by omega
    rw [Ne, ← residue_eq_zero_iff _ hpos, ← jac_residue _ hodd]
    refine ⟨fun hzero => ?_, fun hne hjac => ?_, fun hne hjac hcomp => ?_⟩
    · exact exec_sqrtmod_ok hx hp h2.le (hzero ▸ sqrtOutcome_zero hodd hsq)
    · exact exec_sqrtmod_error hx hp h2.le (sqrtOutcome_nonresidue hodd hsq hne hjac)
    · rcases sqrtOutcome_composite hodd hsq hne hjac hcomp with ⟨r, hr, hout⟩ | hout
      · obtain ⟨t, hexec, hdone, hwrites⟩ := exec_sqrtmod_ok (rd := rd) hx hp h2.le hout
        exact ⟨t, hexec, .inl ⟨r, hr, hdone, hwrites⟩⟩
      · obtain ⟨t, hexec, hdone, hwrites⟩ := exec_sqrtmod_error (rd := rd) hx hp h2.le hout
        exact ⟨t, hexec, .inr ⟨hdone, hwrites⟩⟩

/-! ## Roots modulo an odd prime -/

/-- A square in the field of p elements is a square among the integers mod p. -/
theorem isSquare_zmod_iff (a : Int) (p : Nat) : IsSquare (a : ZMod p) ↔ ∃ r : Int, r * r % p = a % p := by
  constructor
  · rintro ⟨u, hu⟩
    obtain ⟨r, rfl⟩ := ZMod.intCast_surjective u
    exact ⟨r, (ZMod.intCast_eq_intCast_iff' _ _ _).1 (by rw [hu, Int.cast_mul])⟩
  · rintro ⟨r, hr⟩
    exact ⟨r, by rw [← Int.cast_mul, (ZMod.intCast_eq_intCast_iff' _ _ _).2 hr]⟩

/-- Modulo a prime the symbol of a nonzero residue is 1 exactly when a root exists (40_modular.md R127). -/
theorem jacobiSym_eq_one_iff {p : Nat} (hprime : p.Prime) {a : Int} (ha : a % p ≠ 0) :
    jacobiSym a p = 1 ↔ ∃ r : Int, r * r % p = a % p := by
  have : Fact p.Prime := ⟨hprime⟩
  have hne : (a : ZMod p) ≠ 0 := by rwa [Ne, ZMod.intCast_zmod_eq_zero_iff_dvd, Int.dvd_iff_emod_eq_zero]
  rw [← jacobiSym.legendreSym.to_jacobiSym, legendreSym.eq_one_iff p hne, isSquare_zmod_iff]

/-- With t its negative p - t is a root too. -/
theorem sub_mul_self_mod {p t : Nat} (ht : t ≤ p) : (p - t) * (p - t) % p = t * t % p := by
  rw [← ZMod.natCast_eq_natCast_iff']
  simp [Nat.cast_sub ht]

/-- The search finds a root, and as the least one it lies in the lower half (40_modular.md R127). -/
theorem rootMin_spec {p a : Nat} (hodd : p % 2 = 1) (ha : a ≠ 0) (hroot : ∃ r : Int, r * r % p = a) :
    1 ≤ rootMin a p ∧ 2 * rootMin a p < p ∧ rootMin a p * rootMin a p % p = a := by
  obtain ⟨r, hr⟩ := hroot
  have hlt : fmod r p < p := fmod_lt r (by omega)
  have hsquare : fmod r p * fmod r p % p = a := by
    zify
    rw [fmod_cast r (by omega), ← Int.mul_emod, hr]
  have hpos : fmod r p ≠ 0 := fun h => ha (by simp [← hsquare, h])
  obtain ⟨hone, hbelow, hmin, hleast⟩ :=
    findRootFrom_spec a p (p - 1) 1 ⟨fmod r p, by omega, by omega, hsquare⟩
  rw [← rootMin] at hone hbelow hmin hleast
  have hother := hleast (p - rootMin a p) (by omega) ((sub_mul_self_mod (by omega)).trans hmin)
  exact ⟨hone, by omega, hmin⟩

/-- Settles O40: an odd prime passes the checks, and the symbol tells whether there is a root. -/
theorem sqrtmodWritesTheSmallerRootModuloAPrime : Obligations.SqrtmodWritesTheSmallerRootModuloAPrime := by
  intro s x rd rs1 p hx hp hprime hp2
  have h2 : 2 ≤ p := hprime.two_le
  have hodd : p % 2 = 1 := hprime.eq_two_or_odd.resolve_left hp2
  have hsq : ¬ ∃ r, r * r = p := fun ⟨r, hr⟩ => hprime.prime.not_isSquare ⟨r, hr.symm⟩
  have hres : residue (x.read rs1) p = 0 ↔ (x.read rs1).toInt % p = 0 := residue_eq_zero_iff _ (by omega)
  refine ⟨fun hzero => ?_, fun hnone => ?_, fun hne hroot => ?_⟩
  · exact exec_sqrtmod_ok hx hp h2 (hres.2 hzero ▸ sqrtOutcome_zero hodd hsq)
  · have hne : (x.read rs1).toInt % p ≠ 0 := fun h => hnone 0 (by simp [h])
    refine exec_sqrtmod_error hx hp h2 (sqrtOutcome_nonresidue hodd hsq (mt hres.1 hne) fun hjac => ?_)
    rw [jac_residue _ hodd, jacobiSym_eq_one_iff hprime hne] at hjac
    obtain ⟨r, hr⟩ := hjac
    exact hnone r hr
  · have hjac := (jacobiSym_eq_one_iff hprime hne).2 hroot
    rw [← jac_residue _ hodd] at hjac
    rw [← residue_cast _ (show 0 < p by omega)] at hroot ⊢
    obtain ⟨hone, hhalf, hmin⟩ := rootMin_spec hodd (mt hres.1 hne) hroot
    obtain ⟨t, hexec, hdone, hwrites⟩ := exec_sqrtmod_ok (rd := rd) hx hp h2
      (sqrtOutcome_prime hodd hsq (mt hres.1 hne) hjac hprime)
    exact ⟨t, _, hexec, hdone, hwrites, hone, hhalf, by exact_mod_cast hmin⟩

end Sys2Proof.Machine
end

section
/-! PROOFS. ISPRIME (40_modular.md R132 to R134): one round as the strong probable prime test, the 50 rounds, and why a
prime passes every round. -/

namespace Sys2Proof.Machine

/-! ## One round -/

/-- The factors of two of 2^k * d, with d odd, are counted exactly (40_modular.md R132). -/
theorem splitTwosFrom_two_pow_mul {fuel k d : Nat} (s : Nat) (hd : d % 2 = 1) (hk : k < fuel) :
    splitTwosFrom fuel s (2 ^ k * d) = (s + k, d) := by
  induction fuel generalizing s k with
  | zero => omega
  | succ fuel ih =>
    unfold splitTwosFrom
    cases k with
    | zero => simp [hd]
    | succ k =>
      have hdouble : 2 ^ (k + 1) * d = 2 * (2 ^ k * d) := by ring
      rw [hdouble, if_pos (Nat.mul_mod_right ..), Nat.mul_div_cancel_left _ (by omega), ih (s + 1) (by omega)]
      congr 1
      omega

theorem splitTwos_two_pow_mul {k d : Nat} (hd : d % 2 = 1) : splitTwos (2 ^ k * d) = (k, d) := by
  have hne : 2 ^ k * d ≠ 0 := Nat.mul_ne_zero (by simp) (by omega)
  have hk : k ≤ (2 ^ k * d).log2 := (Nat.le_log2 hne).2 (Nat.le_mul_of_pos_right _ (by omega))
  rw [splitTwos, splitTwosFrom_two_pow_mul 0 hd (by omega), Nat.zero_add]

/-- The round passes w exactly when w^d is 1 or one of its k first squarings is n - 1, the power itself counted among
them (40_modular.md R133). -/
theorem mrPass_iff {n d k w : Nat} (hn : 2 ≤ n) (hk : 0 < k) : mrPass n d k w = true ↔
    w ^ d % n = 1 ∨ ∃ j < k, w ^ (2 ^ j * d) % n = n - 1 := by
  have hsquares := mrSquares_iff n w d (k - 1) 0
  rw [pow_zero, one_mul] at hsquares
  rw [mrPass, powMod_eq, Bool.or_eq_true, Bool.or_eq_true, beq_iff_eq, beq_iff_eq, hsquares, or_assoc]
  refine or_congr_right ⟨?_, ?_⟩
  · rintro (h | ⟨j, -, hj, h⟩)
    · exact ⟨0, hk, by simpa using h⟩
    · exact ⟨j, by omega, h⟩
  · rintro ⟨j, hj, h⟩
    rcases Nat.eq_zero_or_pos j with rfl | hpos
    · exact .inl (by simpa using h)
    · exact .inr ⟨j, hpos, by omega, h⟩

/-- A witness is drawn from [2, n - 2] (40_modular.md R132). -/
theorem witness_mem {n : Nat} (draw : Nat → Nat) (hn : 5 ≤ n) (i : Nat) :
    2 ≤ witness draw n i ∧ witness draw n i ≤ n - 2 := by
  have hlt : draw i % (n - 3) < n - 3 := Nat.mod_lt _ (by omega)
  unfold witness
  omega

/-! ## The verdict -/

section
variable {draw : Nat → Nat}

theorem primeVerdict_of_lt {n : Int} (h : n < 2) : primeVerdict draw n = false := if_pos h

theorem primeVerdict_two_three {n : Int} (h : n = 2 ∨ n = 3) : primeVerdict draw n = true := by
  rw [primeVerdict, if_neg (by omega), if_pos h]

theorem primeVerdict_even {n : Nat} (hn : 4 ≤ n) (heven : n % 2 = 0) : primeVerdict draw n = false := by
  rw [primeVerdict, if_neg (by omega), if_neg (by omega), if_pos (by omega)]

/-- For an odd n from 5 on all 50 witnesses have to pass (40_modular.md R132). -/
theorem primeVerdict_odd {n k d : Nat} (hn : 5 ≤ n) (hodd : n % 2 = 1) (hsplit : n - 1 = 2 ^ k * d) (hd : d % 2 = 1) :
    primeVerdict draw n = true ↔ ∀ i < 50, witness draw n i ^ d % n = 1 ∨
      ∃ j < k, witness draw n i ^ (2 ^ j * d) % n = n - 1 := by
  have hk : 0 < k := by
    rcases Nat.eq_zero_or_pos k with rfl | hk
    · rw [pow_zero, one_mul] at hsplit
      omega
    · exact hk
  have hpair : splitTwos (n - 1) = (k, d) := by rw [hsplit, splitTwos_two_pow_mul hd]
  rw [primeVerdict, if_neg (by omega), if_neg (by omega), if_neg (by omega), Int.toNat_natCast, allRoundsPass, hpair,
    List.all_eq_true]
  simp only [List.mem_range, Config.mrRounds, mrPass_iff (show 2 ≤ n by omega) hk]

end

/-- Settles O42: the four ranges of n. -/
theorem isprimeRunsFiftyStrongTests : Obligations.IsprimeRunsFiftyStrongTests := by
  intro s x rd rs1 hx
  obtain ⟨t, hexec, hdone, hwrites⟩ := exec_one (i := .isprime rd rs1) hx rfl
  refine ⟨rfl, t, _, hexec, hdone, hwrites, primeVerdict_of_lt, primeVerdict_two_three, fun n hn h4 heven => ?_,
    fun n k d hn h5 hodd hsplit hd => ⟨fun i _ => witness_mem _ h5 i, ?_⟩⟩
  · rw [hn]
    exact primeVerdict_even h4 heven
  · rw [hn]
    exact primeVerdict_odd h5 hodd hsplit hd

/-! ## Primes -/

/-- Where 1 has the square roots 1 and -1 only, a chain of squarings that ends in 1 starts with 1 or passes through
-1 (40_modular.md R134). -/
theorem eq_one_or_exists_sq_eq_neg_one {R : Type*} [CommRing R] [NoZeroDivisors R] {x : R} {k : Nat}
    (h : x ^ 2 ^ k = 1) : x = 1 ∨ ∃ j < k, x ^ 2 ^ j = -1 := by
  induction k with
  | zero => exact .inl (by simpa using h)
  | succ k ih =>
    rw [pow_succ, pow_mul, sq_eq_one_iff] at h
    rcases h with h | h
    · exact (ih h).imp_right fun ⟨j, hj, hneg⟩ => ⟨j, by omega, hneg⟩
    · exact .inr ⟨k, by omega, h⟩

/-- Every w that a prime n does not divide passes the strong test, from Fermat's little theorem
(40_modular.md R134 (a)). -/
theorem strong_test_of_prime {n k d w : Nat} (hprime : n.Prime) (hsplit : n - 1 = 2 ^ k * d) (hw : ¬ n ∣ w) :
    w ^ d % n = 1 ∨ ∃ j < k, w ^ (2 ^ j * d) % n = n - 1 := by
  have : Fact n.Prime := ⟨hprime⟩
  have h2 : 2 ≤ n := hprime.two_le
  have hneg : ((n - 1 : Nat) : ZMod n) = -1 := by simp [Nat.cast_sub hprime.one_le]
  have hfermat : ((w : ZMod n) ^ d) ^ 2 ^ k = 1 := by
    rw [← pow_mul, mul_comm, ← hsplit]
    exact ZMod.pow_card_sub_one_eq_one (by rwa [Ne, ZMod.natCast_eq_zero_iff])
  refine (eq_one_or_exists_sq_eq_neg_one hfermat).imp (fun h => ?_) fun ⟨j, hj, h⟩ => ⟨j, hj, ?_⟩
  · rw [← Nat.mod_eq_of_lt (show 1 < n by omega), ← ZMod.natCast_eq_natCast_iff']
    simpa using h
  · rw [← Nat.mod_eq_of_lt (show n - 1 < n by omega), ← ZMod.natCast_eq_natCast_iff', hneg, mul_comm]
    simpa [pow_mul] using h

theorem primeVerdict_prime {n : Nat} (draw : Nat → Nat) (hprime : n.Prime) : primeVerdict draw n = true := by
  have h2 : 2 ≤ n := hprime.two_le
  by_cases hsmall : n ≤ 3
  · exact primeVerdict_two_three (by omega)
  · have hodd : n % 2 = 1 := hprime.eq_two_or_odd.resolve_left (by omega)
    have h5 : 5 ≤ n := by omega
    obtain ⟨k, d, hd, hsplit⟩ := Nat.exists_eq_two_pow_mul_odd (show n - 1 ≠ 0 by omega)
    refine (primeVerdict_odd h5 hodd hsplit (Nat.odd_iff.1 hd)).2 fun i _ => strong_test_of_prime hprime hsplit ?_
    obtain ⟨hlow, hhigh⟩ := witness_mem draw h5 i
    exact Nat.not_dvd_of_pos_of_lt (by omega) (by omega)

/-- Settles O43: all 50 witnesses lie below n, so a prime n passes with each of them. -/
theorem isprimeIsOneForEveryPrime : Obligations.IsprimeIsOneForEveryPrime := by
  intro s x rd rs1 n hx hn hprime
  have hrule : isprimeRule x s.draws rd rs1 = boolResult rd true := by
    rw [isprimeRule, hn, primeVerdict_prime _ hprime]
  exact exec_one hx hrule

end Sys2Proof.Machine
end

section
/-! PROOFS. The prime-field point commands (41_prime_points.md): normalized triples, the point law in the field of p
elements and its properties, then each command's completion from what its rule answers. -/

namespace Sys2Proof.Machine

/-! ## Triples in registers -/

/-- A written triple of exact values that are words reads back as those words (00_scope.md R14). -/
theorem WritesTriple.triple_eq {s t : State} {k : Reg} {v : Triple Word}
    (h : WritesTriple s t k ⟨v.x.toNat, v.y.toNat, v.z.toNat⟩) : t.regs.triple k = v := by
  obtain ⟨hx, hy, hz, -⟩ := h
  simp only [Regs.triple, hx, hy, hz, BitVec.ofNat_toNat, BitVec.setWidth_eq]

/-- For a triple base k the register of number k + j is Dk+j (00_scope.md R14). -/
theorem eq_regPlus {k m : Reg} (hk : isTripleBase k = true) {j : Nat} (hj : j ≤ 2) (hm : m.val = k.val + j) :
    m = regPlus k j := Fin.ext (hm.trans (regPlus_val hk hj).symm)

/-- The triples at two triple bases are equal when the registers are, pair by pair (41_prime_points.md R168). -/
theorem triple_eq_iff (x : Regs) {k l : Reg} (hk : isTripleBase k = true) (hl : isTripleBase l = true) :
    x.triple k = x.triple l ↔
      ∀ j < 3, ∀ m n : Reg, m.val = k.val + j → n.val = l.val + j → x.read m = x.read n := by
  simp only [Regs.triple, Triple.mk.injEq]
  constructor
  · rintro ⟨h0, h1, h2⟩ j hj m n hm hn
    interval_cases j
    · rwa [Fin.ext hm, Fin.ext hn]
    · rwa [eq_regPlus hk (by omega) hm, eq_regPlus hl (by omega) hn]
    · rwa [eq_regPlus hk le_rfl hm, eq_regPlus hl le_rfl hn]
  · intro h
    exact ⟨h 0 (by omega) _ _ rfl rfl, h 1 (by omega) _ _ (regPlus_val hk (by omega)) (regPlus_val hl (by omega)),
      h 2 (by omega) _ _ (regPlus_val hk le_rfl) (regPlus_val hl le_rfl)⟩

/-! ## Normalized triples -/

/-- A register below MODP is its own residue, since MODP < 2^63 (10_state.md R27). -/
theorem residue_of_lt {x : Regs} {p : Nat} (hp : x.modp.toInt = p) {v : Word} (h : v.toNat < p) :
    residue v p = v.toNat := by
  have hmodp := BitVec.toInt_lt (x := x.modp)
  rw [residue, BitVec.toInt_eq_toNat_of_lt (by omega), fmod_natCast, Nat.mod_eq_of_lt h]

theorem normP_infinity {t : Triple Word} {p : Nat} (h : residue t.z p = 0) : normP t p = ⟨0, 1, 0⟩ := if_pos h

/-- A coordinate of the normalized triple, as a residue of the registers (41_prime_points.md R160). -/
theorem residue_mul_powMod_cast (u v : Word) (e : Nat) {p : Nat} (hp : 0 < p) :
    ((residue u p * powMod (residue v p) e p % p : Nat) : Int) = u.toInt * v.toInt ^ e % p := by
  have hmul : (residue u p : Int) * (residue v p ^ e % p) ≡ u.toInt * v.toInt ^ e [ZMOD p] :=
    (residue_modEq u hp).mul ((Int.mod_modEq _ _).trans ((residue_modEq v hp).pow e))
  rw [powMod_eq]
  push_cast
  exact hmul.eq

theorem normP_finite {t : Triple Word} {p : Nat} (hp : 0 < p) (h : residue t.z p ≠ 0) :
    ∃ X Y, normP t p = ⟨X, Y, 1⟩ ∧ X < p ∧ Y < p ∧
      (X : Int) = t.x.toInt * t.z.toInt ^ (p - 2) % p ∧ (Y : Int) = t.y.toInt * t.z.toInt ^ (p - 2) % p :=
  ⟨_, _, if_neg h, Nat.mod_lt _ hp, Nat.mod_lt _ hp, residue_mul_powMod_cast _ _ _ hp,
    residue_mul_powMod_cast _ _ _ hp⟩

/-- `normP` answers a triple of NORMP(p) (41_prime_points.md R165). -/
theorem normP_normalized (t : Triple Word) {p : Nat} (hp : 0 < p) : NormalizedP p (normP t p) := by
  by_cases h : residue t.z p = 0
  · exact .inl (normP_infinity h)
  · obtain ⟨X, Y, hnorm, hX, hY, -⟩ := normP_finite hp h
    exact hnorm ▸ .inr ⟨hX, hY, rfl⟩

/-- A normalized triple is its own normal form (41_prime_points.md R160). -/
theorem normP_of_normalized {x : Regs} {p : Nat} (hp : x.modp.toInt = p) (h2 : 2 ≤ p) {t : Triple Word}
    (h : NormalizedP p ⟨t.x.toNat, t.y.toNat, t.z.toNat⟩) : normP t p = ⟨t.x.toNat, t.y.toNat, t.z.toNat⟩ := by
  rcases h with h | ⟨hX, hY, hZ : t.z.toNat = 1⟩
  · have hz : t.z.toNat = 0 := congrArg Triple.z h
    rw [h, normP_infinity]
    rw [residue_of_lt hp (by omega), hz]
  · have hz : residue t.z p = 1 := by rw [residue_of_lt hp (by omega), hZ]
    rw [normP, hz, residue_of_lt hp hX, residue_of_lt hp hY, normPReduced, powMod_eq, hZ]
    simp [Nat.mod_eq_of_lt hX, Nat.mod_eq_of_lt hY]

theorem drawNormP_normalized (draw : Nat → Nat) {p : Nat} (hp : 0 < p) : NormalizedP p (drawNormP draw p) := by
  unfold drawNormP
  split
  · exact .inl rfl
  · exact .inr ⟨Nat.mod_lt _ hp, Nat.mod_lt _ hp, rfl⟩

/-! ## The point law, case by case -/

section
variable {p a : Nat} {p1 p2 : Triple Nat}

theorem addP_infinity_left : addP p a primeInfinity p2 = p2 := if_pos rfl

theorem addP_infinity_right : addP p a p1 primeInfinity = p1 := by
  rw [addP, if_pos rfl]
  split
  · exact Eq.symm ‹_›
  · rfl

section
variable (h1 : p1 ≠ primeInfinity) (h2 : p2 ≠ primeInfinity)
include h1 h2

theorem addP_opposite (hx : p1.x = p2.x) (hy : p1.y ≠ p2.y ∨ 2 * p1.y % p = 0) :
    addP p a p1 p2 = primeInfinity := by
  rw [addP, if_neg h1, if_neg h2, if_pos hx, if_neg fun ⟨heq, hne⟩ => hy.elim (absurd heq) hne]

theorem addP_tangent (hx : p1.x = p2.x) (hy : p1.y = p2.y) (hne : 2 * p1.y % p ≠ 0) :
    addP p a p1 p2 = lineSumP p (tangentP p a p1.x p1.y) p1.x p1.y p2.x := by
  rw [addP, if_neg h1, if_neg h2, if_pos hx, if_pos ⟨hy, hne⟩]

theorem addP_chord (hx : p1.x ≠ p2.x) :
    addP p a p1 p2 = lineSumP p (chordP p p1.x p1.y p2.x p2.y) p1.x p1.y p2.x := by
  rw [addP, if_neg h1, if_neg h2, if_neg hx]

end

end

/-! ## The slopes in the field of p elements -/

/-- Residues of integers in the same class are equal. -/
theorem fmod_congr {u v : Int} {p : Nat} (h : (u : ZMod p) = v) : fmod u p = fmod v p :=
  congrArg Int.toNat ((ZMod.intCast_eq_intCast_iff' u v p).1 h)

/-- Reduced numbers in the same class are equal. -/
theorem eq_of_natCast_zmod_eq {u v p : Nat} (hu : u < p) (hv : v < p) (h : (u : ZMod p) = v) : u = v :=
  ((ZMod.natCast_eq_natCast_iff u v p).1 h).eq_of_lt_of_lt hu hv

/-- Different reduced numbers differ mod p. -/
theorem natCast_sub_natCast_ne_zero {u v p : Nat} (hu : u < p) (hv : v < p) (hne : u ≠ v) : (v : ZMod p) - u ≠ 0 :=
  sub_ne_zero.2 fun h => hne (eq_of_natCast_zmod_eq hu hv h.symm)

section
variable {p : Nat} (hprime : p.Prime)
include hprime

/-- `inv(v)` is an inverse of every v that is not 0 mod p, by Fermat's little theorem (41_prime_points.md R162). -/
theorem invMod_mul_cancel {v : Int} (hv : (v : ZMod p) ≠ 0) : (invMod v p : ZMod p) * v = 1 := by
  have : Fact p.Prime := ⟨hprime⟩
  have h2 : 2 ≤ p := hprime.two_le
  rw [invMod, powMod_eq, ZMod.natCast_mod, Nat.cast_pow, fmod_zmod v hprime.pos, ← pow_succ,
    show p - 2 + 1 = p - 1 by omega, ZMod.pow_card_sub_one_eq_one hv]

/-- A quotient `u * inv(v)` mod p solves the equation of the division. -/
theorem fmod_mul_invMod {u v : Int} (hv : (v : ZMod p) ≠ 0) : (fmod (u * invMod v p) p : ZMod p) * v = u := by
  rw [fmod_zmod _ hprime.pos, Int.cast_mul, Int.cast_natCast, mul_assoc, invMod_mul_cancel hprime hv, mul_one]

/-- The equation of the chord slope (41_prime_points.md R162). -/
theorem chordP_mul {x1 y1 x2 y2 : Nat} (h1 : x1 < p) (h2 : x2 < p) (hx : x1 ≠ x2) :
    (chordP p x1 y1 x2 y2 : ZMod p) * (x2 - x1) = y2 - y1 := by
  have hne : (((x2 : Int) - x1 : Int) : ZMod p) ≠ 0 := by
    push_cast
    exact natCast_sub_natCast_ne_zero h1 h2 hx
  have h := fmod_mul_invMod hprime (u := (y2 : Int) - y1) hne
  push_cast at h
  exact h

/-- Exchanging the two points exchanges the signs of both differences of the chord slope. -/
theorem chordP_comm {x1 y1 x2 y2 : Nat} (h1 : x1 < p) (h2 : x2 < p) (hx : x1 ≠ x2) :
    chordP p x1 y1 x2 y2 = chordP p x2 y2 x1 y1 := by
  have : Fact p.Prime := ⟨hprime⟩
  refine eq_of_natCast_zmod_eq (fmod_lt _ hprime.pos) (fmod_lt _ hprime.pos)
    (mul_right_cancel₀ (natCast_sub_natCast_ne_zero h1 h2 hx) ?_)
  linear_combination chordP_mul hprime (y1 := y1) (y2 := y2) h1 h2 hx
    + chordP_mul hprime (y1 := y2) (y2 := y1) h2 h1 hx.symm

/-- The equation of the tangent slope (41_prime_points.md R162). -/
theorem tangentP_mul {a x1 y1 : Nat} (hy : 2 * y1 % p ≠ 0) :
    (tangentP p a x1 y1 : ZMod p) * (2 * y1) = 3 * x1 * x1 + a := by
  have hne : ((2 * y1 : Int) : ZMod p) ≠ 0 := by
    rw [← Nat.cast_ofNat, ← Nat.cast_mul, Int.cast_natCast, Ne, ZMod.natCast_eq_zero_iff, Nat.dvd_iff_mod_eq_zero]
    exact hy
  have h := fmod_mul_invMod hprime (u := 3 * x1 * x1 + a) hne
  push_cast at h
  exact h

end

/-! ## The sum on a line -/

section
variable {p lam x1 y1 x2 y2 : Nat}

/-- The sum does not depend on which of the two points of the line is named first. -/
theorem lineSumP_comm (hline : (lam : ZMod p) * (x2 - x1) = y2 - y1) :
    lineSumP p lam x1 y1 x2 = lineSumP p lam x2 y2 x1 := by
  simp only [lineSumP, sub_right_comm _ (x2 : Int) (x1 : Int), Triple.mk.injEq, and_true, true_and]
  apply fmod_congr
  push_cast
  linear_combination -hline

variable (hp : 0 < p)
include hp

theorem lineSumP_onLine : OnLineP p lam x1 y1 x2 (lineSumP p lam x1 y1 x2) :=
  ⟨fmod_cast _ hp, fmod_cast _ hp, rfl⟩

theorem lineSumP_normalized : NormalizedP p (lineSumP p lam x1 y1 x2) := .inr ⟨fmod_lt _ hp, fmod_lt _ hp, rfl⟩

theorem lineSumP_x_zmod : ((lineSumP p lam x1 y1 x2).x : ZMod p) = lam * lam - x1 - x2 := by
  rw [lineSumP, fmod_zmod _ hp]
  push_cast
  rfl

theorem lineSumP_y_zmod :
    ((lineSumP p lam x1 y1 x2).y : ZMod p) = lam * (x1 - (lineSumP p lam x1 y1 x2).x) - y1 := by
  rw [lineSumP, fmod_zmod _ hp]
  push_cast
  rfl

/-- The third point of a line stays on the curve. The slope meets the chord's equation `hline`; and `hcurve`, which is
the tangent's equation, and for a chord the difference of the curve's equations divided by x2 - x1. -/
theorem lineSumP_onCurve {a : Nat} {b : Int} (hline : (lam : ZMod p) * (x2 - x1) = y2 - y1)
    (hcurve : (lam : ZMod p) * (y1 + y2) = x1 * x1 + x1 * x2 + x2 * x2 + a)
    (hpoint : (y1 : ZMod p) * y1 = x1 * x1 * x1 + a * x1 + b) :
    OnCurveP p a b (lineSumP p lam x1 y1 x2) := by
  refine .inr ⟨(ZMod.intCast_eq_intCast_iff' _ _ _).1 ?_, rfl⟩
  push_cast
  rw [lineSumP_y_zmod hp, lineSumP_x_zmod hp]
  linear_combination hpoint + ((lam : ZMod p) * lam - 2 * x1 - x2) * (hcurve + (lam : ZMod p) * hline)

end

/-! ## Properties of the point law -/

/-- Sums of normalized triples are normalized, for every p (41_prime_points.md R165). -/
theorem addP_normalized {p a : Nat} (hp : 0 < p) {p1 p2 : Triple Nat} (h1 : NormalizedP p p1)
    (h2 : NormalizedP p p2) : NormalizedP p (addP p a p1 p2) := by
  fun_cases addP p a p1 p2 with
  | case1 => exact h2
  | case2 => exact h1
  | case3 => exact lineSumP_normalized hp
  | case4 => exact .inl rfl
  | case5 => exact lineSumP_normalized hp

section
variable {p a : Nat} {p1 p2 : Triple Nat} (hprime : p.Prime) (h1 : NormalizedP p p1) (h2 : NormalizedP p p2)
include hprime h1 h2

/-- `addP` meets the point law, with the equations of the slopes in the field of p elements (41_prime_points.md R162). -/
theorem addP_pointLaw : PointLawP p a p1 p2 (addP p a p1 p2) := by
  refine ⟨?_, ?_, addP_opposite, fun hne1 hne2 hx hy hne => ?_, fun hne1 hne2 hx => ?_⟩
  · rintro rfl
    exact addP_infinity_left
  · rintro - rfl
    exact addP_infinity_right
  · rw [addP_tangent hne1 hne2 hx hy hne]
    refine ⟨_, (ZMod.intCast_eq_intCast_iff' _ _ _).1 ?_, lineSumP_onLine hprime.pos⟩
    push_cast
    exact tangentP_mul hprime hne
  · rw [addP_chord hne1 hne2 hx]
    refine ⟨_, (ZMod.intCast_eq_intCast_iff' _ _ _).1 ?_, lineSumP_onLine hprime.pos⟩
    push_cast
    exact chordP_mul hprime (h1.resolve_left hne1).1 (h2.resolve_left hne2).1 hx

/-- Addition of normalized points is commutative for a prime p (41_prime_points.md R162). -/
theorem addP_comm : addP p a p1 p2 = addP p a p2 p1 := by
  fun_cases addP p a p1 p2 with
  | case1 h => rw [h, addP_infinity_right]
  | case2 _ h => rw [h, addP_infinity_left]
  | case3 hne1 hne2 hx h =>
    obtain ⟨hy, hne⟩ := h
    rw [addP_tangent hne2 hne1 hx.symm hy.symm (hy ▸ hne), hx, hy]
  | case4 hne1 hne2 hx h =>
    refine (addP_opposite hne2 hne1 hx.symm ?_).symm
    by_cases hy : p1.y = p2.y
    · exact .inr (not_not.1 fun hne => h ⟨hy, hy ▸ hne⟩)
    · exact .inl (Ne.symm hy)
  | case5 hne1 hne2 hx =>
    obtain ⟨hx1, -⟩ := h1.resolve_left hne1
    obtain ⟨hx2, -⟩ := h2.resolve_left hne2
    rw [addP_chord hne2 hne1 (Ne.symm hx), ← chordP_comm hprime hx1 hx2 hx]
    exact lineSumP_comm (chordP_mul hprime hx1 hx2 hx)

end

/-- A point of the curve other than the infinity solves the equation in the field of p elements. -/
theorem OnCurveP.equation {p a : Nat} {b : Int} {t : Triple Nat} (h : OnCurveP p a b t) (hne : t ≠ primeInfinity) :
    (t.y : ZMod p) * t.y = t.x * t.x * t.x + a * t.x + b := by
  have heq := (ZMod.intCast_eq_intCast_iff' _ _ _).2 (h.resolve_left hne).1
  push_cast at heq
  exact heq

/-- Settles O60: on the tangent and on the chord the slope meets the two equations that put the third point on the
curve; the chord's second one is the difference of the curve's equations at the two points. -/
theorem primePointSumsStayOnTheCurve : Obligations.PrimePointSumsStayOnTheCurve := by
  intro p a b p1 p2 hprime h1 h2 hc1 hc2
  fun_cases addP p a p1 p2 with
  | case1 => exact hc2
  | case2 => exact hc1
  | case3 hne1 hne2 hx h =>
    obtain ⟨hy, hne⟩ := h
    rw [← hx]
    refine lineSumP_onCurve (y2 := p1.y) hprime.pos (by ring) ?_ (hc1.equation hne1)
    linear_combination tangentP_mul hprime (a := a) (x1 := p1.x) hne
  | case4 => exact .inl rfl
  | case5 hne1 hne2 hx =>
    have : Fact p.Prime := ⟨hprime⟩
    obtain ⟨hx1, -⟩ := h1.resolve_left hne1
    obtain ⟨hx2, -⟩ := h2.resolve_left hne2
    have hne := natCast_sub_natCast_ne_zero hx1 hx2 hx
    have hline := chordP_mul hprime (y1 := p1.y) (y2 := p2.y) hx1 hx2 hx
    refine lineSumP_onCurve hprime.pos hline (mul_left_cancel₀ hne ?_) (hc1.equation hne1)
    linear_combination (p1.y + p2.y : ZMod p) * hline + hc2.equation hne2 - hc1.equation hne1

/-! ## The rules -/

section
variable {x : Regs} {draw : Nat → Nat} {rd rs1 rs2 : Reg}

theorem pnormRule_domain (hwf : (Instr.pnorm rd rs1).wf = true) (h : x.modp.toInt < 2) :
    pnormRule x rd rs1 = .error .domain := (withTripleBases_ok hwf _).trans (withModulus_error h _)

theorem paddRule_domain (hwf : (Instr.padd rd rs1 rs2).wf = true) (h : x.modp.toInt < 2) :
    paddRule x draw rd rs1 rs2 = .error .domain := (withTripleBases_ok hwf _).trans (withModulus_error h _)

theorem psmulRule_domain (hwf : (Instr.psmul rd rs1 rs2).wf = true)
    (h : x.modp.toInt < 2 ∨ (x.read rs2).toInt < 0) : psmulRule x draw rd rs1 rs2 = .error .domain := by
  refine (withTripleBases_ok hwf _).trans ?_
  by_cases hlow : x.modp.toInt < 2
  · exact withModulus_error hlow _
  · obtain ⟨p, hp, h2⟩ := exists_modulus (not_lt.1 hlow)
    rw [withModulus_ok hp h2, withNonneg_error (h.resolve_left hlow)]

theorem peqRule_ok (hwf : (Instr.peq rd rs1 rs2).wf = true) :
    peqRule x rd rs1 rs2 = boolResult rd (decide (x.triple rs1 = x.triple rs2)) := withTripleBases_ok hwf _

variable {p : Nat} (hp : x.modp.toInt = p) (h2 : 2 ≤ p)
include hp h2

theorem pnormRule_ok (hwf : (Instr.pnorm rd rs1).wf = true) :
    pnormRule x rd rs1 = pointResult primeInfinity rd (normP (x.triple rs1) p) :=
  (withTripleBases_ok hwf _).trans (withModulus_ok hp h2 _)

theorem paddRule_ok (hwf : (Instr.padd rd rs1 rs2).wf = true) : paddRule x draw rd rs1 rs2 =
    pointResult primeInfinity rd
      (paddPoint draw p (residue x.ca p) (normP (x.triple rs1) p) (normP (x.triple rs2) p)) :=
  (withTripleBases_ok hwf _).trans (withModulus_ok hp h2 _)

theorem psmulRule_ok (hwf : (Instr.psmul rd rs1 rs2).wf = true) {k : Nat} (hk : (x.read rs2).toInt = k) :
    psmulRule x draw rd rs1 rs2 =
      pointResult primeInfinity rd (psmulPoint draw p (residue x.ca p) k (normP (x.triple rs1) p)) :=
  (withTripleBases_ok hwf _).trans ((withModulus_ok hp h2 _).trans (withNonneg_ok hk _))

end

/-! ## The sums and multiples -/

section
variable {draw : Nat → Nat} {p a : Nat}

theorem paddPoint_prime (hprime : p.Prime) (p1 p2 : Triple Nat) : paddPoint draw p a p1 p2 = addP p a p1 p2 :=
  if_pos ((isPrime_iff_prime p).2 hprime)

/-- The sum, or the draw for a composite p, is normalized (41_prime_points.md R165). -/
theorem paddPoint_normalized (hp : 0 < p) {p1 p2 : Triple Nat} (h1 : NormalizedP p p1) (h2 : NormalizedP p p2) :
    NormalizedP p (paddPoint draw p a p1 p2) := by
  unfold paddPoint
  split
  · exact addP_normalized hp h1 h2
  · exact drawNormP_normalized draw hp

/-- The multiple, or the draw for a composite p, is normalized (41_prime_points.md R165). -/
theorem psmulPoint_normalized (hp : 0 < p) (k : Nat) {q : Triple Nat} (hq : NormalizedP p q) :
    NormalizedP p (psmulPoint draw p a k q) := by
  unfold psmulPoint
  split
  · exact binaryLoop_keeps _ _ (fun _ _ => addP_normalized hp) _ _ _ _ (.inl rfl) hq
  · exact drawNormP_normalized draw hp

/-- The loop over a scalar of at most 64 bits is double-and-add (41_prime_points.md R166). -/
theorem binaryPower_eq_doubleAndAdd (add : Triple Nat → Triple Nat → Triple Nat) (o q : Triple Nat) {k : Nat}
    (hk : k < 2 ^ 64) : binaryPower add o q k = doubleAndAdd add o q k :=
  binaryLoop_eq_foldl add _ 64 o q k (lt_two_pow_log2_succ k) hk

theorem psmulPoint_prime (hprime : p.Prime) {k : Nat} (hk : k < 2 ^ 64) (q : Triple Nat) :
    psmulPoint draw p a k q = doubleAndAdd (addP p a) primeInfinity q k := by
  rw [psmulPoint, if_pos ((isPrime_iff_prime p).2 hprime), binaryPower_eq_doubleAndAdd _ _ _ hk]

end

/-! ## The completions -/

/-- A command whose rule answers a point writes it, with FLAG = 1 for the infinity (10_state.md R41). -/
theorem exec_point {s : State} {x : Regs} {i : Instr} (hx : s.engine = .busy x) {o r : Triple Nat} {rd : Reg}
    (h : ruleOf i x s.draws = pointResult o rd r) :
    ∃ t, exec i s = .next t ∧ Completed s t .none (decide (r = o)) false ∧ WritesTriple s t rd r := exec_triple hx h

/-- Settles O45: a normalized triple is a fixed point of `normP`, and its words are written back. -/
theorem pnormWritesTheNormalizedTriple : Obligations.PnormWritesTheNormalizedTriple := by
  refine fun s x rd rs1 hx hwf => ⟨rfl, fun hlow => exec_error hx (pnormRule_domain hwf hlow), fun p hp h2 => ?_⟩
  have hpos : 0 < p := by omega
  obtain ⟨t, hexec, hdone, hwrites⟩ := exec_point (i := .pnorm rd rs1) hx (pnormRule_ok hp h2 hwf)
  rw [Ne, ← residue_eq_zero_iff _ hpos]
  refine ⟨fun hzero => ?_, fun hne => ?_, fun hnorm => ?_⟩
  · rw [normP_infinity hzero] at hdone hwrites
    exact ⟨t, hexec, hdone, hwrites⟩
  · obtain ⟨X, Y, hnorm, -, -, hX, hY⟩ := normP_finite hpos hne
    rw [hnorm] at hdone hwrites
    exact ⟨t, X, Y, hexec, by simpa [primeInfinity] using hdone, hwrites, hX, hY⟩
  · rw [normP_of_normalized hp h2 hnorm] at hwrites
    exact ⟨t, hexec, hwrites.triple_eq⟩

/-- Settles O46: both operands are normalized first, which the point law needs for the chord's division. -/
theorem paddFollowsThePointLaw : Obligations.PaddFollowsThePointLaw := by
  refine fun s x rd rs1 rs2 hx hwf => ⟨rfl, fun hlow => exec_error hx (paddRule_domain hwf hlow), fun p hp h2 => ?_⟩
  have hpos : 0 < p := by omega
  have hnorm1 := normP_normalized (x.triple rs1) hpos
  have hnorm2 := normP_normalized (x.triple rs2) hpos
  obtain ⟨t, hexec, hdone, hwrites⟩ := exec_point (i := .padd rd rs1 rs2) hx (paddRule_ok hp h2 hwf)
  refine ⟨t, _, hexec, hdone, hwrites, paddPoint_normalized hpos hnorm1 hnorm2, fun hprime => ?_⟩
  rw [paddPoint_prime hprime]
  exact addP_pointLaw hprime hnorm1 hnorm2

/-- Settles O47: the loop takes one turn per bit of the scalar, which is below 2^63. -/
theorem psmulIsDoubleAndAdd : Obligations.PsmulIsDoubleAndAdd := by
  refine fun s x rd rs1 rs2 hx hwf =>
    ⟨rfl, fun hbad => exec_error hx (psmulRule_domain hwf hbad), fun p k hp h2 hk => ?_⟩
  have hpos : 0 < p := by omega
  have hword := BitVec.toInt_lt (x := x.read rs2)
  obtain ⟨t, hexec, hdone, hwrites⟩ := exec_point (i := .psmul rd rs1 rs2) hx (psmulRule_ok hp h2 hwf hk)
  exact ⟨t, _, hexec, hdone, hwrites, psmulPoint_normalized hpos k (normP_normalized _ hpos),
    fun hprime => psmulPoint_prime hprime (by omega) _⟩

/-- Settles O48: the two triples are compared as three pairs of words. -/
theorem peqComparesRawTriples : Obligations.PeqComparesRawTriples := by
  intro s x rd rs1 rs2 hx hwf
  obtain ⟨h1, h2⟩ : isTripleBase rs1 = true ∧ isTripleBase rs2 = true := by
    simpa [Instr.wf, Instr.tripleFields] using hwf
  obtain ⟨t, hexec, hdone, hwrites⟩ := exec_one (i := .peq rd rs1 rs2) hx (peqRule_ok hwf)
  exact ⟨rfl, t, _, hexec, hdone, hwrites, by rw [decide_eq_true_iff, triple_eq_iff x h1 h2]⟩

end Sys2Proof.Machine
end

section
/-! PROOFS. The ring GF(2)[z]/(f) for an irreducible f: it is a field of 2^m elements, in which `fieldInv` inverts; and
its elements as the bit masks of degree below m. -/

namespace Sys2Proof.Machine

/-- The units are the nonzero bit masks of degree 0. -/
theorem isUnit_toPoly_iff {g : Nat} (hg : g ≠ 0) : IsUnit (toPoly g) ↔ ¬ 1 ≤ deg g := by
  rw [Polynomial.isUnit_iff_degree_eq_zero, Polynomial.degree_eq_natDegree (mt (toPoly_eq_zero_iff g).1 hg),
    toPoly_natDegree hg, deg_eq_log2 hg, Nat.cast_eq_zero]
  omega

/-- An irreducible bit mask is an irreducible polynomial in the sense of the library. -/
theorem toPoly_irreducible {f : Nat} (h : irreducible f = true) : Irreducible (toPoly f) := by
  obtain ⟨hdeg, hproper⟩ := (irreducibleMeansNoProperFactor f).1 h
  have hf : 2 ≤ f := (one_le_deg_iff f).1 hdeg
  refine ⟨fun hu => (isUnit_toPoly_iff (by omega)).1 hu hdeg, fun A B hAB => ?_⟩
  obtain ⟨g, rfl⟩ := toPoly_surjective A
  obtain ⟨k, rfl⟩ := toPoly_surjective B
  obtain rfl : f = clmul g k := toPoly_injective (by rw [hAB, toPoly_clmul])
  have hne : clmul g k ≠ 0 := by omega
  obtain ⟨hg, hk⟩ := ne_zero_of_clmul_ne_zero hne
  rw [isUnit_toPoly_iff hg, isUnit_toPoly_iff hk, ← not_and_or]
  rintro ⟨hg1, hk1⟩
  refine hproper g k hg1 ?_ rfl
  rw [deg_eq_log2 hk] at hk1
  rw [deg_eq_log2 hg, deg_eq_log2 hne, (clmul_log2 hg hk).2]
  omega

/-- The representatives of a degree below that of f are determined by their class. -/
theorem eq_of_fieldClass_eq {f a b : Nat} (hf : f ≠ 0) (ha : deg a < deg f) (hb : deg b < deg f)
    (h : fieldClass f a = fieldClass f b) : a = b :=
  IsRemainder.unique hf (isRemainder_iff.2 ⟨ha, rfl⟩) (isRemainder_iff.2 ⟨hb, h⟩)

/-- A nonzero representative of a degree below that of f is nonzero in the ring. -/
theorem fieldClass_ne_zero {f u : Nat} (hdeg : deg u < deg f) (hu : u ≠ 0) : fieldClass f u ≠ 0 :=
  fun h => hu (eq_zero_of_toPoly_dvd hdeg (AdjoinRoot.mk_eq_zero.1 h))

/-- Every element is its own negative. -/
theorem fieldClass_add_self (f u : Nat) : fieldClass f u + fieldClass f u = 0 := by
  rw [← fieldClass_xor, Nat.xor_self, fieldClass_zero]

theorem ne_zero_of_irreducible {f : Nat} (h : irreducible f = true) : f ≠ 0 := by
  obtain ⟨hf, -⟩ := (irreducible_iff_search f).1 h
  omega

/-- Fermat's little theorem in the field of 2^m elements (42_gf2_poly.md R200). -/
theorem fieldClass_pow_sub_one {f u : Nat} (h : irreducible f = true) (hu : fieldClass f u ≠ 0) :
    fieldClass f u ^ (2 ^ fieldDegree f - 1) = 1 := by
  have hirr : Fact (Irreducible (toPoly f)) := ⟨toPoly_irreducible h⟩
  have hne : toPoly f ≠ 0 := hirr.out.ne_zero
  have : Module.Finite (ZMod 2) (AdjoinRoot (toPoly f)) := (AdjoinRoot.powerBasis hne).finite
  have : Finite (AdjoinRoot (toPoly f)) := Module.finite_of_finite (ZMod 2)
  have := Fintype.ofFinite (AdjoinRoot (toPoly f))
  have hcard : Fintype.card (AdjoinRoot (toPoly f)) = 2 ^ fieldDegree f := by
    rw [Fintype.card_eq_nat_card, Module.natCard_eq_pow_finrank (K := ZMod 2), Nat.card_zmod,
      PowerBasis.finrank (AdjoinRoot.powerBasis hne), AdjoinRoot.powerBasis_dim,
      toPoly_natDegree (mt (toPoly_eq_zero_iff f).2 hne), fieldDegree]
  rw [← hcard]
  exact FiniteField.pow_card_sub_one_eq_one _ hu

/-- For an irreducible f the power 2^m - 2 of a nonzero element is its inverse (42_gf2_poly.md R200). -/
theorem fieldClass_fieldInv_mul {f u : Nat} (h : irreducible f = true) (hu : fieldClass f u ≠ 0) :
    fieldClass f (fieldInv f u) * fieldClass f u = 1 := by
  obtain ⟨hf, -⟩ := (irreducible_iff_search f).1 h
  have hm : f.log2 ≠ 0 := by
    have := (Nat.le_log2 (by omega)).2 (show 2 ^ 1 ≤ f by omega)
    omega
  have hpow : 2 ≤ 2 ^ fieldDegree f := Nat.one_lt_two_pow hm
  rw [fieldInv, fieldClass_polyPowMod (by omega), ← pow_succ,
    show 2 ^ fieldDegree f - 2 + 1 = 2 ^ fieldDegree f - 1 by omega, fieldClass_pow_sub_one h hu]

end Sys2Proof.Machine
end

section
/-! PROOFS. Point addition does not depend on the order of its operands, in both kinds of field (41_prime_points.md R162,
43_binary_points.md R232): the binary point law case by case, its chord, then the two commands. -/

namespace Sys2Proof.Machine

/-- `normB` answers a triple of NORMB(f) (43_binary_points.md R235). -/
theorem normB_normalized (t : Triple Word) {f : Nat} (hf : f ≠ 0) : NormalizedB f (normB t f) := by
  rw [normB, normBReduced]
  split
  · exact .inl rfl
  · exact .inr ⟨deg_prem_lt hf _, deg_prem_lt hf _, rfl⟩

/-! ## The binary point law, case by case -/

section
variable {f a b : Nat} {p1 p2 : Triple Nat}

theorem addB_infinity_left : addB f a b binaryInfinity p2 = p2 := if_pos rfl

theorem addB_infinity_right : addB f a b p1 binaryInfinity = p1 := by
  rw [addB, if_pos rfl]
  split
  · exact Eq.symm ‹_›
  · rfl

variable (h1 : p1 ≠ binaryInfinity) (h2 : p2 ≠ binaryInfinity)
include h1 h2

theorem addB_opposite (hx : p1.x = p2.x) (hy : p1.y ≠ p2.y ∨ p1.x = 0) : addB f a b p1 p2 = binaryInfinity := by
  rw [addB, if_neg h1, if_neg h2, if_pos hx, if_neg fun ⟨heq, hne⟩ => hy.elim (absurd heq) hne]

theorem addB_double (hx : p1.x = p2.x) (hy : p1.y = p2.y) (hne : p1.x ≠ 0) :
    addB f a b p1 p2 = doubleB f a b p1.x p1.y := by
  rw [addB, if_neg h1, if_neg h2, if_pos hx, if_pos ⟨hy, hne⟩]

theorem addB_chord (hx : p1.x ≠ p2.x) :
    addB f a b p1 p2 = lineSumB f a (chordB f p1.x p1.y p2.x p2.y) p1.x p1.y p2.x := by
  rw [addB, if_neg h1, if_neg h2, if_neg hx]

end

/-! ## The chord of a binary curve -/

section
variable {f a lam x1 y1 x2 y2 : Nat}

/-- The chord slope is read off the sums of the coordinates, which are symmetric. -/
theorem chordB_comm : chordB f x1 y1 x2 y2 = chordB f x2 y2 x1 y1 := by
  rw [chordB, chordB, Nat.xor_comm y1, Nat.xor_comm x1]

/-- The equation of the chord slope (43_binary_points.md R232). -/
theorem fieldClass_chordB_mul (hirr : irreducible f = true) (h1 : deg x1 < deg f) (h2 : deg x2 < deg f)
    (hx : x1 ≠ x2) :
    fieldClass f (chordB f x1 y1 x2 y2) * (fieldClass f x1 + fieldClass f x2) = fieldClass f y1 + fieldClass f y2 := by
  have hf : f ≠ 0 := ne_zero_of_irreducible hirr
  have hne : fieldClass f (x1 ^^^ x2) ≠ 0 := fieldClass_ne_zero (deg_xor_lt hf h1 h2) (mt Nat.xor_eq_zero_iff.1 hx)
  rw [chordB, fieldClass_fieldMul hf, ← fieldClass_xor, mul_assoc, fieldClass_fieldInv_mul hirr hne, mul_one,
    fieldClass_xor]

/-- The sum does not depend on which of the two points of the line is named first. -/
theorem lineSumB_comm (hf : f ≠ 0) (h1 : deg y1 < deg f) (h2 : deg y2 < deg f)
    (hline : fieldClass f lam * (fieldClass f x1 + fieldClass f x2) = fieldClass f y1 + fieldClass f y2) :
    lineSumB f a lam x1 y1 x2 = lineSumB f a lam x2 y2 x1 := by
  have hx3 : chordBX f a lam x1 x2 = chordBX f a lam x2 x1 := by
    rw [chordBX, chordBX, Nat.xor_right_comm _ x1]
  have hclass : ∀ X, fieldMul f lam (x1 ^^^ X) ^^^ y1 = fieldMul f lam (x2 ^^^ X) ^^^ y2 := fun X => by
    refine eq_of_fieldClass_eq hf (deg_xor_lt hf (deg_prem_lt hf _) h1) (deg_xor_lt hf (deg_prem_lt hf _) h2) ?_
    simp only [fieldClass_xor, fieldClass_fieldMul hf]
    linear_combination hline + fieldClass_add_self f y1 - fieldClass f lam * fieldClass_add_self f x2
  rw [lineSumB, lineSumB, hx3, Nat.xor_right_comm, hclass, Nat.xor_right_comm]

end

/-- Addition of normalized points is commutative for an irreducible f (43_binary_points.md R232). -/
theorem addB_comm {f a b : Nat} {p1 p2 : Triple Nat} (hirr : irreducible f = true) (h1 : NormalizedB f p1)
    (h2 : NormalizedB f p2) : addB f a b p1 p2 = addB f a b p2 p1 := by
  fun_cases addB f a b p1 p2 with
  | case1 h => rw [h, addB_infinity_right]
  | case2 _ h => rw [h, addB_infinity_left]
  | case3 hne1 hne2 hx h =>
    obtain ⟨hy, hne⟩ := h
    rw [addB_double hne2 hne1 hx.symm hy.symm (hx ▸ hne), hx, hy]
  | case4 hne1 hne2 hx h =>
    refine (addB_opposite hne2 hne1 hx.symm ?_).symm
    by_cases hy : p1.y = p2.y
    · exact .inr (not_not.1 fun hne => h ⟨hy, hx ▸ hne⟩)
    · exact .inl (Ne.symm hy)
  | case5 hne1 hne2 hx =>
    obtain ⟨hx1, hy1, -⟩ := h1.resolve_left hne1
    obtain ⟨hx2, hy2, -⟩ := h2.resolve_left hne2
    rw [addB_chord hne2 hne1 (Ne.symm hx), chordB_comm]
    exact lineSumB_comm (ne_zero_of_irreducible hirr) hy1 hy2 (chordB_comm ▸ fieldClass_chordB_mul hirr hx1 hx2 hx)

/-! ## The commands -/

/-- Two commands in flight whose rules agree have the same next state. -/
theorem exec_congr {s : State} {x : Regs} {i j : Instr} (hx : s.engine = .busy x)
    (h : ruleOf i x s.draws = ruleOf j x s.draws) : exec i s = exec j s := by
  rw [exec_busy i hx, exec_busy j hx, h]

/-- The triple check does not depend on the order of the fields. -/
theorem withTripleBases_swap {α : Type} (k l m : Reg) (rest : Except ErrCode α) :
    withTripleBases [k, l, m] rest = withTripleBases [k, m, l] rest := by
  simp only [withTripleBases, ((List.Perm.swap m l []).cons k).all_eq]

theorem paddRule_comm {x : Regs} {p : Nat} (hp : x.modp.toInt = p) (hprime : p.Prime) (draw : Nat → Nat)
    (rd rs1 rs2 : Reg) : paddRule x draw rd rs1 rs2 = paddRule x draw rd rs2 rs1 := by
  rw [paddRule, paddRule, withTripleBases_swap, withModulus_ok hp hprime.two_le, withModulus_ok hp hprime.two_le,
    paddPoint_prime hprime, paddPoint_prime hprime,
    addP_comm hprime (normP_normalized _ hprime.pos) (normP_normalized _ hprime.pos)]

theorem baddPoint_irreducible {draw : Nat → Nat} {f a b : Nat} (hirr : irreducible f = true) (p1 p2 : Triple Nat) :
    baddPoint draw f a b p1 p2 = addB f a b p1 p2 := if_pos hirr

theorem baddRule_comm {x : Regs} (hirr : irreducible x.fpoly.toNat = true) (draw : Nat → Nat) (rd rs1 rs2 : Reg) :
    baddRule x draw rd rs1 rs2 = baddRule x draw rd rs2 rs1 := by
  obtain ⟨h2, -⟩ := (irreducible_iff_search _).1 hirr
  have hf := ne_zero_of_irreducible hirr
  rw [baddRule, baddRule, withTripleBases_swap, withFieldModulus_ok h2, withFieldModulus_ok h2,
    baddPoint_irreducible hirr, baddPoint_irreducible hirr,
    addB_comm hirr (normB_normalized _ hf) (normB_normalized _ hf)]

/-- Settles O59: the sums of the normalized operands are the same, and so are the checks. -/
theorem pointAdditionIsCommutative : Obligations.PointAdditionIsCommutative := fun s _ rd rs1 rs2 hx =>
  ⟨fun _ hp hprime => exec_congr hx (paddRule_comm hp hprime s.draws rd rs1 rs2),
    fun hirr => exec_congr hx (baddRule_comm hirr s.draws rd rs1 rs2)⟩

end Sys2Proof.Machine
end

section
/-! PROOFS. The GF(2) polynomial commands (42_gf2_poly.md): degrees and remainders of bit masks, then each command's
completion from what its rule answers. -/

namespace Sys2Proof.Machine

/-! ## Degrees -/

/-- A register holds the zero polynomial exactly when all its bits are 0. -/
theorem toNat_eq_zero_iff (v : Word) : v.toNat = 0 ↔ v = 0 := BitVec.toNat_inj (y := 0)

/-- A polynomial of degree below n is a bit mask of n bits (42_gf2_poly.md R195). -/
theorem deg_lt_natCast_iff (a n : Nat) : deg a < n ↔ a < 2 ^ n := by
  by_cases ha : a = 0
  · subst ha
    simp [deg]
    omega
  · rw [deg_eq_log2 ha, Int.ofNat_lt, Nat.log2_lt ha]

/-- The degree is the number of the highest bit set (42_gf2_poly.md R197). -/
theorem deg_eq_of_two_pow_le {n m : Nat} (hle : 2 ^ m ≤ n) (hlt : n < 2 ^ (m + 1)) : deg n = m := by
  have hn : n ≠ 0 := (Nat.two_pow_pos m).trans_le hle |>.ne'
  rw [deg_eq_log2 hn, (Nat.log2_eq_iff hn).2 ⟨hle, hlt⟩]

/-- The product by z^s of a nonzero polynomial has a degree larger by s (42_gf2_poly.md R193). -/
theorem deg_mul_two_pow {a : Nat} (ha : a ≠ 0) (s : Nat) : deg (a * 2 ^ s) = deg a + s := by
  rw [deg_eq_log2 ha, ← Nat.cast_add]
  refine deg_eq_of_two_pow_le ?_ ?_
  · rw [pow_add]
    exact Nat.mul_le_mul_right _ (Nat.log2_self_le ha)
  · rw [Nat.add_right_comm, pow_add]
    exact Nat.mul_lt_mul_of_pos_right (lt_two_pow_log2_succ a) (Nat.two_pow_pos s)

/-- The degree of a product of nonzero polynomials is the sum of the degrees (42_gf2_poly.md R194). -/
theorem deg_clmul {g h : Nat} (hg : g ≠ 0) (hh : h ≠ 0) : deg (clmul g h) = deg g + deg h := by
  obtain ⟨hne, hlog⟩ := clmul_log2 hg hh
  rw [deg_eq_log2 hne, hlog, deg_eq_log2 hg, deg_eq_log2 hh, Nat.cast_add]

/-- A product with a zero polynomial is zero. -/
theorem clmul_eq_zero_iff (g h : Nat) : clmul g h = 0 ↔ g = 0 ∨ h = 0 := by
  simp only [← toPoly_eq_zero_iff, toPoly_clmul, mul_eq_zero]

/-- A product fits in n bits exactly when it is zero or the degrees sum to less than n (42_gf2_poly.md R194). -/
theorem clmul_lt_two_pow_iff (g h n : Nat) : clmul g h < 2 ^ n ↔ g = 0 ∨ h = 0 ∨ deg g + deg h < n := by
  by_cases hzero : g = 0 ∨ h = 0
  · rw [(clmul_eq_zero_iff g h).2 hzero, ← or_assoc]
    exact iff_of_true (Nat.two_pow_pos n) (.inl hzero)
  · obtain ⟨hg, hh⟩ := not_or.1 hzero
    rw [← deg_lt_natCast_iff, deg_clmul hg hh, or_iff_right hg, or_iff_right hh]

/-! ## Remainders and classes -/

section
variable {f : Nat}

/-- `prem` is the only remainder (00_scope.md R12). -/
theorem isRemainder_iff_eq_prem (hf : f ≠ 0) {P R : Nat} : IsRemainder P f R ↔ R = prem P f := by
  obtain ⟨hprem, hunique⟩ := premIsTheUniqueRemainder P f hf
  exact ⟨hunique R, fun h => h ▸ hprem⟩

/-- The power of a remainder, by square-and-multiply, is the remainder of the exact power (42_gf2_poly.md R199). -/
theorem polyPowMod_prem_isRemainder (hf : f ≠ 0) (P k : Nat) :
    IsRemainder (polyPow P k) f (polyPowMod (prem P f) k f) := by
  rw [isRemainder_iff, fieldClass_polyPow, fieldClass_polyPowMod hf, fieldClass_prem hf]
  exact ⟨deg_polyPowMod_lt hf _ _, rfl⟩

/-- In the field of 2^m elements the power 2^m is the identity (42_gf2_poly.md R201). -/
theorem fieldClass_pow_two_pow (hirr : irreducible f = true) (u : Nat) :
    fieldClass f u ^ 2 ^ fieldDegree f = fieldClass f u := by
  by_cases hu : fieldClass f u = 0
  · rw [hu, zero_pow (Nat.two_pow_pos _).ne']
  · rw [← Nat.sub_add_cancel (Nat.one_le_two_pow (n := fieldDegree f)), pow_succ, fieldClass_pow_sub_one hirr hu,
      one_mul]

/-- An accepted modulus has a degree of at least 1 (42_gf2_poly.md R191). -/
theorem one_le_fieldDegree (h2 : 2 ≤ f) : 1 ≤ fieldDegree f := (Nat.le_log2 (by omega)).2 h2

/-- For an irreducible f the remainder of the power 2^(m-1) is a square root mod f (42_gf2_poly.md R201). -/
theorem clmul_self_isRemainder_of_sqrt (hirr : irreducible f = true) {P R : Nat}
    (hR : IsRemainder (polyPow P (2 ^ (fieldDegree f - 1))) f R) : IsRemainder (clmul R R) f (prem P f) := by
  obtain ⟨h2, -⟩ := (irreducible_iff_search f).1 hirr
  have hf : f ≠ 0 := ne_zero_of_irreducible hirr
  obtain ⟨-, hclass⟩ := isRemainder_iff.1 hR
  refine isRemainder_iff.2 ⟨deg_prem_lt hf P, ?_⟩
  calc fieldClass f (clmul R R) = fieldClass f P ^ 2 ^ (fieldDegree f - 1 + 1) := by
        rw [fieldClass_clmul, ← hclass, fieldClass_polyPow, ← pow_add, ← two_mul, ← pow_succ']
    _ = fieldClass f (prem P f) := by
        rw [Nat.sub_add_cancel (one_le_fieldDegree h2), fieldClass_pow_two_pow hirr, fieldClass_prem hf]

/-- For an irreducible f the product of a nonzero element and its inverse is 1 mod f (42_gf2_poly.md R200). -/
theorem clmul_fieldInv_isRemainder (hirr : irreducible f = true) {P : Nat} (hne : prem P f ≠ 0) :
    IsRemainder (clmul P (fieldInv f (prem P f))) f 1 := by
  have hf : f ≠ 0 := ne_zero_of_irreducible hirr
  have hclass : fieldClass f (prem P f) ≠ 0 := fieldClass_ne_zero (deg_prem_lt hf P) hne
  have hone : deg 1 = 0 := by decide
  obtain ⟨hdeg, -⟩ := (irreducibleMeansNoProperFactor f).1 hirr
  rw [isRemainder_iff, fieldClass_clmul, mul_comm, ← fieldClass_prem hf P, fieldClass_fieldInv_mul hirr hclass,
    fieldClass_one]
  exact ⟨hone ▸ hdeg, rfl⟩

end

/-! ## The rules -/

/-- A product by z^s that fits in 64 bits (42_gf2_poly.md R193). -/
theorem shiftPoly_ok {a s : Nat} (h : a * 2 ^ s < 2 ^ 64) : shiftPoly a s = .ok (a * 2 ^ s) := by
  by_cases ha : a = 0
  · rw [shiftPoly, if_pos ha, ha, Nat.zero_mul]
  · rw [← deg_lt_natCast_iff, deg_mul_two_pow ha] at h
    rw [shiftPoly, if_neg ha, if_neg (by omega), Nat.shiftLeft_eq]

/-- A product by z^s that does not fit is that of a nonzero polynomial (42_gf2_poly.md R195). -/
theorem shiftPoly_overflow {a s : Nat} (h : 2 ^ 64 ≤ a * 2 ^ s) : shiftPoly a s = .error .overflow := by
  have ha : a ≠ 0 := by
    rintro rfl
    simp at h
  rw [← Nat.not_lt, ← deg_lt_natCast_iff, deg_mul_two_pow ha] at h
  rw [shiftPoly, if_neg ha, if_pos (by omega)]

section
variable {x : Regs} {rd rs1 rs2 : Reg}

theorem gshlRule_domain (h : (x.read rs2).toInt < 0) : gshlRule x rd rs1 rs2 = .error .domain := withNonneg_error h _

theorem gshlRule_ok {n : Nat} (hn : (x.read rs2).toInt = n) (h : (x.read rs1).toNat * 2 ^ n < 2 ^ 64) :
    gshlRule x rd rs1 rs2 = plainResult rd (BitVec.ofNat 64 ((x.read rs1).toNat * 2 ^ n)) := by
  rw [gshlRule, withNonneg_ok hn, shiftPoly_ok h]

theorem gshlRule_overflow {n : Nat} (hn : (x.read rs2).toInt = n) (h : 2 ^ 64 ≤ (x.read rs1).toNat * 2 ^ n) :
    gshlRule x rd rs1 rs2 = .error .overflow := by
  rw [gshlRule, withNonneg_ok hn, shiftPoly_overflow h]

theorem gmulRule_ok (h : clmul (x.read rs1).toNat (x.read rs2).toNat < 2 ^ 64) :
    gmulRule x rd rs1 rs2 = plainResult rd (BitVec.ofNat 64 (clmul (x.read rs1).toNat (x.read rs2).toNat)) := by
  rw [← deg_lt_natCast_iff] at h
  exact if_neg (by omega)

theorem gmulRule_overflow (h : 2 ^ 64 ≤ clmul (x.read rs1).toNat (x.read rs2).toNat) :
    gmulRule x rd rs1 rs2 = .error .overflow := by
  rw [← Nat.not_lt, ← deg_lt_natCast_iff] at h
  exact if_pos (by omega)

theorem gmodRule_domain (h : x.read rs2 = 0) : gmodRule x rd rs1 rs2 = .error .domain := if_pos h

theorem gmodRule_ok (h : x.read rs2 ≠ 0) : gmodRule x rd rs1 rs2 =
    plainResult rd (BitVec.ofNat 64 (prem (x.read rs1).toNat (x.read rs2).toNat)) := if_neg h

theorem gdegRule_zero (h : x.read rs1 = 0) : gdegRule x rd rs1 = minusOneResult rd := if_pos h

theorem gdegRule_ok {m : Nat} (hle : 2 ^ m ≤ (x.read rs1).toNat) (hlt : (x.read rs1).toNat < 2 ^ (m + 1)) :
    gdegRule x rd rs1 = plainResult rd (BitVec.ofNat 64 m) := by
  have hne : x.read rs1 ≠ 0 := mt (toNat_eq_zero_iff _).2 ((Nat.two_pow_pos m).trans_le hle).ne'
  rw [gdegRule, if_neg hne, deg_eq_of_two_pow_le hle hlt, BitVec.ofInt_natCast]

section
variable (hlow : x.fpoly.toNat < 2)
include hlow

theorem gmulmRule_domain : gmulmRule x rd rs1 rs2 = .error .domain := withFieldModulus_error hlow _

theorem gexpRule_domain : gexpRule x rd rs1 rs2 = .error .domain := withFieldModulus_error hlow _

theorem gsqrtRule_domain : gsqrtRule x rd rs1 = .error .domain := withFieldModulus_error hlow _

theorem ginvRule_domain : ginvRule x rd rs1 = .error .domain := withFieldModulus_error hlow _

end

variable (h2 : 2 ≤ x.fpoly.toNat)
include h2

theorem gmulmRule_ok : gmulmRule x rd rs1 rs2 =
    plainResult rd (BitVec.ofNat 64 (fieldMul x.fpoly.toNat (x.read rs1).toNat (x.read rs2).toNat)) :=
  withFieldModulus_ok h2 _

theorem gexpRule_negative (h : (x.read rs2).toInt < 0) : gexpRule x rd rs1 rs2 = .error .domain :=
  (withFieldModulus_ok h2 _).trans (withNonneg_error h _)

theorem gexpRule_ok {k : Nat} (hk : (x.read rs2).toInt = k) : gexpRule x rd rs1 rs2 = plainResult rd
    (BitVec.ofNat 64 (polyPowMod (prem (x.read rs1).toNat x.fpoly.toNat) k x.fpoly.toNat)) :=
  (withFieldModulus_ok h2 _).trans (withNonneg_ok hk _)

theorem gsqrtRule_ok : gsqrtRule x rd rs1 = plainResult rd (BitVec.ofNat 64
    (polyPowMod (prem (x.read rs1).toNat x.fpoly.toNat) (2 ^ (fieldDegree x.fpoly.toNat - 1)) x.fpoly.toNat)) :=
  withFieldModulus_ok h2 _

theorem ginvRule_zero (h : prem (x.read rs1).toNat x.fpoly.toNat = 0) : ginvRule x rd rs1 = noValueResult :=
  (withFieldModulus_ok h2 _).trans (if_pos h)

theorem ginvRule_ok (h : prem (x.read rs1).toNat x.fpoly.toNat ≠ 0) : ginvRule x rd rs1 = plainResult rd
    (BitVec.ofNat 64 (fieldInv x.fpoly.toNat (prem (x.read rs1).toNat x.fpoly.toNat))) :=
  (withFieldModulus_ok h2 _).trans (if_neg h)

/-- m is the degree of an accepted modulus (42_gf2_poly.md R191). -/
theorem fieldDegree_eq {m : Nat} (hm : deg x.fpoly.toNat = m) : fieldDegree x.fpoly.toNat = m := by
  rw [deg_eq_log2 (by omega)] at hm
  exact Int.ofNat_inj.1 hm

end

/-! ## The completions -/

/-- Settles O49: the rule writes the exclusive or of the two words. -/
theorem gaddIsExclusiveOr : Obligations.GaddIsExclusiveOr := by
  intro s x rd rs1 rs2 hx
  obtain ⟨t, hexec, hdone, hwrites⟩ := exec_one (i := .gadd rd rs1 rs2) hx rfl
  exact ⟨rfl, t, _, hexec, hdone, hwrites, fun k => BitVec.getLsbD_xor ..⟩

/-- Settles O50: the rule's three answers, by the shift and by whether the product fits. -/
theorem gshlMultipliesByAPowerOfZ : Obligations.GshlMultipliesByAPowerOfZ := fun _ _ _ _ _ hx =>
  ⟨rfl, fun hneg => exec_error hx (gshlRule_domain hneg), fun _ hn =>
    ⟨fun hfits => exec_one hx (gshlRule_ok hn hfits), fun hover => exec_error hx (gshlRule_overflow hn hover)⟩⟩

/-- Settles O51: the degrees decide whether the product fits in 64 bits. -/
theorem gmulIsTheExactProductOrOverflow : Obligations.GmulIsTheExactProductOrOverflow := by
  intro s x rd rs1 rs2 hx
  have hfits : clmul (x.read rs1).toNat (x.read rs2).toNat < 2 ^ 64 ↔
      x.read rs1 = 0 ∨ x.read rs2 = 0 ∨ deg (x.read rs1).toNat + deg (x.read rs2).toNat ≤ 63 := by
    rw [clmul_lt_two_pow_iff, toNat_eq_zero_iff, toNat_eq_zero_iff]
    exact or_congr_right (or_congr_right (by omega))
  refine ⟨rfl, fun h1 h2 hdeg => exec_error hx (gmulRule_overflow ?_), fun hsmall => ?_⟩
  · rw [← Nat.not_lt, hfits, not_or, not_or, not_le]
    exact ⟨h1, h2, hdeg⟩
  · obtain ⟨t, hexec, hdone, hwrites⟩ := exec_one (i := .gmul rd rs1 rs2) hx (gmulRule_ok (hfits.2 hsmall))
    exact ⟨t, hexec, hdone, hwrites, hfits.2 hsmall⟩

/-- Settles O52: `prem` is a remainder by every nonzero modulus. -/
theorem gmodWritesTheRemainder : Obligations.GmodWritesTheRemainder := by
  refine fun s x rd rs1 rs2 hx => ⟨rfl, fun hzero => exec_error hx (gmodRule_domain hzero), fun hne => ?_⟩
  obtain ⟨t, hexec, hdone, hwrites⟩ := exec_one (i := .gmod rd rs1 rs2) hx (gmodRule_ok hne)
  exact ⟨t, _, hexec, hdone, hwrites, prem_isRemainder (mt (toNat_eq_zero_iff _).1 hne) _⟩

/-- Settles O53: the sentinel for the zero polynomial, else the degree. -/
theorem gdegWritesTheDegreeOrTheSentinel : Obligations.GdegWritesTheDegreeOrTheSentinel := fun _ _ _ _ hx =>
  ⟨rfl, fun hzero => exec_one hx (gdegRule_zero hzero), fun _ hle hlt => exec_one hx (gdegRule_ok hle hlt)⟩

/-- Settles O54: each result is the representative of the exact value's class. -/
theorem fieldCommandsWriteRemaindersModuloF : Obligations.FieldCommandsWriteRemaindersModuloF := by
  refine fun s x rd rs1 rs2 hx => ⟨⟨rfl, rfl, rfl⟩, fun hlow i hi => ?_, fun h2 => ?_⟩
  · simp only [List.mem_cons, List.not_mem_nil, or_false] at hi
    obtain rfl | rfl | rfl := hi
    · exact exec_error hx (gmulmRule_domain hlow)
    · exact exec_error hx (gexpRule_domain hlow)
    · exact exec_error hx (gsqrtRule_domain hlow)
  have hf : x.fpoly.toNat ≠ 0 := by omega
  refine ⟨?_, fun hneg => exec_error hx (gexpRule_negative h2 hneg), fun k hk => ?_, fun m hm => ?_⟩
  · obtain ⟨t, hexec, hdone, hwrites⟩ := exec_one (i := .gmulm rd rs1 rs2) hx (gmulmRule_ok h2)
    exact ⟨t, _, hexec, hdone, hwrites, prem_isRemainder hf _⟩
  · obtain ⟨t, hexec, hdone, hwrites⟩ := exec_one (i := .gexp rd rs1 rs2) hx (gexpRule_ok h2 hk)
    exact ⟨t, _, hexec, hdone, hwrites, polyPowMod_prem_isRemainder hf _ k⟩
  · obtain ⟨t, hexec, hdone, hwrites⟩ := exec_one (i := .gsqrt rd rs1) hx (gsqrtRule_ok h2)
    obtain rfl := fieldDegree_eq h2 hm
    have hR := polyPowMod_prem_isRemainder hf (x.read rs1).toNat (2 ^ (fieldDegree x.fpoly.toNat - 1))
    exact ⟨t, _, hexec, hdone, hwrites, hR,
      fun hirr => ⟨_, prem_isRemainder hf _, clmul_self_isRemainder_of_sqrt hirr hR⟩⟩

/-- Settles O55: a zero element is one whose remainder is 0; the power of the others is their inverse for an
irreducible f. -/
theorem ginvWritesThePowerOrNoValue : Obligations.GinvWritesThePowerOrNoValue := by
  refine fun s x rd rs1 hx => ⟨rfl, fun hlow => exec_error hx (ginvRule_domain hlow), fun h2 => ?_⟩
  have hf : x.fpoly.toNat ≠ 0 := by omega
  rw [isRemainder_iff_eq_prem hf]
  refine ⟨fun hzero => exec_none hx (ginvRule_zero h2 hzero.symm), fun m hm hne => ?_⟩
  obtain ⟨t, hexec, hdone, hwrites⟩ := exec_one (i := .ginv rd rs1) hx (ginvRule_ok h2 (Ne.symm hne))
  obtain rfl := fieldDegree_eq h2 hm
  exact ⟨t, _, hexec, hdone, hwrites, polyPowMod_prem_isRemainder hf _ _,
    fun hirr => clmul_fieldInv_isRemainder hirr (Ne.symm hne)⟩

end Sys2Proof.Machine
end

section
/-! PROOFS. The binary-field point commands (43_binary_points.md): reduced elements, normalized triples, the point law in
GF(2)[z]/(f), then each command's completion from what its rule answers. -/

namespace Sys2Proof.Machine

/-! ## Reduced elements -/

section
variable {f : Nat}

/-- A polynomial of a degree below that of f is its own remainder (00_scope.md R12). -/
theorem prem_of_deg_lt (hf : f ≠ 0) {u : Nat} (hu : deg u < deg f) : prem u f = u :=
  ((isRemainder_iff_eq_prem hf).1 (isRemainder_iff.2 ⟨hu, rfl⟩)).symm

/-- 1 is a reduced element for every accepted f (42_gf2_poly.md R191). -/
theorem deg_one_lt (h2 : 2 ≤ f) : deg 1 < deg f := by
  have hone : deg 1 = 0 := by decide
  have hdeg := (one_le_deg_iff f).2 h2
  omega

theorem fieldMul_one (hf : f ≠ 0) {u : Nat} (hu : deg u < deg f) : fieldMul f u 1 = u := by
  refine eq_of_fieldClass_eq hf (deg_prem_lt hf _) hu ?_
  rw [fieldClass_fieldMul hf, fieldClass_one, mul_one]

theorem fieldInv_one (h2 : 2 ≤ f) : fieldInv f 1 = 1 := by
  have hf : f ≠ 0 := by omega
  refine eq_of_fieldClass_eq hf (deg_polyPowMod_lt hf _ _) (deg_one_lt h2) ?_
  rw [fieldInv, fieldClass_polyPowMod hf, fieldClass_one, one_pow]

/-- A reduced product is the remainder of the exact product of any representatives (42_gf2_poly.md R198). -/
theorem fieldMul_isRemainder (hf : f ≠ 0) {u v u' v' : Nat} (hu : fieldClass f u' = fieldClass f u)
    (hv : fieldClass f v' = fieldClass f v) : IsRemainder (clmul u v) f (fieldMul f u' v') := by
  refine isRemainder_iff.2 ⟨deg_prem_lt hf _, ?_⟩
  rw [fieldClass_clmul, fieldClass_fieldMul hf, hu, hv]

/-- For an irreducible f the product of `fieldInv` and a nonzero element is 1 (42_gf2_poly.md R200). -/
theorem fieldMul_fieldInv_left (hirr : irreducible f = true) {u : Nat} (hu : fieldClass f u ≠ 0) :
    fieldMul f (fieldInv f u) u = 1 := by
  obtain ⟨h2, -⟩ := (irreducible_iff_search f).1 hirr
  have hf : f ≠ 0 := ne_zero_of_irreducible hirr
  refine eq_of_fieldClass_eq hf (deg_prem_lt hf _) (deg_one_lt h2) ?_
  rw [fieldClass_fieldMul hf, fieldClass_fieldInv_mul hirr hu, fieldClass_one]

/-- For an irreducible f the square of a nonzero element is nonzero, since there are no zero divisors. -/
theorem fieldClass_fieldSq_ne_zero (hirr : irreducible f = true) {u : Nat} (hu : fieldClass f u ≠ 0) :
    fieldClass f (fieldSq f u) ≠ 0 := by
  have : Fact (Irreducible (toPoly f)) := ⟨toPoly_irreducible hirr⟩
  rw [fieldSq, fieldClass_fieldMul (ne_zero_of_irreducible hirr)]
  exact mul_self_ne_zero.2 hu

/-! ## Normalized triples -/

theorem normB_infinity {t : Triple Word} (h : prem t.z.toNat f = 0) : normB t f = ⟨1, 0, 0⟩ := if_pos h

/-- The finite normal form has the remainders of x w and y w², with w that of z^(2^m - 2), for every accepted f
(43_binary_points.md R231). -/
theorem normB_finite (hf : f ≠ 0) {t : Triple Word} (h : prem t.z.toNat f ≠ 0) :
    ∃ w X Y, normB t f = ⟨X, Y, 1⟩ ∧ IsRemainder (polyPow t.z.toNat (2 ^ fieldDegree f - 2)) f w ∧
      IsRemainder (clmul t.x.toNat w) f X ∧ IsRemainder (clmul t.y.toNat (clmul w w)) f Y := by
  have hsq : ∀ w, fieldClass f (fieldSq f w) = fieldClass f (clmul w w) := fun _ => fieldClass_prem hf _
  exact ⟨_, _, _, if_neg h, polyPowMod_prem_isRemainder hf _ _,
    fieldMul_isRemainder hf (fieldClass_prem hf _) rfl, fieldMul_isRemainder hf (fieldClass_prem hf _) (hsq _)⟩

/-- A normalized triple is its own normal form (43_binary_points.md R231). -/
theorem normB_of_normalized (h2 : 2 ≤ f) {t : Triple Word}
    (h : NormalizedB f ⟨t.x.toNat, t.y.toNat, t.z.toNat⟩) : normB t f = ⟨t.x.toNat, t.y.toNat, t.z.toNat⟩ := by
  have hf : f ≠ 0 := by omega
  have hone := deg_one_lt h2
  rcases h with h | ⟨hX, hY, hZ : t.z.toNat = 1⟩
  · have hz : t.z.toNat = 0 := congrArg Triple.z h
    have hdeg : deg 0 < deg f := lt_trans (by decide) hone
    rw [h, normB_infinity]
    rw [hz, prem_of_deg_lt hf hdeg]
  · have hsq : fieldSq f 1 = 1 := fieldMul_one hf hone
    rw [normB, hZ, prem_of_deg_lt hf hone, prem_of_deg_lt hf hX, prem_of_deg_lt hf hY, normBReduced,
      if_neg one_ne_zero, fieldInv_one h2, hsq, fieldMul_one hf hX, fieldMul_one hf hY]

theorem drawNormB_normalized (draw : Nat → Nat) (hf : f ≠ 0) : NormalizedB f (drawNormB draw f) := by
  unfold drawNormB
  split
  · exact .inl rfl
  · have hlow : ∀ n, deg (n % 2 ^ fieldDegree f) < deg f := fun n =>
      (deg_lt_iff hf).2 (Nat.mod_lt n (Nat.two_pow_pos _))
    exact .inr ⟨hlow _, hlow _, rfl⟩

/-! ## Properties of the point law -/

variable {a b : Nat}

theorem doubleB_normalized (hf : f ≠ 0) (x1 y1 : Nat) : NormalizedB f (doubleB f a b x1 y1) :=
  .inr ⟨deg_xor_lt hf (deg_prem_lt hf _) (deg_prem_lt hf _), deg_xor_lt hf (deg_prem_lt hf _) (deg_prem_lt hf _), rfl⟩

theorem lineSumB_normalized (hf : f ≠ 0) (ha : deg a < deg f) {lam x1 y1 x2 : Nat} (hlam : deg lam < deg f)
    (hx1 : deg x1 < deg f) (hy1 : deg y1 < deg f) (hx2 : deg x2 < deg f) :
    NormalizedB f (lineSumB f a lam x1 y1 x2) := by
  have hx3 : deg (chordBX f a lam x1 x2) < deg f :=
    deg_xor_lt hf (deg_xor_lt hf (deg_xor_lt hf (deg_xor_lt hf (deg_prem_lt hf _) hlam) hx1) hx2) ha
  exact .inr ⟨hx3, deg_xor_lt hf (deg_xor_lt hf (deg_prem_lt hf _) hx3) hy1, rfl⟩

/-- Sums of normalized triples are normalized, for every accepted f (43_binary_points.md R235). -/
theorem addB_normalized (hf : f ≠ 0) (ha : deg a < deg f) {p1 p2 : Triple Nat} (h1 : NormalizedB f p1)
    (h2 : NormalizedB f p2) : NormalizedB f (addB f a b p1 p2) := by
  fun_cases addB f a b p1 p2 with
  | case1 => exact h2
  | case2 => exact h1
  | case3 => exact doubleB_normalized hf _ _
  | case4 => exact .inl rfl
  | case5 hne1 hne2 =>
    obtain ⟨hx1, hy1, -⟩ := h1.resolve_left hne1
    obtain ⟨hx2, -⟩ := h2.resolve_left hne2
    exact lineSumB_normalized hf ha (deg_prem_lt hf _) hx1 hy1 hx2

/-- The chord slope as a reduced quotient (43_binary_points.md R232). -/
theorem chordB_fieldMul (hirr : irreducible f = true) {x1 y1 x2 y2 : Nat} (hx1 : deg x1 < deg f)
    (hx2 : deg x2 < deg f) (hy1 : deg y1 < deg f) (hy2 : deg y2 < deg f) (hx : x1 ≠ x2) :
    fieldMul f (chordB f x1 y1 x2 y2) (x1 ^^^ x2) = y1 ^^^ y2 := by
  have hf : f ≠ 0 := ne_zero_of_irreducible hirr
  refine eq_of_fieldClass_eq hf (deg_prem_lt hf _) (deg_xor_lt hf hy1 hy2) ?_
  rw [fieldClass_fieldMul hf, fieldClass_xor, fieldClass_xor, fieldClass_chordB_mul hirr hx1 hx2 hx]

/-- `addB` meets the point law: doubling divides by x1², and the chord by x1 + x2, neither of which is 0
(43_binary_points.md R232). -/
theorem addB_pointLaw {p1 p2 : Triple Nat} (hirr : irreducible f = true) (h1 : NormalizedB f p1)
    (h2 : NormalizedB f p2) : PointLawB f a b p1 p2 (addB f a b p1 p2) := by
  have hf : f ≠ 0 := ne_zero_of_irreducible hirr
  refine ⟨?_, ?_, addB_opposite, fun hne1 hne2 hx hy hne => ?_, fun hne1 hne2 hx => ?_⟩
  · rintro rfl
    exact addB_infinity_left
  · rintro - rfl
    exact addB_infinity_right
  · obtain ⟨hx1, -⟩ := h1.resolve_left hne1
    rw [addB_double hne1 hne2 hx hy hne]
    exact ⟨_, deg_polyPowMod_lt hf _ _,
      fieldMul_fieldInv_left hirr (fieldClass_fieldSq_ne_zero hirr (fieldClass_ne_zero hx1 hne)), rfl, rfl, rfl⟩
  · obtain ⟨hx1, hy1, -⟩ := h1.resolve_left hne1
    obtain ⟨hx2, hy2, -⟩ := h2.resolve_left hne2
    rw [addB_chord hne1 hne2 hx]
    exact ⟨_, deg_prem_lt hf _, chordB_fieldMul hirr hx1 hx2 hy1 hy2 hx, rfl, rfl, rfl⟩

/-! ## The sums and multiples -/

variable {draw : Nat → Nat}

/-- The sum, or the draw for a reducible f, is normalized (43_binary_points.md R235). -/
theorem baddPoint_normalized (hf : f ≠ 0) (ha : deg a < deg f) {p1 p2 : Triple Nat} (h1 : NormalizedB f p1)
    (h2 : NormalizedB f p2) : NormalizedB f (baddPoint draw f a b p1 p2) := by
  unfold baddPoint
  split
  · exact addB_normalized hf ha h1 h2
  · exact drawNormB_normalized draw hf

/-- The multiple, or the draw for a reducible f, is normalized (43_binary_points.md R235). -/
theorem bsmulPoint_normalized (hf : f ≠ 0) (ha : deg a < deg f) (k : Nat) {q : Triple Nat} (hq : NormalizedB f q) :
    NormalizedB f (bsmulPoint draw f a b k q) := by
  unfold bsmulPoint
  split
  · exact binaryLoop_keeps _ _ (fun _ _ => addB_normalized hf ha) _ _ _ _ (.inl rfl) hq
  · exact drawNormB_normalized draw hf

theorem bsmulPoint_irreducible (hirr : irreducible f = true) {k : Nat} (hk : k < 2 ^ 64) (q : Triple Nat) :
    bsmulPoint draw f a b k q = doubleAndAdd (addB f a b) binaryInfinity q k := by
  rw [bsmulPoint, if_pos hirr, binaryPower_eq_doubleAndAdd _ _ _ hk]

end

/-! ## The rules -/

section
variable {x : Regs} {draw : Nat → Nat} {rd rs1 rs2 : Reg}

theorem bnormRule_domain (hwf : (Instr.bnorm rd rs1).wf = true) (h : x.fpoly.toNat < 2) :
    bnormRule x rd rs1 = .error .domain := (withTripleBases_ok hwf _).trans (withFieldModulus_error h _)

theorem baddRule_domain (hwf : (Instr.badd rd rs1 rs2).wf = true) (h : x.fpoly.toNat < 2) :
    baddRule x draw rd rs1 rs2 = .error .domain := (withTripleBases_ok hwf _).trans (withFieldModulus_error h _)

theorem bsmulRule_domain (hwf : (Instr.bsmul rd rs1 rs2).wf = true)
    (h : x.fpoly.toNat < 2 ∨ (x.read rs2).toInt < 0) : bsmulRule x draw rd rs1 rs2 = .error .domain := by
  refine (withTripleBases_ok hwf _).trans ?_
  by_cases hlow : x.fpoly.toNat < 2
  · exact withFieldModulus_error hlow _
  · rw [withFieldModulus_ok (not_lt.1 hlow), withNonneg_error (h.resolve_left hlow)]

variable (h2 : 2 ≤ x.fpoly.toNat)
include h2

theorem bnormRule_ok (hwf : (Instr.bnorm rd rs1).wf = true) :
    bnormRule x rd rs1 = pointResult binaryInfinity rd (normB (x.triple rs1) x.fpoly.toNat) :=
  (withTripleBases_ok hwf _).trans (withFieldModulus_ok h2 _)

theorem baddRule_ok (hwf : (Instr.badd rd rs1 rs2).wf = true) : baddRule x draw rd rs1 rs2 =
    pointResult binaryInfinity rd (baddPoint draw x.fpoly.toNat (prem x.ca.toNat x.fpoly.toNat)
      (prem x.cb.toNat x.fpoly.toNat) (normB (x.triple rs1) x.fpoly.toNat) (normB (x.triple rs2) x.fpoly.toNat)) :=
  (withTripleBases_ok hwf _).trans (withFieldModulus_ok h2 _)

theorem bsmulRule_ok (hwf : (Instr.bsmul rd rs1 rs2).wf = true) {k : Nat} (hk : (x.read rs2).toInt = k) :
    bsmulRule x draw rd rs1 rs2 =
      pointResult binaryInfinity rd (bsmulPoint draw x.fpoly.toNat (prem x.ca.toNat x.fpoly.toNat)
        (prem x.cb.toNat x.fpoly.toNat) k (normB (x.triple rs1) x.fpoly.toNat)) :=
  (withTripleBases_ok hwf _).trans ((withFieldModulus_ok h2 _).trans (withNonneg_ok hk _))

end

/-! ## The completions -/

/-- Settles O56: a normalized triple is a fixed point of `normB`, and its words are written back. -/
theorem bnormWritesTheNormalizedTriple : Obligations.BnormWritesTheNormalizedTriple := by
  refine fun s x rd rs1 hx hwf => ⟨rfl, fun hlow => exec_error hx (bnormRule_domain hwf hlow), ?_⟩
  rintro _ m rfl h2 hm
  have hf : x.fpoly.toNat ≠ 0 := by omega
  obtain ⟨t, hexec, hdone, hwrites⟩ := exec_point (i := .bnorm rd rs1) hx (bnormRule_ok h2 hwf)
  rw [isRemainder_iff_eq_prem hf]
  refine ⟨fun hzero => ?_, fun hne => ?_, fun hnorm => ?_⟩
  · rw [normB_infinity hzero.symm] at hdone hwrites
    exact ⟨t, hexec, hdone, hwrites⟩
  · obtain rfl := fieldDegree_eq h2 hm
    obtain ⟨w, X, Y, hnorm, hw, hX, hY⟩ := normB_finite hf (Ne.symm hne)
    rw [hnorm] at hdone hwrites
    exact ⟨t, w, X, Y, hexec, by simpa [binaryInfinity] using hdone, hwrites, hw, hX, hY⟩
  · rw [normB_of_normalized h2 hnorm] at hwrites
    exact ⟨t, hexec, hwrites.triple_eq⟩

/-- Settles O57: both operands are normalized first, which the point law needs for its divisions. -/
theorem baddFollowsThePointLaw : Obligations.BaddFollowsThePointLaw := by
  refine fun s x rd rs1 rs2 hx hwf => ⟨rfl, fun hlow => exec_error hx (baddRule_domain hwf hlow), ?_⟩
  rintro _ rfl h2
  have hf : x.fpoly.toNat ≠ 0 := by omega
  have hnorm1 := normB_normalized (x.triple rs1) hf
  have hnorm2 := normB_normalized (x.triple rs2) hf
  obtain ⟨t, hexec, hdone, hwrites⟩ := exec_point (i := .badd rd rs1 rs2) hx (baddRule_ok h2 hwf)
  refine ⟨t, _, hexec, hdone, hwrites, baddPoint_normalized hf (deg_prem_lt hf _) hnorm1 hnorm2, fun hirr => ?_⟩
  rw [baddPoint_irreducible hirr]
  exact addB_pointLaw hirr hnorm1 hnorm2

/-- Settles O58: the loop takes one turn per bit of the scalar, which is below 2^63. -/
theorem bsmulIsDoubleAndAdd : Obligations.BsmulIsDoubleAndAdd := by
  refine fun s x rd rs1 rs2 hx hwf => ⟨rfl, fun hbad => exec_error hx (bsmulRule_domain hwf hbad), ?_⟩
  rintro _ k rfl h2 hk
  have hf : x.fpoly.toNat ≠ 0 := by omega
  have hword := BitVec.toInt_lt (x := x.read rs2)
  obtain ⟨t, hexec, hdone, hwrites⟩ := exec_point (i := .bsmul rd rs1 rs2) hx (bsmulRule_ok h2 hwf hk)
  exact ⟨t, _, hexec, hdone, hwrites, bsmulPoint_normalized hf (deg_prem_lt hf _) k (normB_normalized _ hf),
    fun hirr => bsmulPoint_irreducible hirr (by omega) _⟩

end Sys2Proof.Machine
end

section
/-! PROOFS. Launch, completion and errors (60_exceptions.md): what a step does with the command in flight, which errors
each command may raise, and the interrupt output. -/

namespace Sys2Proof.Machine

/-! ## The errors of a command -/

/-- If the outcome is an error, its code is one of `cs`. -/
def ErrorsAmong {α : Type} (cs : List ErrCode) (o : Except ErrCode α) : Prop := ∀ c, o = .error c → c ∈ cs

section
variable {α : Type} {cs : List ErrCode}

theorem errorsAmong_error {c : ErrCode} (h : c ∈ cs) : ErrorsAmong cs (.error c : Except ErrCode α) := by
  rintro _ ⟨⟩
  exact h

theorem errorsAmong_ok (r : α) : ErrorsAmong cs (.ok r) := by
  intro c h
  cases h

theorem errorsAmong_ite {c : Prop} [Decidable c] {a b : Except ErrCode α} (ha : ErrorsAmong cs a)
    (hb : ErrorsAmong cs b) : ErrorsAmong cs (if c then a else b) := by
  split <;> assumption

/-- The triple check raises nothing on the bases of a well-formed command (30_encoding.md R95 (d)). -/
theorem errorsAmong_tripleBases {ks : List Reg} (hks : ks.all isTripleBase = true) {o : Except ErrCode α}
    (h : ErrorsAmong cs o) : ErrorsAmong cs (withTripleBases ks o) := by
  rwa [withTripleBases_ok hks]

/-- A check that fails with DOMAIN, before the rest of the rule. -/
theorem errorsAmong_domain_ite {c : Prop} [Decidable c] {o : Except ErrCode α} (h : ErrorsAmong (.domain :: cs) o) :
    ErrorsAmong (.domain :: cs) (if c then .error .domain else o) :=
  errorsAmong_ite (errorsAmong_error List.mem_cons_self) h

theorem errorsAmong_modulus {x : Regs} {f : Nat → Except ErrCode α} (h : ∀ p, ErrorsAmong (.domain :: cs) (f p)) :
    ErrorsAmong (.domain :: cs) (withModulus x f) := errorsAmong_domain_ite (h _)

theorem errorsAmong_fieldModulus {x : Regs} {f : Nat → Except ErrCode α}
    (h : ∀ p, ErrorsAmong (.domain :: cs) (f p)) : ErrorsAmong (.domain :: cs) (withFieldModulus x f) :=
  errorsAmong_domain_ite (h _)

theorem errorsAmong_nonneg {v : Word} {f : Nat → Except ErrCode α} (h : ∀ k, ErrorsAmong (.domain :: cs) (f k)) :
    ErrorsAmong (.domain :: cs) (withNonneg v f) := errorsAmong_domain_ite (h _)

end

/-- The errors of SQRTMOD once its modulus is at least 2 (40_modular.md R126, R128). -/
theorem sqrtOutcome_errorsAmong (draw : Nat → Nat) (p a : Nat) :
    ErrorsAmong [.domain, .nonresidue, .noroot] (sqrtOutcome draw p a) := by
  refine errorsAmong_ite (errorsAmong_ok _) (errorsAmong_domain_ite (errorsAmong_domain_ite
    (errorsAmong_ite (errorsAmong_ok _) (errorsAmong_ite (errorsAmong_error (by decide))
      (errorsAmong_ite (errorsAmong_ok _) ?_)))))
  cases drawRoot draw a p with
  | some r => exact errorsAmong_ok r
  | none => exact errorsAmong_error (by decide)

/-- The one error of a shift (42_gf2_poly.md R193, R195). -/
theorem shiftPoly_errorsAmong (a s : Nat) : ErrorsAmong [.domain, .overflow] (shiftPoly a s) :=
  errorsAmong_ite (errorsAmong_ok _) (errorsAmong_ite (errorsAmong_error (by decide)) (errorsAmong_ok _))

/-- Every well-formed command's rule raises only the errors of its row in the table of codes (60_exceptions.md R265). -/
theorem ruleOf_errorsAmong {i : Instr} (hwf : i.wf = true) (x : Regs) (draw : Nat → Nat) :
    ErrorsAmong (mayRaise i) (ruleOf i x draw) := by
  cases i with
  | mulmod | cvalid => exact errorsAmong_modulus fun _ => errorsAmong_ok _
  | expmod => exact errorsAmong_modulus fun _ => errorsAmong_nonneg fun _ => errorsAmong_ok _
  | invmod => exact errorsAmong_modulus fun _ => errorsAmong_ite (errorsAmong_ok _) (errorsAmong_ok _)
  | sqrtmod rd rs1 =>
    simp only [ruleOf, sqrtmodRule]
    refine errorsAmong_modulus fun p => ?_
    cases hroot : sqrtOutcome draw p (residue (x.read rs1) p) with
    | ok r => exact errorsAmong_ok _
    | error c => exact errorsAmong_error (sqrtOutcome_errorsAmong _ _ _ c hroot)
  | isprime | gadd => exact errorsAmong_ok _
  | peq => exact errorsAmong_tripleBases hwf (errorsAmong_ok _)
  | gdeg => exact errorsAmong_ite (errorsAmong_ok _) (errorsAmong_ok _)
  | jacobi | gmod => exact errorsAmong_domain_ite (errorsAmong_ok _)
  | pnorm | padd => exact errorsAmong_tripleBases hwf (errorsAmong_modulus fun _ => errorsAmong_ok _)
  | psmul =>
    exact errorsAmong_tripleBases hwf (errorsAmong_modulus fun _ => errorsAmong_nonneg fun _ => errorsAmong_ok _)
  | gshl rd rs1 rs2 =>
    simp only [ruleOf, gshlRule]
    refine errorsAmong_nonneg fun n => ?_
    cases hshift : shiftPoly (x.read rs1).toNat n with
    | ok r => exact errorsAmong_ok _
    | error c => exact errorsAmong_error (shiftPoly_errorsAmong _ _ c hshift)
  | gmul => exact errorsAmong_ite (errorsAmong_error List.mem_cons_self) (errorsAmong_ok _)
  | gmulm | gsqrt => exact errorsAmong_fieldModulus fun _ => errorsAmong_ok _
  | gexp => exact errorsAmong_fieldModulus fun _ => errorsAmong_nonneg fun _ => errorsAmong_ok _
  | ginv => exact errorsAmong_fieldModulus fun _ => errorsAmong_ite (errorsAmong_ok _) (errorsAmong_ok _)
  | bnorm | badd => exact errorsAmong_tripleBases hwf (errorsAmong_fieldModulus fun _ => errorsAmong_ok _)
  | bsmul =>
    exact errorsAmong_tripleBases hwf
      (errorsAmong_fieldModulus fun _ => errorsAmong_nonneg fun _ => errorsAmong_ok _)

/-- Settles O13: ERR after the completion is the error of the command's rule, or 0. -/
theorem commandsRaiseOnlyTheirErrors : Obligations.CommandsRaiseOnlyTheirErrors := by
  intro i s t hwf h
  obtain ⟨x, -, rfl⟩ := exec_next h
  cases ho : ruleOf i x s.draws with
  | error c => exact .inr (ruleOf_errorsAmong hwf x s.draws c ho)
  | ok r => exact .inl rfl

/-! ## Steps of the engine -/

/-- The engine always goes on: it stays as it is, or completes (60_exceptions.md R260). -/
theorem engineStep_answers_next (s : State) : ∃ t, engineStep s = .next t := by
  obtain ⟨-, h⟩ | ⟨x, o, -, h⟩ := engineStep_cases s
  · exact ⟨s, h⟩
  · exact ⟨_, h⟩

/-- Settles O8: only the engine's step could stop, and it does not. -/
theorem stepAlwaysAnswersNext : Obligations.StepAlwaysAnswersNext := by
  intro s
  cases hinputs : s.inputs with
  | nil =>
    rw [step_of_inputs_nil hinputs]
    exact engineStep_answers_next s
  | cons e rest =>
    rw [step_of_inputs_cons hinputs]
    cases e with
    | completion => exact engineStep_answers_next _
    | hostRead | hostWrite | hardReset => exact ⟨_, rfl⟩

/-- With a legal word in flight the engine's step runs its command (60_exceptions.md R262). -/
theorem engineStep_of_decode {s : State} {x : Regs} {i : Instr} (hx : s.engine = .busy x)
    (hdecode : decode s.cmd = .ok i) : engineStep s = exec i s := by
  rw [engineStep, if_pos (State.isBusy_busy hx), completeLatched, hdecode]

/-- While idle the completion is not enabled (60_exceptions.md R267). -/
theorem engineStep_of_idle {s : State} (hidle : s.engine = .idle) : engineStep s = .next s := by
  rw [engineStep, State.isBusy_idle hidle]
  rfl

/-- Settles O6: the completion event and the empty schedule both leave the step to the engine. -/
theorem stepRunsTheDecodedCommand : Obligations.StepRunsTheDecodedCommand := by
  refine fun s rest => ⟨fun x i hx hdecode => ⟨fun hinputs => ?_, fun hinputs => ?_⟩,
    fun hidle => ⟨fun hinputs => ?_, fun hinputs => ?_⟩⟩
  · exact (step_of_inputs_cons hinputs).trans (engineStep_of_decode (s := { s with inputs := rest }) hx hdecode)
  · exact (step_of_inputs_nil hinputs).trans (engineStep_of_decode hx hdecode)
  · exact (step_of_inputs_cons hinputs).trans (engineStep_of_idle (s := { s with inputs := rest }) hidle)
  · exact (step_of_inputs_nil hinputs).trans (engineStep_of_idle hidle)

/-! ## Launches -/

/-- A CMD write to a busy block is dropped (20_memory.md R68). -/
theorem step_cmdWrite_of_busy {s : State} {x : Regs} {v : Word} {rest : List Event} (hx : s.engine = .busy x)
    (hinputs : s.inputs = .hostWrite 0x018 8 v :: rest) :
    step s = .next { ({ s with inputs := rest } : State).dropWrite with reply := some .writeAccepted } := by
  rw [step_hostWrite .cmd hinputs, writeReg_dropped_of_busy (s := { s with inputs := rest }) hx v (.inl rfl)]

/-- Settles O16: the write is a launch while idle, and is dropped while busy. -/
theorem commandWriteLaunches : Obligations.CommandWriteLaunches := by
  refine fun s v rest hinputs => ⟨fun hidle => ⟨_, step_cmdWrite_of_idle hidle hinputs, ?_⟩,
    fun x hx => ⟨_, step_cmdWrite_of_busy hx hinputs, hx, rfl, rfl, rfl, rfl⟩⟩
  exact ⟨rfl, rfl, rfl, rfl, rfl, rfl, rfl, rfl, rfl, rfl, rfl, rfl⟩

/-! ## The interrupt output -/

/-- Every completion sets DONE and keeps IRQEN (60_exceptions.md R262, R263, R270). -/
theorem irq_completeWith (o : RuleOutcome) (s : State) : (s.completeWith o).irq = s.irqen := by
  cases o <;> rfl

/-- Settles O29: a completion sets DONE, and the invariant keeps DONE clear while busy. -/
theorem interruptFollowsDoneAndEnable : Obligations.InterruptFollowsDoneAndEnable := by
  refine ⟨fun _ => rfl, fun i s t h => ?_, fun s hinv hbusy => ?_⟩
  · obtain ⟨x, -, rfl⟩ := exec_next h
    exact irq_completeWith _ s
  · obtain ⟨hdone, -⟩ := hinv.busy_clear hbusy
    rw [State.irq, hdone, Bool.false_and]

end Sys2Proof.Machine
end
